-- ==== Sys2Proof/Word.lean ====
section
/-! DEFINITION. The word types of the DNS message codec (00_scope.md R4, R6): every multi-bit value
is an unsigned bit vector of a stated width. The assembly of words from bytes is in
`Machine/Bytes.lean`. -/

namespace Sys2Proof

/-- A byte: an unsigned 8-bit value (R6). -/
abbrev Byte := BitVec 8

/-- A 16-bit word: identifier, flags word, counts, type, class and payload length (R4). -/
abbrev Word16 := BitVec 16

/-- A 32-bit word: the time-to-live (R4). -/
abbrev Word32 := BitVec 32

end Sys2Proof
end

