-- ==== Sys2Proof/Syntax.lean ====
section
/-! DEFINITION. The value types of the host interface (10_state.md section 3, 40_enums.md section 2,
60_exceptions.md R186) and `Instr`: one constructor per row of spec/opcode_table.json. -/

namespace Sys2Proof

/-- Opcode enumeration: "standard query, inverse query, server-status request" (40_enums.md R81). -/
inductive Opcode where
  | query | iquery | status
  deriving DecidableEq, Repr

/-- Response-code enumeration (40_enums.md R82). -/
inductive Rcode where
  | noerror | formerr | servfail | nxdomain | notimp | refused
  deriving DecidableEq, Repr

/-- Type enumeration, one for `QTYPE` and `TYPE` (40_enums.md R83). -/
inductive RType where
  | a | ns | md | mf | cname | soa | mb | mg | mr | null | wks | ptr | hinfo | minfo | mx | txt
  | axfr | mailb | maila | any
  deriving DecidableEq, Repr

/-- Class enumeration, one for `QCLASS` and `CLASS` (40_enums.md R84). -/
inductive RClass where
  | inet | cs | ch | hs | any
  deriving DecidableEq, Repr

/-- A name: a sequence of 8-bit codes in which `0x2E` separates labels (10_state.md R24). -/
abbrev Name := List Byte

/-- The separator code `.` of a name (10_state.md R24). -/
def dot : Byte := 0x2E#8

/-- `Header`: thirteen fields (10_state.md R23). -/
structure Header where
  id      : Word16
  qr      : Bool
  opcode  : Opcode
  aa      : Bool
  tc      : Bool
  rd      : Bool
  ra      : Bool
  z       : BitVec 3
  rcode   : Rcode
  qdcount : Word16
  ancount : Word16
  nscount : Word16
  arcount : Word16
  deriving DecidableEq, Repr

/-- `Question` (10_state.md R25). -/
structure Question where
  qname  : Name
  qtype  : RType
  qclass : RClass
  deriving DecidableEq, Repr

/-- `Record` (10_state.md R26). `ttl` is an opaque 32-bit pattern. -/
structure Record where
  name     : Name
  type     : RType
  cls      : RClass
  ttl      : Word32
  rdlength : Word16
  rdata    : List Byte
  deriving DecidableEq, Repr

/-- `Message`: header and four ordered sequences of entries (10_state.md R27). -/
structure Message where
  hdr : Header
  qd  : List Question
  an  : List Record
  ns  : List Record
  ar  : List Record
  deriving DecidableEq, Repr

/-- The eight fields of the flags word (30_encoding.md R55), its ordinals as members. -/
structure FlagFields where
  qr     : Bool
  opcode : Opcode
  aa     : Bool
  tc     : Bool
  rd     : Bool
  ra     : Bool
  z      : BitVec 3
  rcode  : Rcode
  deriving DecidableEq, Repr

/-- The enumeration a rejected ordinal belongs to (10_state.md R16, 60_exceptions.md R186). -/
inductive EnumField where
  | opcode | rcode | type | cls
  deriving DecidableEq, Repr

/-- The four fault kinds, a closed list (60_exceptions.md R185). -/
inductive FaultKind where
  | truncatedMessage | invalidLabelEncoding | pointerLimitExceeded | unknownEnumValue
  deriving DecidableEq, Repr

/-- A fault with the information it records: only `UnknownEnumValue` records any, the field and the
ordinal zero-extended to 16 bits (10_state.md R16, 60_exceptions.md R186, 40_enums.md R94). -/
inductive FaultInfo where
  | truncatedMessage
  | invalidLabelEncoding
  | pointerLimitExceeded
  | unknownEnumValue (field : EnumField) (value : Word16)
  deriving DecidableEq, Repr

/-- An element of an encoded name, by its first byte (30_encoding.md R57, R58); a pointer with the
whole of its 14-bit offset (R59). -/
inductive NameElement where
  | terminator
  | label (len : BitVec 6)
  | pointer (off : BitVec 14)
  deriving DecidableEq, Repr

/-- One constructor per row of spec/opcode_table.json, in its order. The first 29 are the
operations of 30_encoding.md R52, the next two its pseudo-operations; the rest are the table's
encoding rows, which no command code names (log 10). -/
inductive Instr where
  | reset
  | loadRx (data : List Byte)
  | clearTx
  | readU8
  | readU16
  | readU32
  | readBytes (n : Word16)
  | setPosition (p : Nat)
  | readName
  | writeU16 (v : Word16)
  | writeU32 (v : Word32)
  | writeName (s : Name)
  | opcodeFrom (o : BitVec 4)
  | opcodeTo (m : Opcode)
  | rcodeFrom (o : BitVec 4)
  | rcodeTo (m : Rcode)
  | typeFrom (o : Word16)
  | typeTo (m : RType)
  | classFrom (o : Word16)
  | classTo (m : RClass)
  | hdrEnc (h : Header)
  | hdrDec
  | qEnc (q : Question)
  | qDec
  | rrEnc (r : Record)
  | rrDec
  | msgEnc (m : Message)
  | msgDec
  | buildRequest (id : Word16) (q : Question)
  | serialize (m : Message)
  | deserialize (data : List Byte)
  | wireFlags (f : Word16)
  | wireNameEnd
  | wireNameLabel (len : BitVec 6)
  | wireNamePointer (off : BitVec 14)
  | wireNameInvalid01 (x : BitVec 6)
  | wireNameInvalid10 (x : BitVec 6)
  | wireHeader (h : Header)
  | wireQuestion (q : Question)
  | wireRecord (r : Record)
  | wireMessage (m : Message)
  | opcodeQuery
  | opcodeIquery
  | opcodeStatus
  | rcodeNoerror
  | rcodeFormerr
  | rcodeServfail
  | rcodeNxdomain
  | rcodeNotimp
  | rcodeRefused
  | typeA
  | typeNs
  | typeMd
  | typeMf
  | typeCname
  | typeSoa
  | typeMb
  | typeMg
  | typeMr
  | typeNull
  | typeWks
  | typePtr
  | typeHinfo
  | typeMinfo
  | typeMx
  | typeTxt
  | typeAxfr
  | typeMailb
  | typeMaila
  | typeAny
  | classIn
  | classCs
  | classCh
  | classHs
  | classAny
  | errTruncatedMessage
  | errInvalidLabelEncoding
  | errPointerLimitExceeded
  | errUnknownEnumValue
  deriving DecidableEq, Repr

/-- What kind of word a transaction on the host port carries. `command` is the block's own
interface (30_encoding.md R50); `pseudo` names a pseudo-operation of R52; the others offer one
encoding row of the table, in the field where that encoding stands, so that the same number in two
fields (type 1 and class 1) is told apart. DESIGN CHOICE, log 10, log 11. -/
inductive Format where
  | command | pseudo | flags | nameElement | layout
  | opcodeField | rcodeField | typeField | classField | errorCode
  deriving DecidableEq, Repr

/-- One transaction of the host: the bytes of one operation with its operands. How operands are
carried is the model's own (30_encoding.md R50 fixes nothing). DESIGN CHOICE, log 1. -/
structure Transaction where
  format : Format
  bytes  : List Byte
  deriving DecidableEq, Repr

end Sys2Proof
end

