-- ==== Sys2Proof/Machine/Bytes.lean ====
section
/-! DEFINITION. Bytes, words and dot-separated sequences: big-endian disassembly and assembly
(20_memory.md R33, 30_encoding.md R64) and `split` and `join` (00_scope.md R7). -/

namespace Sys2Proof

/-- The two bytes of a 16-bit word in wire order, most significant first (20_memory.md R33). -/
def be16 (v : Word16) : List Byte := [v.extractLsb' 8 8, v.extractLsb' 0 8]

/-- The four bytes of a 32-bit word in wire order, most significant first (20_memory.md R33). -/
def be32 (v : Word32) : List Byte :=
  [v.extractLsb' 24 8, v.extractLsb' 16 8, v.extractLsb' 8 8, v.extractLsb' 0 8]

/-- Two bytes assembled, most significant first (41_cursor_read.md R102). -/
def word16 (b0 b1 : Byte) : Word16 := b0.setWidth 16 <<< 8 ||| b1.setWidth 16

/-- Four bytes assembled, most significant first (41_cursor_read.md R103). -/
def word32 (b0 b1 b2 b3 : Byte) : Word32 :=
  b0.setWidth 32 <<< 24 ||| b1.setWidth 32 <<< 16 ||| b2.setWidth 32 <<< 8 ||| b3.setWidth 32

/-- `split(s, d)`: the maximal runs between occurrences of `d`; `split([], d) = [[]]` (00_scope.md R7). -/
def split (d : Byte) : List Byte → List (List Byte)
  | [] => [[]]
  | b :: bs =>
    if b = d then [] :: split d bs
    else
      match split d bs with
      | [] => [[b]]
      | seg :: segs => (b :: seg) :: segs

/-- `join(L, d)`: the concatenation with one `d` between consecutive elements (00_scope.md R7). -/
def join (d : Byte) : List (List Byte) → List Byte
  | [] => []
  | [x] => x
  | x :: y :: rest => x ++ d :: join d (y :: rest)

end Sys2Proof
end

