-- ==== Sys2Proof/Machine/Enums.lean ====
section
/-! DEFINITION. The four enumeration tables and the two conversions over any table (40_enums.md
R80 to R84). The tables are configuration (00_scope.md R4); every ordinal but address = 1 and
Internet = 1 is general knowledge by the spec's own marking. PRESUMED, log 9. -/

namespace Sys2Proof

/-- `E_FROM` over any table: the member whose ordinal is `o`, if there is one (40_enums.md R80). -/
def enumFrom {M : Type} {w : Nat} (members : List M) (ord : M → BitVec w) (o : BitVec w) : Option M :=
  members.find? fun m => ord m == o

/-- Opcode members in the order of R81. -/
def Opcode.all : List Opcode := [.query, .iquery, .status]

/-- Response-code members in the order of R82. -/
def Rcode.all : List Rcode := [.noerror, .formerr, .servfail, .nxdomain, .notimp, .refused]

/-- Type members in the order of R83. -/
def RType.all : List RType :=
  [.a, .ns, .md, .mf, .cname, .soa, .mb, .mg, .mr, .null] ++
  [.wks, .ptr, .hinfo, .minfo, .mx, .txt, .axfr, .mailb, .maila, .any]

/-- Class members in the order of R84. -/
def RClass.all : List RClass := [.inet, .cs, .ch, .hs, .any]

/-- The four tables of the block's configuration: a member's ordinal (00_scope.md R4, 40_enums.md
R80). -/
structure EnumTables where
  opcode : Opcode → BitVec 4
  rcode  : Rcode → BitVec 4
  type   : RType → Word16
  cls    : RClass → Word16

/-- The configuration's tables: the ordinals of 40_enums.md R81 to R84 (92_eei_decisions.md D6). The
numbers stand here and nowhere else in the machine; the conversions, the codec, the decoder and the
member rows read them from here, so a corrected ordinal is a change of this data. Log 9. -/
def Config.tables : EnumTables where
  opcode
    | .query => 0 | .iquery => 1 | .status => 2
  rcode
    | .noerror => 0 | .formerr => 1 | .servfail => 2 | .nxdomain => 3 | .notimp => 4 | .refused => 5
  type
    | .a => 1 | .ns => 2 | .md => 3 | .mf => 4 | .cname => 5 | .soa => 6 | .mb => 7 | .mg => 8
    | .mr => 9 | .null => 10 | .wks => 11 | .ptr => 12 | .hinfo => 13 | .minfo => 14 | .mx => 15
    | .txt => 16 | .axfr => 252 | .mailb => 253 | .maila => 254 | .any => 255
  cls
    | .inet => 1 | .cs => 2 | .ch => 3 | .hs => 4 | .any => 255

/-- `OPCODE_TAB` as configured (40_enums.md R81). -/
def opcodeTab : Opcode → BitVec 4 := Config.tables.opcode

/-- `RCODE_TAB` as configured (40_enums.md R82). -/
def rcodeTab : Rcode → BitVec 4 := Config.tables.rcode

/-- `TYPE_TAB` as configured (40_enums.md R83). -/
def typeTab : RType → Word16 := Config.tables.type

/-- `CLASS_TAB` as configured (40_enums.md R84). -/
def classTab : RClass → Word16 := Config.tables.cls

/-- The opcode member of an ordinal, if any (40_enums.md R81). -/
def opcodeOf (o : BitVec 4) : Option Opcode := enumFrom Opcode.all opcodeTab o

/-- The response-code member of an ordinal, if any (40_enums.md R82). -/
def rcodeOf (o : BitVec 4) : Option Rcode := enumFrom Rcode.all rcodeTab o

/-- The type member of an ordinal, if any (40_enums.md R83). -/
def typeOf (o : Word16) : Option RType := enumFrom RType.all typeTab o

/-- The class member of an ordinal, if any (40_enums.md R84). -/
def classOf (o : Word16) : Option RClass := enumFrom RClass.all classTab o

/-- `E_FROM`: the member, or `UnknownEnumValue(field, value)` with the ordinal as it stood, zero-extended to
16 bits (40_enums.md R80, R94). -/
def memberOrFault {M : Type} (m : Option M) (field : EnumField) (value : Word16) :
    Except FaultInfo M :=
  match m with
  | some a => .ok a
  | none => .error (.unknownEnumValue field value)

/-- `OPCODE_FROM` (40_enums.md R85). -/
def opcodeFrom (o : BitVec 4) : Except FaultInfo Opcode :=
  memberOrFault (opcodeOf o) .opcode (o.setWidth 16)

/-- `RCODE_FROM` (40_enums.md R87). -/
def rcodeFrom (o : BitVec 4) : Except FaultInfo Rcode :=
  memberOrFault (rcodeOf o) .rcode (o.setWidth 16)

/-- `TYPE_FROM` (40_enums.md R89). -/
def typeFrom (o : Word16) : Except FaultInfo RType := memberOrFault (typeOf o) .type o

/-- `CLASS_FROM` (40_enums.md R91). -/
def classFrom (o : Word16) : Except FaultInfo RClass := memberOrFault (classOf o) .cls o

end Sys2Proof
end

