-- ==== Sys2Proof/WellFormed.lean ====
section
/-! DEFINITION. What makes a term well formed: an instruction whose operands its encoding admits, and the
spec's own notions of a well-formed record and message, a valid name and a round-trippable message
(10_state.md R26 to R29). -/

namespace Sys2Proof

/-- "A record is well formed when `RDLENGTH = |RDATA|`" (10_state.md R26). -/
def Record.wf (r : Record) : Bool := r.rdlength.toNat == r.rdata.length

/-- A message is well formed: its four counts equal its lists' lengths and every record is well
formed (10_state.md R27). -/
def Message.wf (m : Message) : Bool :=
  m.hdr.qdcount.toNat == m.qd.length && m.hdr.ancount.toNat == m.an.length &&
  m.hdr.nscount.toNat == m.ns.length && m.hdr.arcount.toNat == m.ar.length &&
  m.an.all Record.wf && m.ns.all Record.wf && m.ar.all Record.wf

/-- `ValidName(s)`: not empty, and every segment has 1 to 63 codes (10_state.md R28). -/
def validName (s : Name) : Bool :=
  !s.isEmpty && (split dot s).all fun seg => 1 ≤ seg.length && seg.length ≤ 63

/-- A message is round-trippable: well formed, and every name in it valid (10_state.md R29). -/
def Message.roundTrippable (m : Message) : Bool :=
  m.wf && m.qd.all (fun q => validName q.qname) && m.an.all (fun r => validName r.name) &&
  m.ns.all (fun r => validName r.name) && m.ar.all (fun r => validName r.name)

/-- An instruction is well formed when its operands are what its row's encoding admits. The one
row with a narrower operand than its type is WIRE.NAME_LABEL: length 0 is WIRE.NAME_END
(30_encoding.md R58). Values an operation refuses (60_exceptions.md R197) are well formed: the
block answers them. -/
def Instr.wf : Instr → Bool
  | .wireNameLabel len => len != 0
  | .reset | .loadRx _ | .clearTx | .readU8 | .readU16 | .readU32 | .readBytes _ | .setPosition _
  | .readName | .writeU16 _ | .writeU32 _ | .writeName _ | .opcodeFrom _ | .opcodeTo _
  | .rcodeFrom _ | .rcodeTo _ | .typeFrom _ | .typeTo _ | .classFrom _ | .classTo _ | .hdrEnc _
  | .hdrDec | .qEnc _ | .qDec | .rrEnc _ | .rrDec | .msgEnc _ | .msgDec | .buildRequest _ _
  | .serialize _ | .deserialize _ | .wireFlags _ | .wireNameEnd | .wireNamePointer _
  | .wireNameInvalid01 _ | .wireNameInvalid10 _ | .wireHeader _ | .wireQuestion _ | .wireRecord _
  | .wireMessage _ | .opcodeQuery | .opcodeIquery | .opcodeStatus | .rcodeNoerror | .rcodeFormerr
  | .rcodeServfail | .rcodeNxdomain | .rcodeNotimp | .rcodeRefused | .typeA | .typeNs | .typeMd
  | .typeMf | .typeCname | .typeSoa | .typeMb | .typeMg | .typeMr | .typeNull | .typeWks
  | .typePtr | .typeHinfo | .typeMinfo | .typeMx | .typeTxt | .typeAxfr | .typeMailb | .typeMaila
  | .typeAny | .classIn | .classCs | .classCh | .classHs | .classAny | .errTruncatedMessage
  | .errInvalidLabelEncoding | .errPointerLimitExceeded | .errUnknownEnumValue => true

end Sys2Proof
end

