-- ==== Sys2Proof/Decode.lean ====
section
/-! DEFINITION. The decoder of host transactions, total on any bytes and rejecting by name, and after
it the encoder. Command codes are those of 30_encoding.md R52; the words of the encoding rows are
those of R55, R58, R59, 40_enums.md R81 to R84 and 60_exceptions.md R186. How operands are carried
behind a command code is the model's own (R50 fixes nothing). DESIGN CHOICE, log 1. -/

namespace Sys2Proof

/-- Why a transaction is not an instruction. -/
inductive DecodeReject where
  /-- A command transaction whose code is not in the table of 30_encoding.md R52 (R51). -/
  | unassignedCode (code : Byte)
  /-- A transaction with no byte at all. -/
  | emptyTransaction
  /-- The bytes behind the code do not carry operand values, or some are left over. -/
  | badOperands
  /-- A wire-format word that is none of the opcode table's rows in its field. -/
  | noSuchRow
  deriving DecidableEq, Repr

/-! ## Operand carriage -/

/-- A parser of operand bytes: the value and the bytes left, or nothing. -/
abbrev Parse (α : Type) := List Byte → Option (α × List Byte)

def Parse.pure {α : Type} (a : α) : Parse α := fun bs => some (a, bs)

def Parse.bind {α β : Type} (p : Parse α) (f : α → Parse β) : Parse β := fun bs =>
  match p bs with
  | some (a, rest) => f a rest
  | none => none

def Parse.map {α β : Type} (f : α → β) (p : Parse α) : Parse β := p.bind fun a => Parse.pure (f a)

/-- One byte. -/
def Parse.byte : Parse Byte
  | [] => none
  | b :: bs => some (b, bs)

/-- A 16-bit value, two bytes in wire order. -/
def Parse.word16 : Parse Word16 :=
  Parse.byte.bind fun b0 => Parse.byte.bind fun b1 => Parse.pure (Sys2Proof.word16 b0 b1)

/-- A 32-bit value, four bytes in wire order. -/
def Parse.word32 : Parse Word32 :=
  Parse.byte.bind fun b0 => Parse.byte.bind fun b1 => Parse.byte.bind fun b2 =>
  Parse.byte.bind fun b3 => Parse.pure (Sys2Proof.word32 b0 b1 b2 b3)

/-- A value of `w ≤ 8` bits, the low bits of one byte whose other bits are 0. -/
def Parse.bits (w : Nat) : Parse (BitVec w) :=
  Parse.byte.bind fun b =>
    if b.toNat < 2 ^ w then Parse.pure (BitVec.ofNat w b.toNat) else fun _ => none

/-- One bit, a byte that is 0 or 1. -/
def Parse.bool : Parse Bool :=
  Parse.byte.bind fun b =>
    if b = 0 then Parse.pure false else if b = 1 then Parse.pure true else fun _ => none

/-- A member of an enumeration, a byte that is its place in the member list. -/
def Parse.member {M : Type} (members : List M) : Parse M :=
  Parse.byte.bind fun b =>
    match members[b.toNat]? with
    | some m => Parse.pure m
    | none => fun _ => none

/-- A sequence: before each element a byte 1, after the last a byte 0. `fuel` bounds the number of
elements. -/
def Parse.listUpTo {α : Type} (p : Parse α) : Nat → Parse (List α)
  | 0 => fun _ => none
  | fuel + 1 =>
    Parse.bool.bind fun more =>
      if more then p.bind fun a => (Parse.listUpTo p fuel).bind fun as => Parse.pure (a :: as)
      else Parse.pure []

/-- A sequence of any length; every element costs a byte, so the input's length is fuel enough. -/
def Parse.list {α : Type} (p : Parse α) : Parse (List α) := fun bs =>
  Parse.listUpTo p (bs.length + 1) bs

/-- A byte sequence of any length. -/
def Parse.bytes : Parse (List Byte) := Parse.list Parse.byte

/-- An unsigned number of any width: its base-256 digits, least significant first. -/
def Parse.nat : Parse Nat :=
  Parse.bytes.map fun ds => ds.foldr (fun d acc => d.toNat + 256 * acc) 0

def Parse.header : Parse Header :=
  Parse.word16.bind fun id => Parse.bool.bind fun qr => (Parse.member Opcode.all).bind fun opcode =>
  Parse.bool.bind fun aa => Parse.bool.bind fun tc => Parse.bool.bind fun rd =>
  Parse.bool.bind fun ra => (Parse.bits 3).bind fun z => (Parse.member Rcode.all).bind fun rcode =>
  Parse.word16.bind fun qd => Parse.word16.bind fun an => Parse.word16.bind fun ns =>
  Parse.word16.bind fun ar => Parse.pure
    { id := id, qr := qr, opcode := opcode, aa := aa, tc := tc, rd := rd, ra := ra, z := z,
      rcode := rcode, qdcount := qd, ancount := an, nscount := ns, arcount := ar }

def Parse.question : Parse Question :=
  Parse.bytes.bind fun n => (Parse.member RType.all).bind fun t =>
  (Parse.member RClass.all).bind fun c => Parse.pure { qname := n, qtype := t, qclass := c }

def Parse.record : Parse Record :=
  Parse.bytes.bind fun n => (Parse.member RType.all).bind fun t =>
  (Parse.member RClass.all).bind fun c => Parse.word32.bind fun ttl =>
  Parse.word16.bind fun len => Parse.bytes.bind fun data => Parse.pure
    { name := n, type := t, cls := c, ttl := ttl, rdlength := len, rdata := data }

def Parse.message : Parse Message :=
  Parse.header.bind fun h => (Parse.list Parse.question).bind fun qd =>
  (Parse.list Parse.record).bind fun an => (Parse.list Parse.record).bind fun ns =>
  (Parse.list Parse.record).bind fun ar => Parse.pure
    { hdr := h, qd := qd, an := an, ns := ns, ar := ar }

/-! ## The tables -/

/-- The operation set by command code (30_encoding.md R52): host actions, cursor, writer. -/
def commandTableLow : List (Byte × Parse Instr) :=
  [(0x01#8, Parse.pure .reset),
   (0x02#8, Parse.bytes.map .loadRx),
   (0x03#8, Parse.pure .clearTx),
   (0x10#8, Parse.pure .readU8),
   (0x11#8, Parse.pure .readU16),
   (0x12#8, Parse.pure .readU32),
   (0x13#8, Parse.word16.map .readBytes),
   (0x14#8, Parse.nat.map .setPosition),
   (0x15#8, Parse.pure .readName),
   (0x20#8, Parse.word16.map .writeU16),
   (0x21#8, Parse.word32.map .writeU32),
   (0x22#8, Parse.bytes.map .writeName)]

/-- The operation set by command code (30_encoding.md R52): enumerations, header, entries, message. -/
def commandTableHigh : List (Byte × Parse Instr) :=
  [(0x30#8, (Parse.bits 4).map .opcodeFrom),
   (0x31#8, (Parse.member Opcode.all).map .opcodeTo),
   (0x32#8, (Parse.bits 4).map .rcodeFrom),
   (0x33#8, (Parse.member Rcode.all).map .rcodeTo),
   (0x34#8, Parse.word16.map .typeFrom),
   (0x35#8, (Parse.member RType.all).map .typeTo),
   (0x36#8, Parse.word16.map .classFrom),
   (0x37#8, (Parse.member RClass.all).map .classTo),
   (0x40#8, Parse.header.map .hdrEnc),
   (0x41#8, Parse.pure .hdrDec),
   (0x50#8, Parse.question.map .qEnc),
   (0x51#8, Parse.pure .qDec),
   (0x52#8, Parse.record.map .rrEnc),
   (0x53#8, Parse.pure .rrDec),
   (0x60#8, Parse.message.map .msgEnc),
   (0x61#8, Parse.pure .msgDec),
   (0x62#8, Parse.word16.bind fun id => Parse.question.map (.buildRequest id))]

/-- The 29 operations of 30_encoding.md R52 by command code. -/
def commandTable : List (Byte × Parse Instr) := commandTableLow ++ commandTableHigh

/-- The two pseudo-operations, which have no command code; the numbers are the model's own
(log 11). -/
def pseudoTable : List (Byte × Parse Instr) :=
  [(0x00#8, Parse.message.map .serialize), (0x01#8, Parse.bytes.map .deserialize)]

/-- The four layout rows, which have no word of their own; the numbers are the model's own
(log 10). -/
def layoutTable : List (Byte × Parse Instr) :=
  [(0x00#8, Parse.header.map .wireHeader), (0x01#8, Parse.question.map .wireQuestion),
   (0x02#8, Parse.record.map .wireRecord), (0x03#8, Parse.message.map .wireMessage)]

/-- The parser a table gives for a code. -/
def lookupCode (table : List (Byte × Parse Instr)) (code : Byte) : Option (Parse Instr) :=
  (table.find? fun row => row.1 == code).map Prod.snd

/-- The row of an opcode member (40_enums.md R81). -/
def Opcode.row : Opcode → Instr
  | .query => .opcodeQuery | .iquery => .opcodeIquery | .status => .opcodeStatus

/-- The row of a response-code member (40_enums.md R82). -/
def Rcode.row : Rcode → Instr
  | .noerror => .rcodeNoerror | .formerr => .rcodeFormerr | .servfail => .rcodeServfail
  | .nxdomain => .rcodeNxdomain | .notimp => .rcodeNotimp | .refused => .rcodeRefused

/-- The row of a type member (40_enums.md R83). -/
def RType.row : RType → Instr
  | .a => .typeA | .ns => .typeNs | .md => .typeMd | .mf => .typeMf | .cname => .typeCname
  | .soa => .typeSoa | .mb => .typeMb | .mg => .typeMg | .mr => .typeMr | .null => .typeNull
  | .wks => .typeWks | .ptr => .typePtr | .hinfo => .typeHinfo | .minfo => .typeMinfo
  | .mx => .typeMx | .txt => .typeTxt | .axfr => .typeAxfr | .mailb => .typeMailb
  | .maila => .typeMaila | .any => .typeAny

/-- The row of a class member (40_enums.md R84). -/
def RClass.row : RClass → Instr
  | .inet => .classIn | .cs => .classCs | .ch => .classCh | .hs => .classHs | .any => .classAny

/-- `ERR_CODE`: the numeric code of a fault kind (60_exceptions.md R186). -/
def FaultKind.code : FaultKind → BitVec 3
  | .truncatedMessage => 1 | .invalidLabelEncoding => 2 | .pointerLimitExceeded => 3
  | .unknownEnumValue => 4

/-- The four kinds in the order of R186. -/
def FaultKind.all : List FaultKind :=
  [.truncatedMessage, .invalidLabelEncoding, .pointerLimitExceeded, .unknownEnumValue]

/-- The row of a fault kind (60_exceptions.md R186). -/
def FaultKind.row : FaultKind → Instr
  | .truncatedMessage => .errTruncatedMessage | .invalidLabelEncoding => .errInvalidLabelEncoding
  | .pointerLimitExceeded => .errPointerLimitExceeded | .unknownEnumValue => .errUnknownEnumValue

/-! ## Name elements -/

/-- The class of a name element's first byte by its top two bits (30_encoding.md R58): `00` with the
other six bits the length, `11` with the six high bits of the offset, `01` and `10` undefined. -/
inductive FirstByte where
  | terminator
  | label (len : BitVec 6)
  | pointer (high : BitVec 6)
  | invalid01 (x : BitVec 6)
  | invalid10 (x : BitVec 6)
  deriving DecidableEq, Repr

/-- The classification of 30_encoding.md R58. -/
def firstByte (b : Byte) : FirstByte :=
  match (b.extractLsb' 6 2).toNat with
  | 0 => if b = 0 then .terminator else .label (b.extractLsb' 0 6)
  | 1 => .invalid01 (b.extractLsb' 0 6)
  | 2 => .invalid10 (b.extractLsb' 0 6)
  | _ => .pointer (b.extractLsb' 0 6)

/-- A pointer's offset: `(b[5:0] << 8) | b2` (30_encoding.md R59). -/
def pointerOffset (high : BitVec 6) (b2 : Byte) : BitVec 14 :=
  high.setWidth 14 <<< 8 ||| b2.setWidth 14

/-- The first bytes of a name element's word (30_encoding.md R58, R59). -/
def parseNameElement : Parse Instr :=
  Parse.byte.bind fun b =>
    match firstByte b with
    | .terminator => Parse.pure .wireNameEnd
    | .label len => Parse.pure (.wireNameLabel len)
    | .pointer high => Parse.byte.map fun b2 => .wireNamePointer (pointerOffset high b2)
    | .invalid01 x => Parse.pure (.wireNameInvalid01 x)
    | .invalid10 x => Parse.pure (.wireNameInvalid10 x)

/-! ## The decoder -/

/-- A field word and the row its number stands for there, if there is one. -/
def parseRow {α : Type} (p : Parse α) (row : α → Option Instr) : Parse Instr :=
  p.bind fun a =>
    match row a with
    | some i => Parse.pure i
    | none => fun _ => none

/-- The parser of a wire-format word in its field. -/
def parseWord : Format → Parse Instr
  | .flags => Parse.word16.map .wireFlags
  | .nameElement => parseNameElement
  | .opcodeField => parseRow (Parse.bits 4) fun o => (opcodeOf o).map Opcode.row
  | .rcodeField => parseRow (Parse.bits 4) fun o => (rcodeOf o).map Rcode.row
  | .typeField => parseRow Parse.word16 fun o => (typeOf o).map RType.row
  | .classField => parseRow Parse.word16 fun o => (classOf o).map RClass.row
  | .errorCode => parseRow (Parse.bits 3) fun c =>
      (enumFrom FaultKind.all FaultKind.code c).map FaultKind.row
  | .command | .pseudo | .layout => fun _ => none

/-- A code and its operands by a table; `missing` names a code the table does not hold. -/
def decodeCoded (table : List (Byte × Parse Instr)) (missing : Byte → DecodeReject) :
    List Byte → Except DecodeReject (Instr × List Byte)
  | [] => .error .emptyTransaction
  | code :: rest =>
    match lookupCode table code with
    | none => .error (missing code)
    | some p =>
      match p rest with
      | some r => .ok r
      | none => .error .badOperands

/-- The instruction at the head of the bytes, and the bytes after it. -/
def decodeHead (f : Format) (bs : List Byte) : Except DecodeReject (Instr × List Byte) :=
  match f with
  | .command => decodeCoded commandTable .unassignedCode bs
  | .pseudo => decodeCoded pseudoTable (fun _ => .noSuchRow) bs
  | .layout => decodeCoded layoutTable (fun _ => .noSuchRow) bs
  | .flags | .nameElement | .opcodeField | .rcodeField | .typeField | .classField | .errorCode =>
    match bs with
    | [] => .error .emptyTransaction
    | _ :: _ =>
      match parseWord f bs with
      | some r => .ok r
      | none => .error .noSuchRow

/-- The instruction a transaction carries: all of its bytes, no more and no fewer. -/
def decode (t : Transaction) : Except DecodeReject Instr :=
  match decodeHead t.format t.bytes with
  | .error r => .error r
  | .ok (i, []) => .ok i
  | .ok (_, _ :: _) => .error .badOperands

/-! ## The encoder -/

def encBool (b : Bool) : List Byte := [if b then 1#8 else 0#8]

/-- The carriage of a value of `w ≤ 8` bits. -/
def encBits {w : Nat} (v : BitVec w) : List Byte := [BitVec.ofNat 8 v.toNat]

/-- The carriage of a member: its place in the member list. -/
def encMember {M : Type} [DecidableEq M] (members : List M) (m : M) : List Byte :=
  [BitVec.ofNat 8 (members.idxOf m)]

/-- The carriage of a sequence: a byte 1 before each element, a byte 0 after the last. -/
def encList {α : Type} (enc : α → List Byte) : List α → List Byte
  | [] => [0#8]
  | a :: as => 1#8 :: (enc a ++ encList enc as)

def encBytes (s : List Byte) : List Byte := encList (fun b => [b]) s

/-- The base-256 digits of a number, least significant first; `fuel` bounds how many. -/
def natDigits : Nat → Nat → List Byte
  | 0, _ => []
  | fuel + 1, p => if p = 0 then [] else BitVec.ofNat 8 p :: natDigits fuel (p / 256)

def encNat (p : Nat) : List Byte := encBytes (natDigits p p)

def encHeader (h : Header) : List Byte :=
  be16 h.id ++ encBool h.qr ++ encMember Opcode.all h.opcode ++ encBool h.aa ++ encBool h.tc ++
  encBool h.rd ++ encBool h.ra ++ encBits h.z ++ encMember Rcode.all h.rcode ++
  be16 h.qdcount ++ be16 h.ancount ++ be16 h.nscount ++ be16 h.arcount

def encQuestion (q : Question) : List Byte :=
  encBytes q.qname ++ encMember RType.all q.qtype ++ encMember RClass.all q.qclass

def encRecord (r : Record) : List Byte :=
  encBytes r.name ++ encMember RType.all r.type ++ encMember RClass.all r.cls ++ be32 r.ttl ++
  be16 r.rdlength ++ encBytes r.rdata

def encMessage (m : Message) : List Byte :=
  encHeader m.hdr ++ encList encQuestion m.qd ++ encList encRecord m.an ++
  encList encRecord m.ns ++ encList encRecord m.ar

/-- A command transaction: the code, then the operands (30_encoding.md R50). -/
def command (code : Byte) (operands : List Byte) : Transaction :=
  { format := .command, bytes := code :: operands }

/-- A name element's first byte with its two class bits (30_encoding.md R58). -/
def elementByte (top : BitVec 2) (low : BitVec 6) : Byte := top ++ low

/-- The transaction that carries an instruction. -/
def encode : Instr → Transaction
  | .reset => command 0x01#8 []
  | .loadRx data => command 0x02#8 (encBytes data)
  | .clearTx => command 0x03#8 []
  | .readU8 => command 0x10#8 []
  | .readU16 => command 0x11#8 []
  | .readU32 => command 0x12#8 []
  | .readBytes n => command 0x13#8 (be16 n)
  | .setPosition p => command 0x14#8 (encNat p)
  | .readName => command 0x15#8 []
  | .writeU16 v => command 0x20#8 (be16 v)
  | .writeU32 v => command 0x21#8 (be32 v)
  | .writeName s => command 0x22#8 (encBytes s)
  | .opcodeFrom o => command 0x30#8 (encBits o)
  | .opcodeTo m => command 0x31#8 (encMember Opcode.all m)
  | .rcodeFrom o => command 0x32#8 (encBits o)
  | .rcodeTo m => command 0x33#8 (encMember Rcode.all m)
  | .typeFrom o => command 0x34#8 (be16 o)
  | .typeTo m => command 0x35#8 (encMember RType.all m)
  | .classFrom o => command 0x36#8 (be16 o)
  | .classTo m => command 0x37#8 (encMember RClass.all m)
  | .hdrEnc h => command 0x40#8 (encHeader h)
  | .hdrDec => command 0x41#8 []
  | .qEnc q => command 0x50#8 (encQuestion q)
  | .qDec => command 0x51#8 []
  | .rrEnc r => command 0x52#8 (encRecord r)
  | .rrDec => command 0x53#8 []
  | .msgEnc m => command 0x60#8 (encMessage m)
  | .msgDec => command 0x61#8 []
  | .buildRequest id q => command 0x62#8 (be16 id ++ encQuestion q)
  | .serialize m => ⟨.pseudo, 0x00#8 :: encMessage m⟩
  | .deserialize data => ⟨.pseudo, 0x01#8 :: encBytes data⟩
  | .wireFlags f => ⟨.flags, be16 f⟩
  | .wireNameEnd => ⟨.nameElement, [0x00#8]⟩
  | .wireNameLabel len => ⟨.nameElement, [elementByte 0b00#2 len]⟩
  | .wireNamePointer off =>
    ⟨.nameElement, [elementByte 0b11#2 (off.extractLsb' 8 6), off.extractLsb' 0 8]⟩
  | .wireNameInvalid01 x => ⟨.nameElement, [elementByte 0b01#2 x]⟩
  | .wireNameInvalid10 x => ⟨.nameElement, [elementByte 0b10#2 x]⟩
  | .wireHeader h => ⟨.layout, 0x00#8 :: encHeader h⟩
  | .wireQuestion q => ⟨.layout, 0x01#8 :: encQuestion q⟩
  | .wireRecord r => ⟨.layout, 0x02#8 :: encRecord r⟩
  | .wireMessage m => ⟨.layout, 0x03#8 :: encMessage m⟩
  | .opcodeQuery => ⟨.opcodeField, encBits (opcodeTab .query)⟩
  | .opcodeIquery => ⟨.opcodeField, encBits (opcodeTab .iquery)⟩
  | .opcodeStatus => ⟨.opcodeField, encBits (opcodeTab .status)⟩
  | .rcodeNoerror => ⟨.rcodeField, encBits (rcodeTab .noerror)⟩
  | .rcodeFormerr => ⟨.rcodeField, encBits (rcodeTab .formerr)⟩
  | .rcodeServfail => ⟨.rcodeField, encBits (rcodeTab .servfail)⟩
  | .rcodeNxdomain => ⟨.rcodeField, encBits (rcodeTab .nxdomain)⟩
  | .rcodeNotimp => ⟨.rcodeField, encBits (rcodeTab .notimp)⟩
  | .rcodeRefused => ⟨.rcodeField, encBits (rcodeTab .refused)⟩
  | .typeA => ⟨.typeField, be16 (typeTab .a)⟩
  | .typeNs => ⟨.typeField, be16 (typeTab .ns)⟩
  | .typeMd => ⟨.typeField, be16 (typeTab .md)⟩
  | .typeMf => ⟨.typeField, be16 (typeTab .mf)⟩
  | .typeCname => ⟨.typeField, be16 (typeTab .cname)⟩
  | .typeSoa => ⟨.typeField, be16 (typeTab .soa)⟩
  | .typeMb => ⟨.typeField, be16 (typeTab .mb)⟩
  | .typeMg => ⟨.typeField, be16 (typeTab .mg)⟩
  | .typeMr => ⟨.typeField, be16 (typeTab .mr)⟩
  | .typeNull => ⟨.typeField, be16 (typeTab .null)⟩
  | .typeWks => ⟨.typeField, be16 (typeTab .wks)⟩
  | .typePtr => ⟨.typeField, be16 (typeTab .ptr)⟩
  | .typeHinfo => ⟨.typeField, be16 (typeTab .hinfo)⟩
  | .typeMinfo => ⟨.typeField, be16 (typeTab .minfo)⟩
  | .typeMx => ⟨.typeField, be16 (typeTab .mx)⟩
  | .typeTxt => ⟨.typeField, be16 (typeTab .txt)⟩
  | .typeAxfr => ⟨.typeField, be16 (typeTab .axfr)⟩
  | .typeMailb => ⟨.typeField, be16 (typeTab .mailb)⟩
  | .typeMaila => ⟨.typeField, be16 (typeTab .maila)⟩
  | .typeAny => ⟨.typeField, be16 (typeTab .any)⟩
  | .classIn => ⟨.classField, be16 (classTab .inet)⟩
  | .classCs => ⟨.classField, be16 (classTab .cs)⟩
  | .classCh => ⟨.classField, be16 (classTab .ch)⟩
  | .classHs => ⟨.classField, be16 (classTab .hs)⟩
  | .classAny => ⟨.classField, be16 (classTab .any)⟩
  | .errTruncatedMessage => ⟨.errorCode, encBits FaultKind.truncatedMessage.code⟩
  | .errInvalidLabelEncoding => ⟨.errorCode, encBits FaultKind.invalidLabelEncoding.code⟩
  | .errPointerLimitExceeded => ⟨.errorCode, encBits FaultKind.pointerLimitExceeded.code⟩
  | .errUnknownEnumValue => ⟨.errorCode, encBits FaultKind.unknownEnumValue.code⟩

/-! ## The opcode table's words

A table word has only a width and a number, and the table's formats share numbers (0x01 is RESET,
OPCODE.IQUERY and ERR.TruncatedMessage), so the formats are tried in one fixed order, commands
first. DESIGN CHOICE, log 13. -/

/-- The formats an opcode-table word of this width is tried in. -/
def tableFormats (nbits : Nat) : List Format :=
  if nbits ≤ 8 then [.command, .rcodeField, .nameElement] else [.typeField, .nameElement, .flags]

/-- The word's bytes as the block lays them out: a byte, or a 16-bit word most significant byte
first (20_memory.md R33). -/
def tableBytes (nbits w : Nat) : List Byte :=
  if nbits ≤ 8 then [BitVec.ofNat 8 w] else [BitVec.ofNat 8 (w / 256), BitVec.ofNat 8 w]

/-- The word in one format, followed by as many zero operand bytes as its instruction takes; none
where the format has no such word or reads only a part of it. -/
def tableTransactionIn (f : Format) (bs : List Byte) : Option Transaction :=
  let padded := bs ++ List.replicate 64 0#8
  match decodeHead f padded with
  | .ok (_, rest) =>
    let used := padded.length - rest.length
    if used < bs.length then none else some ⟨f, padded.take used⟩
  | .error _ => none

/-- The transaction an opcode-table word stands for; a word no format knows stays a bare command. -/
def tableTransaction (nbits w : Nat) : Transaction :=
  (((tableFormats nbits).filterMap fun f => tableTransactionIn f (tableBytes nbits w)).head?).getD
    ⟨.command, tableBytes nbits w⟩

/-- The instruction the decoder reads from an opcode-table word (bits numbered as
spec/opcode_table.json numbers them, operand bits zero). -/
def decodeTableWord (nbits w : Nat) : Option Instr :=
  match decode (tableTransaction nbits w) with
  | .ok i => some i
  | .error _ => none

end Sys2Proof
end

