-- ==== Sys2Proof/Config.lean ====
section
/-! DEFINITION. The parameters of the block (00_scope.md R4) and the one free value of the model.
The four enumeration tables, configuration too by R4, are `Config.tables` in `Machine/Enums.lean`. -/

namespace Sys2Proof

/-- How much the capacity of RX exceeds the 512 bytes every block has. The spec leaves it open (R4;
92_eei_decisions.md D4, 93 U17), so it has no body: what is proved holds whatever it is. Log 5. -/
opaque Config.bufCapBeyond512 : Nat

/-- `BUF_CAP`, the capacity of RX in bytes: a parameter of which `BUF_CAP >= 512` is known and nothing
else (R4, 10_state.md R12). Log 5. -/
def Config.bufCap : Nat := Config.bufCapBeyond512 + 512

/-- `POINTER_LIMIT`, the greatest number of compression pointers one READ_NAME follows (R4). Log 6. -/
def Config.pointerLimit : Nat := 5

/-- FREE VALUE: what a byte of RX that nothing has written holds. The spec leaves it unspecified
and unobservable (10_state.md R11, R18; 93 U4); no state that meets `State.Inv` ever reads it.
DESIGN CHOICE, log 7. -/
opaque Config.rxUnspecified : Nat → Byte

end Sys2Proof
end

