-- ==== Sys2Proof/Machine/State.lean ====
section
/-! DEFINITION. The state of the block (10_state.md R11, R17), its answer to the host
(30_encoding.md R50), the host program still to be issued, and the state after reset
(70_reset_and_hazards.md R210). State is plain data. -/

namespace Sys2Proof.Machine

/-- A memory: address and byte pairs, addresses strictly rising. An address that is not listed
holds no byte that anything has written (`Memory.read` in Ops.lean, log 7). -/
abbrev Memory := List Host.Cell

/-- `RSTATUS`: `OK` or a recorded fault (10_state.md R16). -/
inductive RStatus where
  | ok
  | fault (f : FaultInfo)
  deriving DecidableEq, Repr

/-- The result values of an operation (30_encoding.md R52), and of the encoding rows (log 10). -/
inductive Result where
  | none
  | u8 (v : Byte)
  | u16 (v : Word16)
  | u32 (v : Word32)
  | bytes (s : List Byte)
  | name (s : Name)
  | opcode (m : Opcode)
  | rcode (m : Rcode)
  | type (m : RType)
  | cls (m : RClass)
  | ordinal4 (o : BitVec 4)
  | ordinal16 (o : Word16)
  | header (h : Header)
  | question (q : Question)
  | record (r : Record)
  | message (m : Message)
  | flags (f : FlagFields)
  | element (e : NameElement)
  | kind (k : FaultKind)
  deriving DecidableEq, Repr

/-- The one response to an operation: `DONE` with its results, `FAULT` with an error, or `REFUSED`
(30_encoding.md R50). -/
inductive Response where
  | done (r : Result)
  | fault (f : FaultInfo)
  | refused
  deriving DecidableEq, Repr

/-- The whole state. The first eight fields are the spec's; `answer` and `host` are the model's
own (log 2, log 3). `WLEN` is derived: `State.wlen`. -/
structure State where
  /-- `RX`, byte memory of `BUF_CAP` bytes (10_state.md R12). -/
  rx      : Memory
  /-- `SIZE`, the logical size (R14). -/
  size    : Nat
  /-- `RPOS`, the read cursor (R13). -/
  rpos    : Nat
  /-- `RSTATUS`, the sticky fault record (R16). -/
  rstatus : RStatus
  /-- `TX`, the output (R15). -/
  tx      : List Byte
  /-- `HOPS`, pointers followed in the running READ_NAME (R17). -/
  hops    : Nat
  /-- `SAVED`, the positions to come back to, innermost first (R17). -/
  saved   : List Nat
  /-- The last answer to the host; none before the first operation has been answered. -/
  answer  : Option Response
  /-- The host program: the transactions not yet issued, next first (00_scope.md R9). -/
  host    : List Transaction
  deriving DecidableEq, Repr

/-- `WLEN = |TX|` (10_state.md R11). -/
def State.wlen (s : State) : Nat := s.tx.length

/-- Reasons a step stops with a fault: there are none. The spec's four fault kinds do not stop the
machine; they are answers (`Response.fault`, 60_exceptions.md R188), after which it goes on. -/
inductive Fault where
  deriving DecidableEq, Repr

/-- Reasons a step has no meaning. The block's own `REFUSED` is not one of them: it is an answer
(`Response.refused`, 60_exceptions.md R197, log 4). -/
inductive Refusal where
  /-- Raised by a row of `exec` that has no meaning yet: no row does. Safe. -/
  | notModelled (mnemonic : String)
  /-- Raised by `step` when a transaction's bytes do not carry an instruction of its format: no
  bytes, operand bytes that form no operand values, or a wire word that is no row of the table. The
  spec fixes no carriage of operands (30_encoding.md R50). Safe: nothing is claimed (log 12). -/
  | malformedTransaction
  deriving DecidableEq, Repr

/-- The machine right after reset (70_reset_and_hazards.md R210): `SIZE = 0`, `RPOS = 0`,
`RSTATUS = OK`, `TX` empty, no READ_NAME in progress, no byte of RX written; no answer given and no
host program (DESIGN CHOICE, log 2, log 3). -/
def State.reset : State :=
  { rx := [], size := 0, rpos := 0, rstatus := .ok, tx := [], hops := 0, saved := [],
    answer := none, host := [] }

end Sys2Proof.Machine
end

