-- ==== Sys2Proof/Machine/Ops.lean ====
section
/-! DEFINITION. The named operations over state and memory: the RX memory, the bodies of read-side
operations, the gate, taking a fault, refusing, appending to TX, answering. -/

namespace Sys2Proof.Machine

/-! ## RX memory (10_state.md R12, 20_memory.md R30) -/

/-- The byte listed at an address; none where nothing has been written (log 7). -/
def Memory.read (m : Memory) (a : Nat) : Option Byte :=
  match m with
  | [] => none
  | (k, v) :: rest => if k = a then some v else Memory.read rest a

/-- The memory with one byte written; keeps the addresses strictly rising. -/
def Memory.write (m : Memory) (a : Nat) (b : Byte) : Memory :=
  match m with
  | [] => [(a, b)]
  | (k, v) :: rest =>
    if a < k then (a, b) :: (k, v) :: rest
    else if a = k then (a, b) :: rest
    else (k, v) :: Memory.write rest a b

/-- `RX[a + i] <- data[i]` for every `i` (10_state.md R20). -/
def Memory.writeBytes (m : Memory) (a : Nat) (data : List Byte) : Memory :=
  match data with
  | [] => m
  | b :: bs => Memory.writeBytes (Memory.write m a b) (a + 1) bs

/-- The canonical form: addresses strictly rising. Every listed entry differs from what an unlisted
address reads as, since that is no value. -/
def Memory.wf (m : Memory) : Bool :=
  match m with
  | [] => true
  | [_] => true
  | (a, _) :: (b, v) :: rest => decide (a < b) && Memory.wf ((b, v) :: rest)

/-! ## Bodies of read-side operations

A body reads the buffer and moves the cursor; it ends in a value or in a raised fault, and in both
cases in a cursor (60_exceptions.md R188). That it cannot touch RX, SIZE or TX is in its type. -/

/-- What a body reads: RX and SIZE. -/
structure Buf where
  cells : Memory
  size  : Nat
  deriving DecidableEq, Repr

/-- What a body moves: RPOS, and READ_NAME's HOPS and SAVED (10_state.md R13, R17). -/
structure Cursor where
  rpos  : Nat
  hops  : Nat
  saved : List Nat
  deriving DecidableEq, Repr

/-- The end of a body. -/
inductive Ran (α : Type) where
  | ok (a : α) (c : Cursor)
  | raised (f : FaultInfo) (c : Cursor)
  deriving DecidableEq, Repr

/-- A body. -/
abbrev Body (α : Type) := Buf → Cursor → Ran α

def Body.pure {α : Type} (a : α) : Body α := fun _ c => .ok a c

/-- `raise K(info)` (00_scope.md R8). -/
def Body.raise {α : Type} (f : FaultInfo) : Body α := fun _ c => .raised f c

/-- `call`: a fault raised inside passes outward unchanged (60_exceptions.md R190). -/
def Body.bind {α β : Type} (x : Body α) (f : α → Body β) : Body β := fun b c =>
  match x b c with
  | .ok a c' => f a b c'
  | .raised e c' => .raised e c'

def Body.map {α β : Type} (f : α → β) (x : Body α) : Body β := Body.bind x fun a => Body.pure (f a)

/-- A conversion called inside a body: its member, or its fault raised (40_enums.md R80). -/
def Body.ofExcept {α : Type} (v : Except FaultInfo α) : Body α :=
  match v with
  | .ok a => Body.pure a
  | .error f => Body.raise f

/-- `repeat n times`, collecting the values in order. -/
def Body.times {α : Type} (x : Body α) : Nat → Body (List α)
  | 0 => Body.pure []
  | n + 1 => Body.bind x fun a => Body.bind (Body.times x n) fun as => Body.pure (a :: as)

/-- READ_U8's body (41_cursor_read.md R101). A position is read only below SIZE (20_memory.md R36);
`RPOS = SIZE` raises. A byte that nothing has written, which no state meeting `State.Inv` has below
SIZE, reads as the free value (log 7, log 15). -/
def readU8 : Body Byte := fun b c =>
  if c.rpos < b.size then
    .ok ((Memory.read b.cells c.rpos).getD (Config.rxUnspecified c.rpos)) { c with rpos := c.rpos + 1 }
  else .raised .truncatedMessage c

/-- READ_U16's body (41_cursor_read.md R102). -/
def readU16 : Body Word16 :=
  Body.bind readU8 fun b0 => Body.bind readU8 fun b1 => Body.pure (word16 b0 b1)

/-- READ_U32's body (41_cursor_read.md R103). -/
def readU32 : Body Word32 :=
  Body.bind readU8 fun b0 => Body.bind readU8 fun b1 => Body.bind readU8 fun b2 =>
  Body.bind readU8 fun b3 => Body.pure (word32 b0 b1 b2 b3)

/-- READ_BYTES's body: "exactly `n` bytes via repeated `read_u8`" (41_cursor_read.md R104). -/
def readBytes (n : Nat) : Body (List Byte) := Body.times readU8 n

/-- SET_POSITION's body (41_cursor_read.md R105). -/
def setPosition (p : Nat) : Body Unit := fun b c =>
  if p > b.size then .raised .truncatedMessage c else .ok () { c with rpos := p }

/-! ## State operations -/

/-- What the read side of a state lets a body read. -/
def State.buf (s : State) : Buf := { cells := s.rx, size := s.size }

/-- What the read side of a state lets a body move. -/
def State.cursor (s : State) : Cursor := { rpos := s.rpos, hops := s.hops, saved := s.saved }

def State.withCursor (s : State) (c : Cursor) : State :=
  { s with rpos := c.rpos, hops := c.hops, saved := c.saved }

/-- The answer to the host (30_encoding.md R50). -/
def State.respond (s : State) (r : Response) : State := { s with answer := some r }

/-- TAKING A FAULT, for a read-side operation (60_exceptions.md R188): `RSTATUS` records it and the
answer is `FAULT`. There is no vector, no saved address and no mode change; what returns the record
to `OK` is LOAD_RX and RESET alone (R192), there is no return operation. -/
def State.takeFault (s : State) (f : FaultInfo) : State :=
  { s with rstatus := .fault f, answer := some (.fault f) }

/-- `refuse`: the state is left exactly as it was and the answer is `REFUSED` (60_exceptions.md
R197). -/
def State.refuse (s : State) : State := s.respond .refused

/-- `TxAppend` (00_scope.md R8). -/
def State.appendTx (s : State) (bs : List Byte) : State := { s with tx := s.tx ++ bs }

/-- The gate of every read-side operation (41_cursor_read.md R100). -/
def readSide (body : Body Result) (s : State) : Host.Outcome State Fault Refusal :=
  match s.rstatus with
  | .fault f => .next (s.respond (.fault f))
  | .ok =>
    match body s.buf s.cursor with
    | .ok r c => .next ((s.withCursor c).respond (.done r))
    | .raised f c => .next ((s.withCursor c).takeFault f)

/-- A write-side operation appends its whole output, or is refused and appends nothing
(43_writer.md R125). -/
def writeSide (output : Option (List Byte)) (s : State) : Host.Outcome State Fault Refusal :=
  match output with
  | some bs => .next ((s.appendTx bs).respond (.done .none))
  | none => .next s.refuse

/-- A pure operation answers and changes no architectural state; a fault it raises is reported in
the answer only (40_enums.md R80). -/
def pureSide {α : Type} (result : α → Result) (v : Except FaultInfo α) (s : State) :
    Host.Outcome State Fault Refusal :=
  match v with
  | .ok a => .next (s.respond (.done (result a)))
  | .error f => .next (s.respond (.fault f))

/-- A pure operation that gives a value or is refused (46_message.md R171, 45_question_record.md
R153). -/
def pureOrRefuse (output : Option Result) (s : State) : Host.Outcome State Fault Refusal :=
  match output with
  | some r => .next (s.respond (.done r))
  | none => .next s.refuse

end Sys2Proof.Machine
end

