-- ==== Sys2Proof/Machine/Conversions.lean ====
section
/-! DEFINITION. The eight conversions (40_enums.md R85 to R92): pure, not gated by RSTATUS, a fault
reported in the answer only (R80). -/

namespace Sys2Proof.Machine

/-- `OPCODE_FROM o -> m` (R85). -/
def execOpcodeFrom (o : BitVec 4) (s : State) : Host.Outcome State Fault Refusal :=
  pureSide .opcode (opcodeFrom o) s

/-- `OPCODE_TO m -> o` (R86). -/
def execOpcodeTo (m : Opcode) (s : State) : Host.Outcome State Fault Refusal :=
  pureSide .ordinal4 (.ok (opcodeTab m)) s

/-- `RCODE_FROM o -> m` (R87). -/
def execRcodeFrom (o : BitVec 4) (s : State) : Host.Outcome State Fault Refusal :=
  pureSide .rcode (rcodeFrom o) s

/-- `RCODE_TO m -> o` (R88). -/
def execRcodeTo (m : Rcode) (s : State) : Host.Outcome State Fault Refusal :=
  pureSide .ordinal4 (.ok (rcodeTab m)) s

/-- `TYPE_FROM o -> m` (R89). -/
def execTypeFrom (o : Word16) (s : State) : Host.Outcome State Fault Refusal :=
  pureSide .type (typeFrom o) s

/-- `TYPE_TO m -> o` (R90). -/
def execTypeTo (m : RType) (s : State) : Host.Outcome State Fault Refusal :=
  pureSide .ordinal16 (.ok (typeTab m)) s

/-- `CLASS_FROM o -> m` (R91). -/
def execClassFrom (o : Word16) (s : State) : Host.Outcome State Fault Refusal :=
  pureSide .cls (classFrom o) s

/-- `CLASS_TO m -> o` (R92). -/
def execClassTo (m : RClass) (s : State) : Host.Outcome State Fault Refusal :=
  pureSide .ordinal16 (.ok (classTab m)) s

end Sys2Proof.Machine
end

