-- ==== Sys2Proof/Machine/CursorReads.lean ====
section
/-! DEFINITION. READ_U8, READ_U16, READ_U32, READ_BYTES, SET_POSITION (41_cursor_read.md). -/

namespace Sys2Proof.Machine

/-- `READ_U8 -> v` (R101). -/
def execReadU8 (s : State) : Host.Outcome State Fault Refusal := readSide (readU8.map .u8) s

/-- `READ_U16 -> v` (R102). -/
def execReadU16 (s : State) : Host.Outcome State Fault Refusal := readSide (readU16.map .u16) s

/-- `READ_U32 -> v` (R103). -/
def execReadU32 (s : State) : Host.Outcome State Fault Refusal := readSide (readU32.map .u32) s

/-- `READ_BYTES n -> s` (R104). -/
def execReadBytes (n : Word16) (s : State) : Host.Outcome State Fault Refusal :=
  readSide ((readBytes n.toNat).map .bytes) s

/-- `SET_POSITION p` (R105). -/
def execSetPosition (p : Nat) (s : State) : Host.Outcome State Fault Refusal :=
  readSide ((setPosition p).map fun _ => .none) s

end Sys2Proof.Machine
end

