-- ==== Sys2Proof/Machine/NameDecode.lean ====
section
/-! DEFINITION. READ_NAME, the compressed-name decoder (42_name_decode.md). HOPS and SAVED are the
transient registers of 10_state.md R17: `HOPS` is the argument `h` of R111's `NAME_AT_DEPTH`, and
the top of `SAVED` the local `saved` of the innermost running one. -/

namespace Sys2Proof.Machine

/-- The elements of one level, read in order up to its terminator or pointer: the labels, and the
pointer's offset if it ended in one (R111, R112, R116). `fuel` bounds the number of elements; each
takes at least one byte, so `SIZE - RPOS + 1` never runs out (R119, log 19). -/
def nameElements : Nat → Body (List (List Byte) × Option (BitVec 14))
  | 0 => Body.raise .truncatedMessage
  | fuel + 1 =>
    Body.bind readU8 fun b =>
      match firstByte b with
      | .terminator => Body.pure ([], none)
      | .label len =>
        Body.bind (readBytes len.toNat) fun lab =>
        Body.bind (nameElements fuel) fun rest => Body.pure (lab :: rest.1, rest.2)
      | .pointer high => Body.bind readU8 fun b2 => Body.pure ([], some (pointerOffset high b2))
      | .invalid01 _ | .invalid10 _ => Body.raise .invalidLabelEncoding

/-- `RPOS <- saved`, and the level's entry of SAVED and HOPS undone (R114). -/
def Cursor.restore (c : Cursor) : Cursor :=
  match c.saved with
  | p :: rest => { rpos := p, hops := c.hops - 1, saved := rest }
  | [] => c

/-- Following a pointer: the hop check, the jump, the name at the target, and the restore on
success and on fault alike (R111, R113 to R115). -/
def followPointer (off : BitVec 14) (target : Body (List (List Byte))) : Body (List (List Byte)) :=
  fun b c =>
    if c.hops = Config.pointerLimit then .raised .pointerLimitExceeded c
    else
      match setPosition off.toNat b c with
      | .raised f c1 => .raised f c1
      | .ok _ c1 =>
        match target b { c1 with hops := c.hops + 1, saved := c.rpos :: c.saved } with
        | .ok rest c2 => .ok rest c2.restore
        | .raised f c2 => .raised f c2.restore

/-- `NAME_AT_DEPTH` (R111). `levels` bounds the depth; `POINTER_LIMIT + 1` never runs out, since the
hop check stops first (R115, R119, log 19). -/
def nameAtDepth : Nat → Body (List (List Byte))
  | 0 => Body.raise .pointerLimitExceeded
  | levels + 1 => fun b c =>
    (Body.bind (nameElements (b.size - c.rpos + 1)) fun level =>
      match level.2 with
      | none => Body.pure level.1
      | some off =>
        Body.bind (followPointer off (nameAtDepth levels)) fun rest =>
          Body.pure (level.1 ++ rest)) b c

/-- READ_NAME's body: HOPS and SAVED start empty, and the result is the join of all labels read
(R111, R117; 10_state.md R17). -/
def readName : Body Name := fun b c =>
  ((nameAtDepth (Config.pointerLimit + 1)).map (join dot)) b { c with hops := 0, saved := [] }

/-- `READ_NAME -> s` (R111). -/
def execReadName (s : State) : Host.Outcome State Fault Refusal := readSide (readName.map .name) s

end Sys2Proof.Machine
end

