-- ==== Sys2Proof/Machine/Flags.lean ====
section
/-! DEFINITION. The flags word of the header (30_encoding.md R55, R56) and the numeric form of
RSTATUS (10_state.md R16, 60_exceptions.md R186). The block has no other flags. -/

namespace Sys2Proof.Machine

/-- One bit as a 16-bit value. -/
def bit16 (b : Bool) : Word16 := (BitVec.ofBool b).setWidth 16

/-- `pack` of R56: `F = (QR << 15) | (opc << 11) | (AA << 10) | (TC << 9) | (RD << 8) | (RA << 7) |
(Z << 4) | rc`. -/
def packFlags (f : FlagFields) : Word16 :=
  bit16 f.qr <<< 15 ||| (opcodeTab f.opcode).setWidth 16 <<< 11 ||| bit16 f.aa <<< 10 |||
  bit16 f.tc <<< 9 ||| bit16 f.rd <<< 8 ||| bit16 f.ra <<< 7 ||| f.z.setWidth 16 <<< 4 |||
  (rcodeTab f.rcode).setWidth 16

/-- `F[14:11]` (R56). -/
def opcodeBits (w : Word16) : BitVec 4 := w.extractLsb' 11 4

/-- `F[3:0]` (R56). -/
def rcodeBits (w : Word16) : BitVec 4 := w.extractLsb' 0 4

/-- `unpack` of R56, with the two ordinals converted. -/
def unpackFlags (w : Word16) (opcode : Opcode) (rcode : Rcode) : FlagFields :=
  { qr := w.getLsbD 15, opcode := opcode, aa := w.getLsbD 10, tc := w.getLsbD 9,
    rd := w.getLsbD 8, ra := w.getLsbD 7, z := w.extractLsb' 4 3, rcode := rcode }

/-- The flag fields of a header (10_state.md R23). -/
def headerFlags (h : Header) : FlagFields :=
  { qr := h.qr, opcode := h.opcode, aa := h.aa, tc := h.tc, rd := h.rd, ra := h.ra, z := h.z,
    rcode := h.rcode }

/-- The reading of a flags word: opcode checked before response code (44_header.md R142). -/
def readFlags (w : Word16) : Except FaultInfo FlagFields :=
  match opcodeFrom (opcodeBits w) with
  | .error f => .error f
  | .ok op =>
    match rcodeFrom (rcodeBits w) with
    | .error f => .error f
    | .ok rc => .ok (unpackFlags w op rc)

/-! ## RSTATUS in numbers (60_exceptions.md R186) -/

/-- The kind of a recorded fault. -/
def faultKind : FaultInfo → FaultKind
  | .truncatedMessage => .truncatedMessage
  | .invalidLabelEncoding => .invalidLabelEncoding
  | .pointerLimitExceeded => .pointerLimitExceeded
  | .unknownEnumValue _ _ => .unknownEnumValue

/-- "Field codes for `UnknownEnumValue`: 0 = none, 1 = `opcode`, 2 = `rcode`, 3 = `type`, 4 =
`class`" (R186). The width of the code is the model's (log 17). -/
def fieldCode : FaultInfo → BitVec 3
  | .unknownEnumValue .opcode _ => 1
  | .unknownEnumValue .rcode _ => 2
  | .unknownEnumValue .type _ => 3
  | .unknownEnumValue .cls _ => 4
  | .truncatedMessage | .invalidLabelEncoding | .pointerLimitExceeded => 0

/-- The recorded ordinal; 0 for a fault that records none (10_state.md R16). -/
def faultValue : FaultInfo → Word16
  | .unknownEnumValue _ v => v
  | .truncatedMessage | .invalidLabelEncoding | .pointerLimitExceeded => 0

/-- RSTATUS as the numbers a host reads: kind code (0 = `OK`), field code, value (R16, R186). -/
def statusCode : RStatus → BitVec 3 × BitVec 3 × Word16
  | .ok => (0, 0, 0)
  | .fault f => ((faultKind f).code, fieldCode f, faultValue f)

end Sys2Proof.Machine
end

