-- ==== Sys2Proof/Machine/Operands.lean ====
section
/-! DEFINITION. The wire form of every operand value (30_encoding.md sections 2 to 5), and the values
that have none: what the writing operations append or refuse (43_writer.md, 44_header.md,
45_question_record.md, 46_message.md). -/

namespace Sys2Proof.Machine

/-- A segment on the wire: its length as 8 bits, then its codes (43_writer.md R128). -/
def wireSegment (seg : List Byte) : List Byte := BitVec.ofNat 8 seg.length :: seg

/-- No segment is longer than 255 codes, which is what a length byte can express (43_writer.md
R128, R130). -/
def nameWritable (s : Name) : Bool := (split dot s).all fun seg => seg.length ≤ 255

/-- The bytes of a name: each segment, then the terminating zero length byte; never a pointer
(43_writer.md R128, R132). -/
def wireName (s : Name) : List Byte := (split dot s).flatMap wireSegment ++ [0x00#8]

/-- The 12 bytes of a header (30_encoding.md R54, 44_header.md R141). -/
def wireHeader (h : Header) : List Byte :=
  be16 h.id ++ be16 (packFlags (headerFlags h)) ++ be16 h.qdcount ++ be16 h.ancount ++
  be16 h.nscount ++ be16 h.arcount

/-- A question on the wire (30_encoding.md R62). -/
def wireQuestion (q : Question) : List Byte :=
  wireName q.qname ++ be16 (typeTab q.qtype) ++ be16 (classTab q.qclass)

/-- A record on the wire (30_encoding.md R63). -/
def wireRecord (r : Record) : List Byte :=
  wireName r.name ++ be16 (typeTab r.type) ++ be16 (classTab r.cls) ++ be32 r.ttl ++
  be16 r.rdlength ++ r.rdata

/-- A message on the wire: header, questions, then the three record sections (30_encoding.md R53). -/
def wireMessage (m : Message) : List Byte :=
  wireHeader m.hdr ++ m.qd.flatMap wireQuestion ++ m.an.flatMap wireRecord ++
  m.ns.flatMap wireRecord ++ m.ar.flatMap wireRecord

/-- Every name of a message can be written (46_message.md R171). -/
def messageWritable (m : Message) : Bool :=
  m.qd.all (fun q => nameWritable q.qname) && m.an.all (fun r => nameWritable r.name) &&
  m.ns.all (fun r => nameWritable r.name) && m.ar.all (fun r => nameWritable r.name)

/-- What WRITE_NAME appends, or none where it is refused (43_writer.md R128). -/
def nameOutput (s : Name) : Option (List Byte) :=
  if nameWritable s then some (wireName s) else none

/-- What Q_ENC appends, or none where it is refused (45_question_record.md R151). -/
def questionOutput (q : Question) : Option (List Byte) :=
  if nameWritable q.qname then some (wireQuestion q) else none

/-- What RR_ENC appends, or none where it is refused (45_question_record.md R153). -/
def recordOutput (r : Record) : Option (List Byte) :=
  if r.wf && nameWritable r.name then some (wireRecord r) else none

/-- What MSG_ENC appends, or none where it is refused (46_message.md R171). -/
def messageOutput (m : Message) : Option (List Byte) :=
  if m.wf && messageWritable m then some (wireMessage m) else none

end Sys2Proof.Machine
end

