-- ==== Sys2Proof/Machine/Entries.lean ====
section
/-! DEFINITION. Q_ENC, Q_DEC, RR_ENC, RR_DEC (45_question_record.md). Every payload is opaque bytes
(R156). -/

namespace Sys2Proof.Machine

/-- A type field, converted as soon as it is read (R152, R154). -/
def readType : Body RType := Body.bind readU16 fun t => Body.ofExcept (typeFrom t)

/-- A class field, converted as soon as it is read (R152, R154). -/
def readClass : Body RClass := Body.bind readU16 fun c => Body.ofExcept (classFrom c)

/-- Q_DEC's body (R152). -/
def decodeQuestion : Body Question :=
  Body.bind readName fun n => Body.bind readType fun t => Body.bind readClass fun c =>
  Body.pure { qname := n, qtype := t, qclass := c }

/-- RR_DEC's body (R154). -/
def decodeRecord : Body Record :=
  Body.bind readName fun n => Body.bind readType fun t => Body.bind readClass fun c =>
  Body.bind readU32 fun ttl => Body.bind readU16 fun len =>
  Body.bind (readBytes len.toNat) fun data =>
  Body.pure { name := n, type := t, cls := c, ttl := ttl, rdlength := len, rdata := data }

/-- `Q_ENC q` (R151). -/
def execQEnc (q : Question) (s : State) : Host.Outcome State Fault Refusal :=
  writeSide (questionOutput q) s

/-- `Q_DEC -> q` (R152). -/
def execQDec (s : State) : Host.Outcome State Fault Refusal :=
  readSide (decodeQuestion.map .question) s

/-- `RR_ENC r` (R153). -/
def execRrEnc (r : Record) (s : State) : Host.Outcome State Fault Refusal :=
  writeSide (recordOutput r) s

/-- `RR_DEC -> r` (R154). -/
def execRrDec (s : State) : Host.Outcome State Fault Refusal :=
  readSide (decodeRecord.map .record) s

end Sys2Proof.Machine
end

