-- ==== Sys2Proof/Machine/ErrorRows.lean ====
section
/-! DEFINITION. The table's error-code rows (60_exceptions.md R186): the kind a code stands for, as an
answer, and no state changed. DESIGN CHOICE, log 10. -/

namespace Sys2Proof.Machine

/-- The kind of an error code: 1 to 4 (R186); 0 is `OK`, and 5 to 7 stand for nothing. -/
def kindOfCode (c : BitVec 3) : Option FaultKind := enumFrom FaultKind.all FaultKind.code c

/-- ERR.TruncatedMessage: code 1 (R186). -/
def execErrTruncatedMessage (s : State) : Host.Outcome State Fault Refusal :=
  pureOrRefuse ((kindOfCode FaultKind.truncatedMessage.code).map .kind) s

/-- ERR.InvalidLabelEncoding: code 2 (R186). -/
def execErrInvalidLabelEncoding (s : State) : Host.Outcome State Fault Refusal :=
  pureOrRefuse ((kindOfCode FaultKind.invalidLabelEncoding.code).map .kind) s

/-- ERR.PointerLimitExceeded: code 3 (R186). -/
def execErrPointerLimitExceeded (s : State) : Host.Outcome State Fault Refusal :=
  pureOrRefuse ((kindOfCode FaultKind.pointerLimitExceeded.code).map .kind) s

/-- ERR.UnknownEnumValue: code 4 (R186). -/
def execErrUnknownEnumValue (s : State) : Host.Outcome State Fault Refusal :=
  pureOrRefuse ((kindOfCode FaultKind.unknownEnumValue.code).map .kind) s

end Sys2Proof.Machine
end

