-- ==== Sys2Proof/Machine/HeaderCodec.lean ====
section
/-! DEFINITION. HDR_ENC and HDR_DEC (44_header.md). -/

namespace Sys2Proof.Machine

/-- A header from its identifier, its flag fields and its four counts (10_state.md R23). -/
def headerOf (id : Word16) (f : FlagFields) (qd an ns ar : Word16) : Header :=
  { id := id, qr := f.qr, opcode := f.opcode, aa := f.aa, tc := f.tc, rd := f.rd, ra := f.ra,
    z := f.z, rcode := f.rcode, qdcount := qd, ancount := an, nscount := ns, arcount := ar }

/-- HDR_DEC's body: the identifier, the flags word with its two ordinals checked at once, then the
four counts (R142). -/
def decodeHeader : Body Header :=
  Body.bind readU16 fun id => Body.bind readU16 fun w =>
  Body.bind (Body.ofExcept (readFlags w)) fun f =>
  Body.bind readU16 fun qd => Body.bind readU16 fun an => Body.bind readU16 fun ns =>
  Body.bind readU16 fun ar => Body.pure (headerOf id f qd an ns ar)

/-- `HDR_ENC h` (R141). -/
def execHdrEnc (h : Header) (s : State) : Host.Outcome State Fault Refusal :=
  writeSide (some (wireHeader h)) s

/-- `HDR_DEC -> h` (R142). -/
def execHdrDec (s : State) : Host.Outcome State Fault Refusal :=
  readSide (decodeHeader.map .header) s

end Sys2Proof.Machine
end

