-- ==== Sys2Proof/Machine/HostActions.lean ====
section
/-! DEFINITION. The host actions on the state: RESET, LOAD_RX, CLEAR_TX (10_state.md R20 to R22). -/

namespace Sys2Proof.Machine

/-- `RESET`: the state of 70_reset_and_hazards.md R210; the bytes of RX are unspecified again. The
host program goes on (10_state.md R22). -/
def execReset (s : State) : Host.Outcome State Fault Refusal :=
  .next ({ State.reset with host := s.host }.respond (.done .none))

/-- The state LOAD_RX leaves (10_state.md R20). -/
def State.loaded (s : State) (data : List Byte) : State :=
  { s with rx := Memory.writeBytes s.rx 0 data, size := data.length, rpos := 0, rstatus := .ok }

/-- `LOAD_RX data`: refused above the capacity; else RX, SIZE, RPOS and RSTATUS are written, and TX is
not touched (10_state.md R20). -/
def execLoadRx (data : List Byte) (s : State) : Host.Outcome State Fault Refusal :=
  if data.length > Config.bufCap then .next s.refuse
  else .next ((s.loaded data).respond (.done .none))

/-- `CLEAR_TX` (10_state.md R21). -/
def execClearTx (s : State) : Host.Outcome State Fault Refusal :=
  .next ({ s with tx := [] }.respond (.done .none))

end Sys2Proof.Machine
end

