-- ==== Sys2Proof/Machine/MemberRows.lean ====
section
/-! DEFINITION. The table's enumeration rows (40_enums.md R81 to R84): a row's word is an ordinal in
its field, and its meaning is the validated conversion of that ordinal (R80): the member as an
answer, and no state changed. The ordinals are read from the configured tables (00_scope.md R4,
92_eei_decisions.md D6). DESIGN CHOICE, log 10; the ordinals themselves, log 9. -/

namespace Sys2Proof.Machine

/-- OPCODE.QUERY: ordinal 0 of the opcode field (R81). -/
def execOpcodeQuery (s : State) : Host.Outcome State Fault Refusal :=
  pureSide .opcode (opcodeFrom (opcodeTab .query)) s

/-- OPCODE.IQUERY: ordinal 1 of the opcode field (R81). -/
def execOpcodeIquery (s : State) : Host.Outcome State Fault Refusal :=
  pureSide .opcode (opcodeFrom (opcodeTab .iquery)) s

/-- OPCODE.STATUS: ordinal 2 of the opcode field (R81). -/
def execOpcodeStatus (s : State) : Host.Outcome State Fault Refusal :=
  pureSide .opcode (opcodeFrom (opcodeTab .status)) s

/-- RCODE.NOERROR: ordinal 0 of the response-code field (R82). -/
def execRcodeNoerror (s : State) : Host.Outcome State Fault Refusal :=
  pureSide .rcode (rcodeFrom (rcodeTab .noerror)) s

/-- RCODE.FORMERR: ordinal 1 of the response-code field (R82). -/
def execRcodeFormerr (s : State) : Host.Outcome State Fault Refusal :=
  pureSide .rcode (rcodeFrom (rcodeTab .formerr)) s

/-- RCODE.SERVFAIL: ordinal 2 of the response-code field (R82). -/
def execRcodeServfail (s : State) : Host.Outcome State Fault Refusal :=
  pureSide .rcode (rcodeFrom (rcodeTab .servfail)) s

/-- RCODE.NXDOMAIN: ordinal 3 of the response-code field (R82). -/
def execRcodeNxdomain (s : State) : Host.Outcome State Fault Refusal :=
  pureSide .rcode (rcodeFrom (rcodeTab .nxdomain)) s

/-- RCODE.NOTIMP: ordinal 4 of the response-code field (R82). -/
def execRcodeNotimp (s : State) : Host.Outcome State Fault Refusal :=
  pureSide .rcode (rcodeFrom (rcodeTab .notimp)) s

/-- RCODE.REFUSED: ordinal 5 of the response-code field (R82). -/
def execRcodeRefused (s : State) : Host.Outcome State Fault Refusal :=
  pureSide .rcode (rcodeFrom (rcodeTab .refused)) s

/-- TYPE.A: ordinal 1 of the type field (R83). -/
def execTypeA (s : State) : Host.Outcome State Fault Refusal :=
  pureSide .type (typeFrom (typeTab .a)) s

/-- TYPE.NS: ordinal 2 of the type field (R83). -/
def execTypeNs (s : State) : Host.Outcome State Fault Refusal :=
  pureSide .type (typeFrom (typeTab .ns)) s

/-- TYPE.MD: ordinal 3 of the type field (R83). -/
def execTypeMd (s : State) : Host.Outcome State Fault Refusal :=
  pureSide .type (typeFrom (typeTab .md)) s

/-- TYPE.MF: ordinal 4 of the type field (R83). -/
def execTypeMf (s : State) : Host.Outcome State Fault Refusal :=
  pureSide .type (typeFrom (typeTab .mf)) s

/-- TYPE.CNAME: ordinal 5 of the type field (R83). -/
def execTypeCname (s : State) : Host.Outcome State Fault Refusal :=
  pureSide .type (typeFrom (typeTab .cname)) s

/-- TYPE.SOA: ordinal 6 of the type field (R83). -/
def execTypeSoa (s : State) : Host.Outcome State Fault Refusal :=
  pureSide .type (typeFrom (typeTab .soa)) s

/-- TYPE.MB: ordinal 7 of the type field (R83). -/
def execTypeMb (s : State) : Host.Outcome State Fault Refusal :=
  pureSide .type (typeFrom (typeTab .mb)) s

/-- TYPE.MG: ordinal 8 of the type field (R83). -/
def execTypeMg (s : State) : Host.Outcome State Fault Refusal :=
  pureSide .type (typeFrom (typeTab .mg)) s

/-- TYPE.MR: ordinal 9 of the type field (R83). -/
def execTypeMr (s : State) : Host.Outcome State Fault Refusal :=
  pureSide .type (typeFrom (typeTab .mr)) s

/-- TYPE.NULL: ordinal 10 of the type field (R83). -/
def execTypeNull (s : State) : Host.Outcome State Fault Refusal :=
  pureSide .type (typeFrom (typeTab .null)) s

/-- TYPE.WKS: ordinal 11 of the type field (R83). -/
def execTypeWks (s : State) : Host.Outcome State Fault Refusal :=
  pureSide .type (typeFrom (typeTab .wks)) s

/-- TYPE.PTR: ordinal 12 of the type field (R83). -/
def execTypePtr (s : State) : Host.Outcome State Fault Refusal :=
  pureSide .type (typeFrom (typeTab .ptr)) s

/-- TYPE.HINFO: ordinal 13 of the type field (R83). -/
def execTypeHinfo (s : State) : Host.Outcome State Fault Refusal :=
  pureSide .type (typeFrom (typeTab .hinfo)) s

/-- TYPE.MINFO: ordinal 14 of the type field (R83). -/
def execTypeMinfo (s : State) : Host.Outcome State Fault Refusal :=
  pureSide .type (typeFrom (typeTab .minfo)) s

/-- TYPE.MX: ordinal 15 of the type field (R83). -/
def execTypeMx (s : State) : Host.Outcome State Fault Refusal :=
  pureSide .type (typeFrom (typeTab .mx)) s

/-- TYPE.TXT: ordinal 16 of the type field (R83). -/
def execTypeTxt (s : State) : Host.Outcome State Fault Refusal :=
  pureSide .type (typeFrom (typeTab .txt)) s

/-- TYPE.AXFR: ordinal 252 of the type field (R83). -/
def execTypeAxfr (s : State) : Host.Outcome State Fault Refusal :=
  pureSide .type (typeFrom (typeTab .axfr)) s

/-- TYPE.MAILB: ordinal 253 of the type field (R83). -/
def execTypeMailb (s : State) : Host.Outcome State Fault Refusal :=
  pureSide .type (typeFrom (typeTab .mailb)) s

/-- TYPE.MAILA: ordinal 254 of the type field (R83). -/
def execTypeMaila (s : State) : Host.Outcome State Fault Refusal :=
  pureSide .type (typeFrom (typeTab .maila)) s

/-- TYPE.ANY: ordinal 255 of the type field (R83). -/
def execTypeAny (s : State) : Host.Outcome State Fault Refusal :=
  pureSide .type (typeFrom (typeTab .any)) s

/-- CLASS.IN: ordinal 1 of the class field (R84). -/
def execClassIn (s : State) : Host.Outcome State Fault Refusal :=
  pureSide .cls (classFrom (classTab .inet)) s

/-- CLASS.CS: ordinal 2 of the class field (R84). -/
def execClassCs (s : State) : Host.Outcome State Fault Refusal :=
  pureSide .cls (classFrom (classTab .cs)) s

/-- CLASS.CH: ordinal 3 of the class field (R84). -/
def execClassCh (s : State) : Host.Outcome State Fault Refusal :=
  pureSide .cls (classFrom (classTab .ch)) s

/-- CLASS.HS: ordinal 4 of the class field (R84). -/
def execClassHs (s : State) : Host.Outcome State Fault Refusal :=
  pureSide .cls (classFrom (classTab .hs)) s

/-- CLASS.ANY: ordinal 255 of the class field (R84). -/
def execClassAny (s : State) : Host.Outcome State Fault Refusal :=
  pureSide .cls (classFrom (classTab .any)) s

end Sys2Proof.Machine
end

