-- ==== Sys2Proof/Machine/MessageCodec.lean ====
section
/-! DEFINITION. MSG_ENC, MSG_DEC, BUILD_REQUEST and the pseudo-operations SERIALIZE and DESERIALIZE
(46_message.md). -/

namespace Sys2Proof.Machine

/-- MSG_DEC's body: the header, then as many entries a section as its count says (R172). Bytes after
the last record are not looked at (R173). -/
def decodeMessage : Body Message :=
  Body.bind decodeHeader fun h =>
  Body.bind (Body.times decodeQuestion h.qdcount.toNat) fun qd =>
  Body.bind (Body.times decodeRecord h.ancount.toNat) fun an =>
  Body.bind (Body.times decodeRecord h.nscount.toNat) fun ns =>
  Body.bind (Body.times decodeRecord h.arcount.toNat) fun ar =>
  Body.pure { hdr := h, qd := qd, an := an, ns := ns, ar := ar }

/-- The request message around one question (R176). -/
def requestMessage (id : Word16) (q : Question) : Message :=
  { hdr := { id := id, qr := false, opcode := .query, aa := false, tc := false, rd := true,
             ra := false, z := 0, rcode := .noerror, qdcount := 1, ancount := 0, nscount := 0,
             arcount := 0 }
    qd := [q], an := [], ns := [], ar := [] }

/-- `MSG_ENC m` (R171). -/
def execMsgEnc (m : Message) (s : State) : Host.Outcome State Fault Refusal :=
  writeSide (messageOutput m) s

/-- `MSG_DEC -> m` (R172). -/
def execMsgDec (s : State) : Host.Outcome State Fault Refusal :=
  readSide (decodeMessage.map .message) s

/-- `BUILD_REQUEST id, q -> m` (R176). -/
def execBuildRequest (id : Word16) (q : Question) (s : State) : Host.Outcome State Fault Refusal :=
  pureSide .message (.ok (requestMessage id q)) s

/-- `SERIALIZE m -> bytes`: CLEAR_TX, then MSG_ENC m, and the result is TX (R178). Where MSG_ENC is
refused, CLEAR_TX has been performed (log 11). -/
def execSerialize (m : Message) (s : State) : Host.Outcome State Fault Refusal :=
  match messageOutput m with
  | some bs => .next ({ s with tx := bs }.respond (.done (.bytes bs)))
  | none => .next { s with tx := [] }.refuse

/-- `DESERIALIZE data -> m`: LOAD_RX data, then MSG_DEC; refused above the capacity (R177). -/
def execDeserialize (data : List Byte) (s : State) : Host.Outcome State Fault Refusal :=
  if data.length > Config.bufCap then .next s.refuse
  else readSide (decodeMessage.map .message) (s.loaded data)

end Sys2Proof.Machine
end

