-- ==== Sys2Proof/Machine/WireRows.lean ====
section
/-! DEFINITION. The table's wire-format rows (30_encoding.md sections 2 to 5). They are encodings, not
commands: each answers what the codec reads from the row's word, or writes for a value in the row's
layout, through the operations the codec itself uses, and changes no architectural state.
DESIGN CHOICE, log 10. -/

namespace Sys2Proof.Machine

/-- What a name element's first byte alone says, and a pointer's with its second (R58, R59): an
element, or `InvalidLabelEncoding` (42_name_decode.md R116). -/
def elementOf (b : Byte) (second : Byte) : Except FaultInfo NameElement :=
  match firstByte b with
  | .terminator => .ok .terminator
  | .label len => .ok (.label len)
  | .pointer high => .ok (.pointer (pointerOffset high second))
  | .invalid01 _ | .invalid10 _ => .error .invalidLabelEncoding

/-- WIRE.FLAGS: the fields of a flags word (R55, R56), its ordinals checked (R66). -/
def execWireFlags (f : Word16) (s : State) : Host.Outcome State Fault Refusal :=
  pureSide .flags (readFlags f) s

/-- WIRE.NAME_END: `00000000`, the terminator (R58). -/
def execWireNameEnd (s : State) : Host.Outcome State Fault Refusal :=
  pureSide .element (elementOf 0x00#8 0x00#8) s

/-- WIRE.NAME_LABEL: `00LLLLLL`, a label of length L (R58). -/
def execWireNameLabel (len : BitVec 6) (s : State) : Host.Outcome State Fault Refusal :=
  pureSide .element (elementOf (elementByte 0b00#2 len) 0x00#8) s

/-- WIRE.NAME_POINTER: `11PPPPPP PPPPPPPP`, a pointer to offset P (R59). -/
def execWireNamePointer (off : BitVec 14) (s : State) : Host.Outcome State Fault Refusal :=
  pureSide .element
    (elementOf (elementByte 0b11#2 (off.extractLsb' 8 6)) (off.extractLsb' 0 8)) s

/-- WIRE.NAME_INVALID_01: `01xxxxxx`, undefined: `InvalidLabelEncoding` (R58, 42_name_decode.md
R116). -/
def execWireNameInvalid01 (x : BitVec 6) (s : State) : Host.Outcome State Fault Refusal :=
  pureSide .element (elementOf (elementByte 0b01#2 x) 0x00#8) s

/-- WIRE.NAME_INVALID_10: `10xxxxxx`, undefined: `InvalidLabelEncoding` (R58, 42_name_decode.md
R116). -/
def execWireNameInvalid10 (x : BitVec 6) (s : State) : Host.Outcome State Fault Refusal :=
  pureSide .element (elementOf (elementByte 0b10#2 x) 0x00#8) s

/-- WIRE.HEADER: the 12 bytes of a header (R54). -/
def execWireHeader (h : Header) (s : State) : Host.Outcome State Fault Refusal :=
  pureOrRefuse (some (.bytes (wireHeader h))) s

/-- WIRE.QUESTION: the bytes of a question (R62), where it has an encoding. -/
def execWireQuestion (q : Question) (s : State) : Host.Outcome State Fault Refusal :=
  pureOrRefuse ((questionOutput q).map .bytes) s

/-- WIRE.RECORD: the bytes of a record (R63), where it has an encoding. -/
def execWireRecord (r : Record) (s : State) : Host.Outcome State Fault Refusal :=
  pureOrRefuse ((recordOutput r).map .bytes) s

/-- WIRE.MESSAGE: the bytes of a message (R53), where it has an encoding. -/
def execWireMessage (m : Message) (s : State) : Host.Outcome State Fault Refusal :=
  pureOrRefuse ((messageOutput m).map .bytes) s

end Sys2Proof.Machine
end

