-- ==== Sys2Proof/Machine/Writer.lean ====
section
/-! DEFINITION. WRITE_U16, WRITE_U32, WRITE_NAME (43_writer.md). -/

namespace Sys2Proof.Machine

/-- `WRITE_U16 v` (R126). -/
def execWriteU16 (v : Word16) (s : State) : Host.Outcome State Fault Refusal :=
  writeSide (some (be16 v)) s

/-- `WRITE_U32 v` (R127). -/
def execWriteU32 (v : Word32) (s : State) : Host.Outcome State Fault Refusal :=
  writeSide (some (be32 v)) s

/-- `WRITE_NAME s` (R128 to R130). -/
def execWriteName (name : Name) (s : State) : Host.Outcome State Fault Refusal :=
  writeSide (nameOutput name) s

end Sys2Proof.Machine
end

