-- ==== Sys2Proof/Machine/Dispatch.lean ====
section
/-! DEFINITION. The dispatch of an instruction to its meaning: one arm per constructor of Instr. -/

namespace Sys2Proof.Machine

def exec (i : Instr) (s : State) : Host.Outcome State Fault Refusal :=
  match i with
  | .reset => Sys2Proof.Machine.execReset s
  | .loadRx data => Sys2Proof.Machine.execLoadRx data s
  | .clearTx => Sys2Proof.Machine.execClearTx s
  | .readU8 => Sys2Proof.Machine.execReadU8 s
  | .readU16 => Sys2Proof.Machine.execReadU16 s
  | .readU32 => Sys2Proof.Machine.execReadU32 s
  | .readBytes n => Sys2Proof.Machine.execReadBytes n s
  | .setPosition p => Sys2Proof.Machine.execSetPosition p s
  | .readName => Sys2Proof.Machine.execReadName s
  | .writeU16 v => Sys2Proof.Machine.execWriteU16 v s
  | .writeU32 v => Sys2Proof.Machine.execWriteU32 v s
  | .writeName name => Sys2Proof.Machine.execWriteName name s
  | .opcodeFrom o => Sys2Proof.Machine.execOpcodeFrom o s
  | .opcodeTo m => Sys2Proof.Machine.execOpcodeTo m s
  | .rcodeFrom o => Sys2Proof.Machine.execRcodeFrom o s
  | .rcodeTo m => Sys2Proof.Machine.execRcodeTo m s
  | .typeFrom o => Sys2Proof.Machine.execTypeFrom o s
  | .typeTo m => Sys2Proof.Machine.execTypeTo m s
  | .classFrom o => Sys2Proof.Machine.execClassFrom o s
  | .classTo m => Sys2Proof.Machine.execClassTo m s
  | .hdrEnc h => Sys2Proof.Machine.execHdrEnc h s
  | .hdrDec => Sys2Proof.Machine.execHdrDec s
  | .qEnc q => Sys2Proof.Machine.execQEnc q s
  | .qDec => Sys2Proof.Machine.execQDec s
  | .rrEnc r => Sys2Proof.Machine.execRrEnc r s
  | .rrDec => Sys2Proof.Machine.execRrDec s
  | .msgEnc m => Sys2Proof.Machine.execMsgEnc m s
  | .msgDec => Sys2Proof.Machine.execMsgDec s
  | .buildRequest id q => Sys2Proof.Machine.execBuildRequest id q s
  | .serialize m => Sys2Proof.Machine.execSerialize m s
  | .deserialize data => Sys2Proof.Machine.execDeserialize data s
  | .wireFlags f => Sys2Proof.Machine.execWireFlags f s
  | .wireNameEnd => Sys2Proof.Machine.execWireNameEnd s
  | .wireNameLabel len => Sys2Proof.Machine.execWireNameLabel len s
  | .wireNamePointer off => Sys2Proof.Machine.execWireNamePointer off s
  | .wireNameInvalid01 x => Sys2Proof.Machine.execWireNameInvalid01 x s
  | .wireNameInvalid10 x => Sys2Proof.Machine.execWireNameInvalid10 x s
  | .wireHeader h => Sys2Proof.Machine.execWireHeader h s
  | .wireQuestion q => Sys2Proof.Machine.execWireQuestion q s
  | .wireRecord r => Sys2Proof.Machine.execWireRecord r s
  | .wireMessage m => Sys2Proof.Machine.execWireMessage m s
  | .opcodeQuery => Sys2Proof.Machine.execOpcodeQuery s
  | .opcodeIquery => Sys2Proof.Machine.execOpcodeIquery s
  | .opcodeStatus => Sys2Proof.Machine.execOpcodeStatus s
  | .rcodeNoerror => Sys2Proof.Machine.execRcodeNoerror s
  | .rcodeFormerr => Sys2Proof.Machine.execRcodeFormerr s
  | .rcodeServfail => Sys2Proof.Machine.execRcodeServfail s
  | .rcodeNxdomain => Sys2Proof.Machine.execRcodeNxdomain s
  | .rcodeNotimp => Sys2Proof.Machine.execRcodeNotimp s
  | .rcodeRefused => Sys2Proof.Machine.execRcodeRefused s
  | .typeA => Sys2Proof.Machine.execTypeA s
  | .typeNs => Sys2Proof.Machine.execTypeNs s
  | .typeMd => Sys2Proof.Machine.execTypeMd s
  | .typeMf => Sys2Proof.Machine.execTypeMf s
  | .typeCname => Sys2Proof.Machine.execTypeCname s
  | .typeSoa => Sys2Proof.Machine.execTypeSoa s
  | .typeMb => Sys2Proof.Machine.execTypeMb s
  | .typeMg => Sys2Proof.Machine.execTypeMg s
  | .typeMr => Sys2Proof.Machine.execTypeMr s
  | .typeNull => Sys2Proof.Machine.execTypeNull s
  | .typeWks => Sys2Proof.Machine.execTypeWks s
  | .typePtr => Sys2Proof.Machine.execTypePtr s
  | .typeHinfo => Sys2Proof.Machine.execTypeHinfo s
  | .typeMinfo => Sys2Proof.Machine.execTypeMinfo s
  | .typeMx => Sys2Proof.Machine.execTypeMx s
  | .typeTxt => Sys2Proof.Machine.execTypeTxt s
  | .typeAxfr => Sys2Proof.Machine.execTypeAxfr s
  | .typeMailb => Sys2Proof.Machine.execTypeMailb s
  | .typeMaila => Sys2Proof.Machine.execTypeMaila s
  | .typeAny => Sys2Proof.Machine.execTypeAny s
  | .classIn => Sys2Proof.Machine.execClassIn s
  | .classCs => Sys2Proof.Machine.execClassCs s
  | .classCh => Sys2Proof.Machine.execClassCh s
  | .classHs => Sys2Proof.Machine.execClassHs s
  | .classAny => Sys2Proof.Machine.execClassAny s
  | .errTruncatedMessage => Sys2Proof.Machine.execErrTruncatedMessage s
  | .errInvalidLabelEncoding => Sys2Proof.Machine.execErrInvalidLabelEncoding s
  | .errPointerLimitExceeded => Sys2Proof.Machine.execErrPointerLimitExceeded s
  | .errUnknownEnumValue => Sys2Proof.Machine.execErrUnknownEnumValue s

end Sys2Proof.Machine
end

