-- ==== Sys2Proof/Machine/Fetch.lean ====
section
/-! DEFINITION. The issuing of the host's next transaction (00_scope.md R9, 30_encoding.md R50, R51).
The block fetches no instructions (20_memory.md R30); what stands in for a fetch is the host handing
over its next operation. DESIGN CHOICE, log 2. -/

namespace Sys2Proof.Machine

/-- What the host's next transaction is. -/
inductive Issued where
  /-- No transaction is left: the block is idle (60_exceptions.md R202). -/
  | idle
  /-- An instruction, and the state with its transaction issued. -/
  | instr (i : Instr) (s : State)
  /-- A command code that is not in 30_encoding.md R52: refused (R51). -/
  | unassigned (s : State)
  /-- Bytes that carry no instruction of their format. -/
  | malformed
  deriving DecidableEq, Repr

/-- The next transaction taken from the host program and decoded. -/
def issue (s : State) : Issued :=
  match s.host with
  | [] => .idle
  | t :: rest =>
    match decode t with
    | .ok i => .instr i { s with host := rest }
    | .error (.unassignedCode _) => .unassigned { s with host := rest }
    | .error .emptyTransaction | .error .badOperands | .error .noSuchRow => .malformed

end Sys2Proof.Machine
end

