-- ==== Sys2Proof/Machine/Step.lean ====
section
/-! DEFINITION. One step: the host's next transaction is issued and performed to completion
(20_memory.md R38, R40). -/

namespace Sys2Proof.Machine

/-- One step: one operation of the host program. With none left the block is idle and holds its
state (60_exceptions.md R202); an unassigned command code is refused (30_encoding.md R51). -/
def step (s : State) : Host.Outcome State Fault Refusal :=
  match issue s with
  | .idle => .next s
  | .instr i s' => exec i s'
  | .unassigned s' => .next s'.refuse
  | .malformed => .refused .malformedTransaction

/-- The state with an opcode-table word as the host's very next transaction (log 2, log 13). -/
def State.withFetchWord (s : State) (nbits w : Nat) : State :=
  { s with host := tableTransaction nbits w :: s.host }

end Sys2Proof.Machine
end

