-- ==== Sys2Proof/Safety.lean ====
section
/-! DEFINITION. What the claims call safe: the state invariants of 10_state.md R19 with what the
model's memory and fault record add, and when an operation has gone wrong (70_reset_and_hazards.md
R213). -/

namespace Sys2Proof.Machine

/-- Every address of RX below SIZE holds a byte that a LOAD_RX wrote (10_state.md R14, R20). -/
def RxFilled (s : State) : Prop := ∀ a, a < s.size → (Memory.read s.rx a).isSome

/-- RX is in canonical form and lists addresses below `BUF_CAP` only (10_state.md R12). -/
def RxWf (s : State) : Prop :=
  Memory.wf s.rx = true ∧ (s.rx.all fun cell => cell.1 < Config.bufCap) = true

/-- A fault names an ordinal that is no member's and that its field can hold: 4 bits for `opcode`
and `rcode`, zero-extended (40_enums.md R94, 60_exceptions.md R186). -/
def faultLegal : FaultInfo → Prop
  | .unknownEnumValue .opcode v => v.toNat < 16 ∧ opcodeOf (v.setWidth 4) = none
  | .unknownEnumValue .rcode v => v.toNat < 16 ∧ rcodeOf (v.setWidth 4) = none
  | .unknownEnumValue .type v => typeOf v = none
  | .unknownEnumValue .cls v => classOf v = none
  | .truncatedMessage | .invalidLabelEncoding | .pointerLimitExceeded => True

/-- A recorded fault is one the block can raise (10_state.md R16). -/
def StatusLegal : RStatus → Prop
  | .ok => True
  | .fault f => faultLegal f

/-- The state invariants: `0 <= RPOS <= SIZE <= BUF_CAP`, HOPS and SAVED empty outside a running
READ_NAME (10_state.md R19), and what the model's memory and fault record add to them. -/
structure State.Inv (s : State) : Prop where
  pos    : s.rpos ≤ s.size
  cap    : s.size ≤ Config.bufCap
  hops   : s.hops = 0
  saved  : s.saved = []
  wf     : RxWf s
  filled : RxFilled s
  status : StatusLegal s.rstatus

/-- An operation went wrong: it was answered `FAULT` or `REFUSED` (70_reset_and_hazards.md R213). -/
def Response.wrong : Response → Bool
  | .done _ => false
  | .fault _ => true
  | .refused => true

/-! ## Which instructions belong to which side -/

/-- The read-side operations (41_cursor_read.md R100). -/
def readSideOp : Instr → Bool
  | .readU8 | .readU16 | .readU32 | .readBytes _ | .setPosition _ | .readName | .hdrDec | .qDec
  | .rrDec | .msgDec => true
  | _ => false

/-- The write-side operations (43_writer.md R125). -/
def writeSideOp : Instr → Bool
  | .writeU16 _ | .writeU32 _ | .writeName _ | .hdrEnc _ | .qEnc _ | .rrEnc _ | .msgEnc _ => true
  | _ => false

/-- The operations that change the state as a whole: the host actions (10_state.md R20 to R22) and
the pseudo-operations that expand to one (46_message.md R177, R178). -/
def hostSideOp : Instr → Bool
  | .reset | .loadRx _ | .clearTx | .serialize _ | .deserialize _ => true
  | _ => false

/-- The pure operations (40_enums.md R80, 46_message.md R176) and the table's encoding rows
(log 10): all the others. -/
def pureOp (i : Instr) : Bool := !readSideOp i && !writeSideOp i && !hostSideOp i

/-- The kinds an operation may be answered with (60_exceptions.md R187), `field` for
`UnknownEnumValue`. -/
def mayRaise : Instr → FaultInfo → Bool
  | .readU8, .truncatedMessage | .readU16, .truncatedMessage | .readU32, .truncatedMessage
  | .readBytes _, .truncatedMessage | .setPosition _, .truncatedMessage => true
  | .readName, .truncatedMessage | .readName, .invalidLabelEncoding
  | .readName, .pointerLimitExceeded => true
  | .opcodeFrom _, .unknownEnumValue .opcode _ | .rcodeFrom _, .unknownEnumValue .rcode _
  | .typeFrom _, .unknownEnumValue .type _ | .classFrom _, .unknownEnumValue .cls _ => true
  | .hdrDec, .truncatedMessage | .hdrDec, .unknownEnumValue .opcode _
  | .hdrDec, .unknownEnumValue .rcode _ => true
  | .qDec, .truncatedMessage | .qDec, .invalidLabelEncoding | .qDec, .pointerLimitExceeded
  | .qDec, .unknownEnumValue .type _ | .qDec, .unknownEnumValue .cls _ => true
  | .rrDec, .truncatedMessage | .rrDec, .invalidLabelEncoding | .rrDec, .pointerLimitExceeded
  | .rrDec, .unknownEnumValue .type _ | .rrDec, .unknownEnumValue .cls _ => true
  | .msgDec, _ | .deserialize _, _ => true
  | .wireFlags _, .unknownEnumValue .opcode _ | .wireFlags _, .unknownEnumValue .rcode _ => true
  | .wireNameInvalid01 _, .invalidLabelEncoding | .wireNameInvalid10 _, .invalidLabelEncoding => true
  | _, _ => false

/-! ## What stands in the buffer

The wire formats of 30_encoding.md as relations over the bytes of RX, written without the decoder:
what a decode must find. -/

/-- The byte `v` stands at the readable address `p` (20_memory.md R30). -/
def ByteAt (b : Buf) (p : Nat) (v : Byte) : Prop := p < b.size ∧ Memory.read b.cells p = some v

/-- The bytes `bs` stand at `p` and on, all of them readable. -/
def BytesAt (b : Buf) : Nat → List Byte → Prop
  | p, [] => p ≤ b.size
  | p, v :: rest => ByteAt b p v ∧ BytesAt b (p + 1) rest

/-- The 16-bit value `v` stands at `p`, big-endian (30_encoding.md R64). -/
def U16At (b : Buf) (p : Nat) (v : Word16) : Prop :=
  ∃ b0 b1, BytesAt b p [b0, b1] ∧ v.toNat = b0.toNat * 256 + b1.toNat

/-- The 32-bit value `v` stands at `p`, big-endian (30_encoding.md R64). -/
def U32At (b : Buf) (p : Nat) (v : Word32) : Prop :=
  ∃ b0 b1 b2 b3, BytesAt b p [b0, b1, b2, b3] ∧
    v.toNat = b0.toNat * 2 ^ 24 + b1.toNat * 2 ^ 16 + b2.toNat * 2 ^ 8 + b3.toNat

/-- Labels stand from `p` up to `q`, each a length byte of 1 to 63 and that many bytes
(30_encoding.md R57, R58). -/
inductive LabelsAt (b : Buf) : Nat → List (List Byte) → Nat → Prop where
  | nil (p : Nat) : LabelsAt b p [] p
  | cons (p q : Nat) (len : Byte) (lab : List Byte) (rest : List (List Byte)) :
      ByteAt b p len → 1 ≤ len.toNat → len.toNat ≤ 63 → lab.length = len.toNat →
      BytesAt b (p + 1) lab → LabelsAt b (p + 1 + lab.length) rest q →
      LabelsAt b p (lab :: rest) q

/-- A pointer stands at `p`: a first byte of 192 or more whose six low bits and the second byte make
the offset (30_encoding.md R58, R59). -/
def PointerAt (b : Buf) (p : Nat) (off : Nat) : Prop :=
  ∃ b0 b1, ByteAt b p b0 ∧ ByteAt b (p + 1) b1 ∧ 192 ≤ b0.toNat ∧
    off = (b0.toNat - 192) * 256 + b1.toNat

/-- A name stands at `p` and its own encoding ends before `e` (30_encoding.md R57, R65): labels and a
terminator, or labels and a pointer to a name; `h` pointers have been followed to get here
(42_name_decode.md R111, R115). -/
inductive NameAt (b : Buf) : Nat → Nat → List (List Byte) → Nat → Prop where
  | ends (h p q : Nat) (labels : List (List Byte)) :
      LabelsAt b p labels q → ByteAt b q 0x00#8 → NameAt b h p labels (q + 1)
  | points (h p q off e : Nat) (labels rest : List (List Byte)) :
      LabelsAt b p labels q → PointerAt b q off → h < Config.pointerLimit → off ≤ b.size →
      NameAt b (h + 1) off rest e → NameAt b h p (labels ++ rest) (q + 2)

/-- Reading a name from `p` in order comes, after `h` pointers followed, to an element whose first byte
is at `q` (42_name_decode.md R112, R113). No limit is put on `h`, and nothing is said of `q`. -/
inductive Reaches (b : Buf) : Nat → Nat → Nat → Prop where
  | here (p q : Nat) (labels : List (List Byte)) : LabelsAt b p labels q → Reaches b p 0 q
  | jump (p q off h r : Nat) (labels : List (List Byte)) :
      LabelsAt b p labels q → PointerAt b q off → off ≤ b.size → Reaches b off h r →
      Reaches b p (h + 1) r

/-- The element at `q` is cut off by the end of the buffer: no first byte, a label's bytes cut off, or
a pointer's second byte missing (42_name_decode.md R112, R113). -/
def CutOffAt (b : Buf) (q : Nat) : Prop :=
  b.size ≤ q ∨ (∃ v, ByteAt b q v ∧ 1 ≤ v.toNat ∧ v.toNat ≤ 63 ∧ b.size < q + 1 + v.toNat) ∨
  (∃ v, ByteAt b q v ∧ 192 ≤ v.toNat ∧ b.size ≤ q + 1)

/-- A header stands at `p`: six words, the second split as 30_encoding.md R54, R55 say. -/
def HeaderAt (b : Buf) (p : Nat) (h : Header) : Prop :=
  U16At b p h.id ∧
  (∃ w : Word16, U16At b (p + 2) w ∧ w.getLsbD 15 = h.qr ∧ w.extractLsb' 11 4 = opcodeTab h.opcode ∧
    w.getLsbD 10 = h.aa ∧ w.getLsbD 9 = h.tc ∧ w.getLsbD 8 = h.rd ∧ w.getLsbD 7 = h.ra ∧
    w.extractLsb' 4 3 = h.z ∧ w.extractLsb' 0 4 = rcodeTab h.rcode) ∧
  U16At b (p + 4) h.qdcount ∧ U16At b (p + 6) h.ancount ∧ U16At b (p + 8) h.nscount ∧
  U16At b (p + 10) h.arcount

/-- A question stands from `p` up to `e` (30_encoding.md R62). -/
def QuestionAt (b : Buf) (p : Nat) (q : Question) (e : Nat) : Prop :=
  ∃ labels n, NameAt b 0 p labels n ∧ q.qname = join dot labels ∧ U16At b n (typeTab q.qtype) ∧
    U16At b (n + 2) (classTab q.qclass) ∧ e = n + 4

/-- A record stands from `p` up to `e` (30_encoding.md R63). -/
def RecordAt (b : Buf) (p : Nat) (r : Record) (e : Nat) : Prop :=
  ∃ labels n, NameAt b 0 p labels n ∧ r.name = join dot labels ∧ U16At b n (typeTab r.type) ∧
    U16At b (n + 2) (classTab r.cls) ∧ U32At b (n + 4) r.ttl ∧ U16At b (n + 8) r.rdlength ∧
    r.rdata.length = r.rdlength.toNat ∧ BytesAt b (n + 10) r.rdata ∧ e = n + 10 + r.rdata.length

/-- Entries stand one after the other from `p` up to `e` (30_encoding.md R53). -/
inductive EntriesAt {α : Type} (entry : Nat → α → Nat → Prop) : Nat → List α → Nat → Prop where
  | nil (p : Nat) : EntriesAt entry p [] p
  | cons (p q e : Nat) (a : α) (rest : List α) :
      entry p a q → EntriesAt entry q rest e → EntriesAt entry p (a :: rest) e

/-- A message stands from `p` up to `e` (30_encoding.md R53): its header, and in each section as many
entries as the header's count says. -/
def MessageAt (b : Buf) (p : Nat) (m : Message) (e : Nat) : Prop :=
  HeaderAt b p m.hdr ∧ m.qd.length = m.hdr.qdcount.toNat ∧ m.an.length = m.hdr.ancount.toNat ∧
  m.ns.length = m.hdr.nscount.toNat ∧ m.ar.length = m.hdr.arcount.toNat ∧
  ∃ q1 q2 q3, EntriesAt (QuestionAt b) (p + 12) m.qd q1 ∧ EntriesAt (RecordAt b) q1 m.an q2 ∧
    EntriesAt (RecordAt b) q2 m.ns q3 ∧ EntriesAt (RecordAt b) q3 m.ar e

/-- Two states that differ at most in bytes of RX at or beyond SIZE, the hidden state of 10_state.md
R18. -/
def SameBelowSize (s s' : State) : Prop :=
  (∀ a, a < s.size → Memory.read s'.rx a = Memory.read s.rx a) ∧
  s' = { s with rx := s'.rx }

/-! ## How an operation ends -/

/-- A read-side operation completed with the cursor at `p`: `RPOS` and the answer, nothing else
(20_memory.md R37). -/
def State.readTo (s : State) (p : Nat) (r : Result) : State :=
  { s with rpos := p, answer := some (.done r) }

/-- A read-side operation faulted with the cursor at `p`: `RPOS`, `RSTATUS` and the answer, nothing
else (60_exceptions.md R188). -/
def State.faultAt (s : State) (p : Nat) (f : FaultInfo) : State :=
  { s with rpos := p, rstatus := .fault f, answer := some (.fault f) }

/-- A write-side operation appended `w`: `TX` and the answer, nothing else (43_writer.md R125). -/
def State.wrote (s : State) (w : List Byte) : State :=
  { s with tx := s.tx ++ w, answer := some (.done .none) }

/-- An operation answered and changed nothing else. -/
def State.answered (s : State) (r : Response) : State := { s with answer := some r }

/-- In every state the instruction appends `w` and does nothing else. -/
def Appends (i : Instr) (w : List Byte) : Prop := ∀ s, exec i s = .next (s.wrote w)

/-- In every state the instruction is refused, with nothing changed. -/
def Refuses (i : Instr) : Prop := ∀ s, exec i s = .next (s.answered .refused)

/-- The command code of an operation: its transaction is that code and its operands
(30_encoding.md R50, R52). -/
def CommandCode (i : Instr) (code : Byte) : Prop := ∃ operands, encode i = command code operands

/-- Some segment of the name has more than 255 codes (43_writer.md R128, R130). -/
def TooLong (n : Name) : Prop := ∃ seg ∈ split dot n, 255 < seg.length

/-- Every name of a message (46_message.md R171). -/
def messageNames (m : Message) : List Name :=
  m.qd.map Question.qname ++ (m.an ++ m.ns ++ m.ar).map Record.name

/-- The operands a command is refused for (60_exceptions.md R197). -/
def Refusable : Instr → Prop
  | .loadRx data => Config.bufCap < data.length
  | .writeName n => TooLong n
  | .qEnc q => TooLong q.qname
  | .rrEnc r => r.rdlength.toNat ≠ r.rdata.length ∨ TooLong r.name
  | .msgEnc m => m.wf = false ∨ ∃ n ∈ messageNames m, TooLong n
  | _ => False

/-- Operations issued one after the other, each answered, and the state at the end
(00_scope.md R9, 70_reset_and_hazards.md R213). -/
inductive Runs : List Instr → State → List Response → State → Prop where
  | nil (s : State) : Runs [] s [] s
  | cons (i : Instr) (rest : List Instr) (s t u : State) (r : Response) (rs : List Response) :
      exec i s = .next t → t.answer = some r → Runs rest t rs u → Runs (i :: rest) s (r :: rs) u

/-- What MSG_DEC reads after the header, by its counts (46_message.md R172). -/
def messageOps (h : Header) : List Instr :=
  List.replicate h.qdcount.toNat .qDec ++ List.replicate h.ancount.toNat .rrDec ++
  List.replicate h.nscount.toNat .rrDec ++ List.replicate h.arcount.toNat .rrDec

end Sys2Proof.Machine
end

