-- ==== Sys2Proof/Certificates/Slice0/Obligations.lean ====
section
/-! DEFINITION. The statements for the provers, from the numbered rules of spec/ file by file. A next
state written as a whole (`readTo`, `faultAt`, `wrote`, `answered`, Safety.lean) says the frame too:
every field not named is as it was. -/

open Sys2Proof Sys2Proof.Machine

/-! ## State, reset and host actions (10_state.md, 70_reset_and_hazards.md) -/

/-- 10_state.md R22, whole: RESET sets the registers and leaves the bytes of RX unspecified (nothing is
said of `t.rx`). HOPS and SAVED by 70_reset_and_hazards.md R210. -/
def Obligations.ResetOperationSetsTheStatedRegisters : Prop :=
  CommandCode .reset 0x01#8 ∧
  ∀ s : State, ∃ t, exec .reset s = .next t ∧
    t = { s with rx := t.rx, size := 0, rpos := 0, rstatus := .ok, tx := [], hops := 0, saved := [],
                 answer := some (.done .none) }

/-- 70_reset_and_hazards.md R210: the reset state, the same after the RESET operation, and no
operation can observe the unspecified bytes of RX. Nothing is said of the model's own fields `answer`
and `host` (log 2, log 3) nor of what RX lists after reset (log 7). -/
def Obligations.ResetStateHidesTheBytesOfRx : Prop :=
  State.reset.size = 0 ∧ State.reset.rpos = 0 ∧ State.reset.rstatus = .ok ∧ State.reset.tx = [] ∧
  State.reset.wlen = 0 ∧ State.reset.hops = 0 ∧ State.reset.saved = [] ∧
  (∀ s : State, ∃ t, exec .reset s = .next t ∧
    SameBelowSize { State.reset with answer := t.answer, host := t.host } t) ∧
  ∀ (rx : Memory) (i : Instr), ∃ t t', exec i State.reset = .next t ∧
    exec i { State.reset with rx := rx } = .next t' ∧ SameBelowSize t t'

/-- 70_reset_and_hazards.md R211: from reset every read-side operation but two faults at RPOS 0, those
two complete, an unrefused write-side operation appends bytes and a pure one is answered. Which bytes
and which answer, the statements of the operations say. -/
def Obligations.AfterResetEveryReadFaultsAndTheRestWorks : Prop :=
  (∀ i, readSideOp i = true → i ≠ .readBytes 0 → i ≠ .setPosition 0 →
    exec i State.reset = .next (State.reset.faultAt 0 .truncatedMessage)) ∧
  exec (.readBytes 0) State.reset = .next (State.reset.readTo 0 (.bytes [])) ∧
  exec (.setPosition 0) State.reset = .next (State.reset.readTo 0 .none) ∧
  (∀ i, writeSideOp i = true → ¬ Refusable i →
    ∃ w, exec i State.reset = .next (State.reset.wrote w)) ∧
  (∀ i, pureOp i = true → ∃ r, exec i State.reset = .next (State.reset.answered r))

/-- 10_state.md R19: the invariants hold after reset. The clauses `wf`, `filled` and `status` of
`State.Inv` are the model's own additions (log 7). -/
def Obligations.ResetStateMeetsTheInvariants : Prop := State.reset.Inv

/-- 10_state.md R19: every step keeps the invariants. -/
def Obligations.EveryStepKeepsTheInvariants : Prop :=
  ∀ s t : State, s.Inv → step s = .next t → t.Inv

/-- 10_state.md R20, whole: LOAD_RX is refused above the capacity, else writes RX below the length,
SIZE, RPOS and RSTATUS, and nothing else. The capacity is any number from 512 up (00_scope.md R4,
log 5). -/
def Obligations.LoadRxInstallsTheBufferOrIsRefused : Prop :=
  512 ≤ Config.bufCap ∧
  ∀ data : List Byte, CommandCode (.loadRx data) 0x02#8 ∧
    (Config.bufCap < data.length → Refuses (.loadRx data)) ∧
    (data.length ≤ Config.bufCap → ∀ s : State, ∃ t, exec (.loadRx data) s = .next t ∧
      t = { s with rx := t.rx, size := data.length, rpos := 0, rstatus := .ok,
                   answer := some (.done .none) } ∧
      (∀ i, i < data.length → Memory.read t.rx i = data[i]?) ∧
      (∀ i, data.length ≤ i → Memory.read t.rx i = Memory.read s.rx i))

/-- 10_state.md R21, whole: CLEAR_TX empties TX and touches nothing else. -/
def Obligations.ClearTxEmptiesTheOutput : Prop :=
  CommandCode .clearTx 0x03#8 ∧
  ∀ s : State, exec .clearTx s = .next { s with tx := [], answer := some (.done .none) }

/-- 10_state.md R18, whole: bytes of RX at and beyond SIZE are not observable, whatever is issued. -/
def Obligations.BytesBeyondSizeAreHidden : Prop :=
  ∀ (i : Instr) (s s' : State), SameBelowSize s s' →
    ∃ t t', exec i s = .next t ∧ exec i s' = .next t' ∧ SameBelowSize t t'

/-- 10_state.md R12, R14, R15, 20_memory.md R43: RX and SIZE change only by a load or a reset, TX only by
the write side, CLEAR_TX, RESET and SERIALIZE. -/
def Obligations.OnlyLoadsChangeRxAndOnlyWritesChangeTx : Prop :=
  ∀ (i : Instr) (s : State), ∃ t, exec i s = .next t ∧ t.host = s.host ∧
    (i ≠ .reset → (∀ data, i ≠ .loadRx data) → (∀ data, i ≠ .deserialize data) →
      t.rx = s.rx ∧ t.size = s.size) ∧
    (writeSideOp i = false → i ≠ .clearTx → i ≠ .reset → (∀ m, i ≠ .serialize m) → t.tx = s.tx)

/-! ## Cursor reads (41_cursor_read.md) -/

/-- 41_cursor_read.md R100, whole: the gate of every read-side operation. A faulted status is answered
and nothing changes; else the body moves RPOS and completes, or records and answers its fault. -/
def Obligations.ReadSideGateAnswersOrRecords : Prop :=
  ∀ (i : Instr) (s : State), readSideOp i = true →
    (∀ f, s.rstatus = .fault f → exec i s = .next (s.answered (.fault f))) ∧
    (s.Inv → s.rstatus = .ok → (∃ p r, exec i s = .next (s.readTo p r)) ∨
      ∃ p f, exec i s = .next (s.faultAt p f))

/-- 60_exceptions.md R191, whole: after a fault every read-side operation is answered with it and changes
nothing until a load or a reset; every other operation is not affected by the record. -/
def Obligations.FaultRecordIsStickyForReadsOnly : Prop :=
  (∀ (i : Instr) (s : State) (f : FaultInfo), s.rstatus = .fault f →
    i ≠ .reset → (∀ data, i ≠ .loadRx data) → (∀ data, i ≠ .deserialize data) →
    ∃ t, exec i s = .next t ∧ t.rstatus = .fault f ∧
      (readSideOp i = true → t = s.answered (.fault f))) ∧
  ∀ (i : Instr) (s : State) (r : RStatus), writeSideOp i = true ∨ pureOp i = true ∨ i = .clearTx →
    ∃ t, exec i s = .next t ∧ exec i { s with rstatus := r } = .next { t with rstatus := r }

/-- 41_cursor_read.md R101, whole. -/
def Obligations.ReadU8TakesTheNextByte : Prop :=
  CommandCode .readU8 0x10#8 ∧
  ∀ s : State, s.Inv → s.rstatus = .ok →
    (s.rpos < s.size → ∃ v, ByteAt s.buf s.rpos v ∧
      exec .readU8 s = .next (s.readTo (s.rpos + 1) (.u8 v))) ∧
    (s.rpos = s.size → exec .readU8 s = .next (s.faultAt s.rpos .truncatedMessage))

/-- 41_cursor_read.md R102, whole. -/
def Obligations.ReadU16IsBigEndian : Prop :=
  CommandCode .readU16 0x11#8 ∧
  ∀ s : State, s.Inv → s.rstatus = .ok →
    (s.rpos + 2 ≤ s.size → ∃ v, U16At s.buf s.rpos v ∧
      exec .readU16 s = .next (s.readTo (s.rpos + 2) (.u16 v))) ∧
    (s.size < s.rpos + 2 → exec .readU16 s = .next (s.faultAt s.size .truncatedMessage))

/-- 41_cursor_read.md R103, whole. -/
def Obligations.ReadU32IsBigEndian : Prop :=
  CommandCode .readU32 0x12#8 ∧
  ∀ s : State, s.Inv → s.rstatus = .ok →
    (s.rpos + 4 ≤ s.size → ∃ v, U32At s.buf s.rpos v ∧
      exec .readU32 s = .next (s.readTo (s.rpos + 4) (.u32 v))) ∧
    (s.size < s.rpos + 4 → exec .readU32 s = .next (s.faultAt s.size .truncatedMessage))

/-- 41_cursor_read.md R104, whole. -/
def Obligations.ReadBytesIsAllOrNothing : Prop :=
  ∀ n : Word16, CommandCode (.readBytes n) 0x13#8 ∧
    ∀ s : State, s.Inv → s.rstatus = .ok →
      (n.toNat ≤ s.size - s.rpos → ∃ bs, bs.length = n.toNat ∧ BytesAt s.buf s.rpos bs ∧
        exec (.readBytes n) s = .next (s.readTo (s.rpos + n.toNat) (.bytes bs))) ∧
      (s.size - s.rpos < n.toNat →
        exec (.readBytes n) s = .next (s.faultAt s.size .truncatedMessage))

/-- 41_cursor_read.md R105, whole. -/
def Obligations.SetPositionIsBoundedBySize : Prop :=
  ∀ p : Nat, CommandCode (.setPosition p) 0x14#8 ∧
    ∀ s : State, s.rstatus = .ok →
      (p ≤ s.size → exec (.setPosition p) s = .next (s.readTo p .none)) ∧
      (s.size < p → exec (.setPosition p) s = .next (s.faultAt s.rpos .truncatedMessage))

/-! ## READ_NAME (42_name_decode.md) -/

/-- 42_name_decode.md R117, R118, whole: READ_NAME completes exactly where a name stands, with the join
of its labels in order and the cursor just after the name's own encoding. -/
def Obligations.ReadNameDecodesExactlyWhatStands : Prop :=
  ∀ s : State, s.Inv → s.rstatus = .ok →
    (∀ labels e, NameAt s.buf 0 s.rpos labels e →
      exec .readName s = .next (s.readTo e (.name (join dot labels)))) ∧
    (∀ t r, exec .readName s = .next t → t.answer = some (.done r) →
      ∃ labels e, NameAt s.buf 0 s.rpos labels e ∧ t = s.readTo e (.name (join dot labels)))

/-- 42_name_decode.md R114: where the name ends in a pointer, READ_NAME leaves RPOS just after that
pointer's two bytes, on success and on every fault. -/
def Obligations.PointerRestoresTheCursorOnEveryPath : Prop :=
  ∀ (s : State) (labels : List (List Byte)) (q off : Nat), s.Inv → s.rstatus = .ok →
    LabelsAt s.buf s.rpos labels q → PointerAt s.buf q off →
    (∃ n, exec .readName s = .next (s.readTo (q + 2) (.name n))) ∨
    ∃ f, exec .readName s = .next (s.faultAt (q + 2) f)

/-- 42_name_decode.md R115: READ_NAME is answered PointerLimitExceeded exactly where a pointer is met
after five have been followed, whatever its target. -/
def Obligations.SixthPointerExceedsTheLimit : Prop :=
  ∀ s : State, s.Inv → s.rstatus = .ok →
    ((∃ t, exec .readName s = .next t ∧ t.answer = some (.fault .pointerLimitExceeded)) ↔
      ∃ q off, Reaches s.buf s.rpos 5 q ∧ PointerAt s.buf q off)

/-- 42_name_decode.md R116, whole: a byte 64 to 191 where a name element begins is
InvalidLabelEncoding, consumed unless a restore of R114 moves the cursor back. -/
def Obligations.UndefinedLengthByteIsInvalid : Prop :=
  ∀ (s : State) (h q : Nat) (v : Byte), s.Inv → s.rstatus = .ok → h ≤ 5 →
    Reaches s.buf s.rpos h q → ByteAt s.buf q v → 64 ≤ v.toNat → v.toNat ≤ 191 →
    ∃ p, exec .readName s = .next (s.faultAt p .invalidLabelEncoding) ∧ (h = 0 → p = q + 1)

/-- 42_name_decode.md R112, R113, 60_exceptions.md R189, R194: an element cut off by the end of the
buffer, at most five pointers in, and a pointer above SIZE, fewer than five in, are TruncatedMessage. -/
def Obligations.CutOffNameIsTruncated : Prop :=
  ∀ (s : State) (h q : Nat), s.Inv → s.rstatus = .ok → Reaches s.buf s.rpos h q →
    (h ≤ 5 → CutOffAt s.buf q →
      ∃ p, exec .readName s = .next (s.faultAt p .truncatedMessage) ∧ (h = 0 → p = s.size)) ∧
    (∀ off, h < 5 → PointerAt s.buf q off → s.size < off →
      ∃ p, exec .readName s = .next (s.faultAt p .truncatedMessage) ∧ (h = 0 → p = q + 2))

/-- 42_name_decode.md R119: a decoded name has fewer than `(POINTER_LIMIT + 1) * SIZE` codes. -/
def Obligations.DecodedNameIsBounded : Prop :=
  ∀ (s t : State) (n : Name), s.Inv → s.rstatus = .ok → exec .readName s = .next t →
    t.answer = some (.done (.name n)) → n.length < (Config.pointerLimit + 1) * s.size

/-- 42_name_decode.md R121: the worked property of the source. The codes are those of "example". -/
def Obligations.PointerToExampleReadsExample : Prop :=
  ∀ (s : State) (x : Nat), s.Inv → s.rstatus = .ok →
    BytesAt s.buf x [0x07#8, 0x65#8, 0x78#8, 0x61#8, 0x6D#8, 0x70#8, 0x6C#8, 0x65#8, 0x00#8] →
    PointerAt s.buf s.rpos x →
    exec .readName s = .next (s.readTo (s.rpos + 2)
      (.name [0x65#8, 0x78#8, 0x61#8, 0x6D#8, 0x70#8, 0x6C#8, 0x65#8]))

/-! ## The write side (43_writer.md) -/

/-- 43_writer.md R125, 10_state.md R15: a write-side operation appends the same bytes in every state or
is refused in every state; a read-side operation neither reads nor writes TX. -/
def Obligations.WriteSideAppendsAllOrNothing : Prop :=
  (∀ i, writeSideOp i = true → (∃ w, Appends i w) ∨ Refuses i) ∧
  ∀ (i : Instr) (s : State) (tx : List Byte), readSideOp i = true →
    ∃ t, exec i s = .next t ∧ t.tx = s.tx ∧ exec i { s with tx := tx } = .next { t with tx := tx }

/-- 43_writer.md R126, whole. -/
def Obligations.WriteU16AppendsTwoBytes : Prop :=
  ∀ v : Word16, CommandCode (.writeU16 v) 0x20#8 ∧
    Appends (.writeU16 v) [BitVec.ofNat 8 (v.toNat / 2 ^ 8), BitVec.ofNat 8 v.toNat]

/-- 43_writer.md R127, whole. -/
def Obligations.WriteU32AppendsFourBytes : Prop :=
  ∀ v : Word32, CommandCode (.writeU32 v) 0x21#8 ∧
    Appends (.writeU32 v) [BitVec.ofNat 8 (v.toNat / 2 ^ 24), BitVec.ofNat 8 (v.toNat / 2 ^ 16),
      BitVec.ofNat 8 (v.toNat / 2 ^ 8), BitVec.ofNat 8 v.toNat]

/-- 43_writer.md R128, R133, whole. -/
def Obligations.WriteNameAppendsItsSegments : Prop :=
  ∀ n : Name, CommandCode (.writeName n) 0x22#8 ∧ (TooLong n → Refuses (.writeName n)) ∧
    (¬ TooLong n → ∃ w, Appends (.writeName n) w ∧ w.length = n.length + 2 ∧
      w = ((split dot n).flatMap fun seg => BitVec.ofNat 8 seg.length :: seg) ++ [0x00#8])

/-- 43_writer.md R129: an empty segment is written as the terminator, so where the segments before the
first empty one have 1 to 63 codes, READ_NAME gives those back and stops after the terminator; and the
four rows of the rule's table (the codes are `a`, `b` and the separator). -/
def Obligations.EmptySegmentsReadBackAsTheEnd : Prop :=
  (∀ (n : Name) (pre post : List (List Byte)), split dot n = pre ++ [] :: post →
    (∀ seg ∈ pre, 1 ≤ seg.length ∧ seg.length ≤ 63) → ¬ TooLong n →
    Appends (.writeName n)
        ((pre.flatMap fun seg => BitVec.ofNat 8 seg.length :: seg) ++ 0x00#8 ::
          (post.flatMap fun seg => BitVec.ofNat 8 seg.length :: seg) ++ [0x00#8]) ∧
      ∀ s : State, s.Inv → s.rstatus = .ok →
        BytesAt s.buf s.rpos ((pre.flatMap fun seg => BitVec.ofNat 8 seg.length :: seg) ++ [0x00#8]) →
        exec .readName s = .next (s.readTo
          (s.rpos + (pre.flatMap fun seg => BitVec.ofNat 8 seg.length :: seg).length + 1)
          (.name (join dot pre)))) ∧
  ∀ row ∈ [(([] : Name), [0x00#8, 0x00#8], ([] : Name), 1),
      ([0x61#8, dot], [0x01#8, 0x61#8, 0x00#8, 0x00#8], [0x61#8], 3),
      ([dot, 0x61#8], [0x00#8, 0x01#8, 0x61#8, 0x00#8], [], 1),
      ([0x61#8, dot, dot, 0x62#8], [0x01#8, 0x61#8, 0x00#8, 0x01#8, 0x62#8, 0x00#8], [0x61#8], 3)],
    Appends (.writeName row.1) row.2.1 ∧
    ∀ s : State, s.Inv → s.rstatus = .ok → BytesAt s.buf s.rpos row.2.1 →
      exec .readName s = .next (s.readTo (s.rpos + row.2.2.2) (.name row.2.2.1))

/-- 43_writer.md R131, whole: the bytes of a valid name are labels of 1 to 63 codes and a terminator,
no pointer, and READ_NAME over them gives the name back and ends just after them. -/
def Obligations.ValidNameRoundTrips : Prop :=
  ∀ n : Name, validName n = true → ∃ w, Appends (.writeName n) w ∧ w.length = n.length + 2 ∧
    ∀ s : State, s.Inv → s.rstatus = .ok → BytesAt s.buf s.rpos w →
      LabelsAt s.buf s.rpos (split dot n) (s.rpos + n.length + 1) ∧
      ByteAt s.buf (s.rpos + n.length + 1) 0x00#8 ∧
      exec .readName s = .next (s.readTo (s.rpos + n.length + 2) (.name n))

/-! ## Enumerations (40_enums.md)

The ordinals are the spec's tables R81 to R84; all but `A` = 1 and `IN` = 1 are general knowledge by
the spec's own marking (log 9). -/

/-- 40_enums.md R81, R85, R86 (ordinals: log 9). -/
def Obligations.OpcodeConversionsFollowTheTable : Prop :=
  (∀ o, CommandCode (.opcodeFrom o) 0x30#8) ∧ (∀ m, CommandCode (.opcodeTo m) 0x31#8) ∧
  ∀ s : State,
    (∀ row ∈ [(Opcode.query, 0#4), (.iquery, 1#4), (.status, 2#4)],
      exec (.opcodeFrom row.2) s = .next (s.answered (.done (.opcode row.1))) ∧
      exec (.opcodeTo row.1) s = .next (s.answered (.done (.ordinal4 row.2)))) ∧
    (∀ o : BitVec 4, 3 ≤ o.toNat → exec (.opcodeFrom o) s =
      .next (s.answered (.fault (.unknownEnumValue .opcode (o.setWidth 16)))))

/-- 40_enums.md R82, R87, R88 (ordinals: log 9). -/
def Obligations.RcodeConversionsFollowTheTable : Prop :=
  (∀ o, CommandCode (.rcodeFrom o) 0x32#8) ∧ (∀ m, CommandCode (.rcodeTo m) 0x33#8) ∧
  ∀ s : State,
    (∀ row ∈ [(Rcode.noerror, 0#4), (.formerr, 1#4), (.servfail, 2#4), (.nxdomain, 3#4),
        (.notimp, 4#4), (.refused, 5#4)],
      exec (.rcodeFrom row.2) s = .next (s.answered (.done (.rcode row.1))) ∧
      exec (.rcodeTo row.1) s = .next (s.answered (.done (.ordinal4 row.2)))) ∧
    (∀ o : BitVec 4, 6 ≤ o.toNat → exec (.rcodeFrom o) s =
      .next (s.answered (.fault (.unknownEnumValue .rcode (o.setWidth 16)))))

/-- 40_enums.md R83, R89, R90 (ordinals: log 9). -/
def Obligations.TypeConversionsFollowTheTable : Prop :=
  (∀ o, CommandCode (.typeFrom o) 0x34#8) ∧ (∀ m, CommandCode (.typeTo m) 0x35#8) ∧
  ∀ s : State,
    (∀ row ∈ [(RType.a, 1#16), (.ns, 2#16), (.md, 3#16), (.mf, 4#16), (.cname, 5#16), (.soa, 6#16),
        (.mb, 7#16), (.mg, 8#16), (.mr, 9#16), (.null, 10#16)] ++
        [(.wks, 11#16), (.ptr, 12#16), (.hinfo, 13#16), (.minfo, 14#16), (.mx, 15#16), (.txt, 16#16),
        (.axfr, 252#16), (.mailb, 253#16), (.maila, 254#16), (.any, 255#16)],
      exec (.typeFrom row.2) s = .next (s.answered (.done (.type row.1))) ∧
      exec (.typeTo row.1) s = .next (s.answered (.done (.ordinal16 row.2)))) ∧
    (∀ o : Word16, o.toNat = 0 ∨ 17 ≤ o.toNat ∧ o.toNat ≤ 251 ∨ 256 ≤ o.toNat →
      exec (.typeFrom o) s = .next (s.answered (.fault (.unknownEnumValue .type o))))

/-- 40_enums.md R84, R91, R92 (ordinals: log 9). -/
def Obligations.ClassConversionsFollowTheTable : Prop :=
  (∀ o, CommandCode (.classFrom o) 0x36#8) ∧ (∀ m, CommandCode (.classTo m) 0x37#8) ∧
  ∀ s : State,
    (∀ row ∈ [(RClass.inet, 1#16), (.cs, 2#16), (.ch, 3#16), (.hs, 4#16), (.any, 255#16)],
      exec (.classFrom row.2) s = .next (s.answered (.done (.cls row.1))) ∧
      exec (.classTo row.1) s = .next (s.answered (.done (.ordinal16 row.2)))) ∧
    (∀ o : Word16, o.toNat = 0 ∨ 5 ≤ o.toNat ∧ o.toNat ≤ 254 ∨ 256 ≤ o.toNat →
      exec (.classFrom o) s = .next (s.answered (.fault (.unknownEnumValue .cls o))))

/-- 40_enums.md R93, whole: the two conversions invert each other over any injective table, and for the
four enumerations of the block. -/
def Obligations.ConversionsInvertEachOther : Prop :=
  (∀ (M : Type) (w : Nat) (members : List M) (ord : M → BitVec w), (∀ m, m ∈ members) →
    (∀ m m', ord m = ord m' → m = m') →
    (∀ m, enumFrom members ord (ord m) = some m) ∧
    (∀ o m, enumFrom members ord o = some m → ord m = o)) ∧
  ∀ s : State,
    (∀ o m, exec (.opcodeTo m) s = .next (s.answered (.done (.ordinal4 o))) ↔
      exec (.opcodeFrom o) s = .next (s.answered (.done (.opcode m)))) ∧
    (∀ o m, exec (.rcodeTo m) s = .next (s.answered (.done (.ordinal4 o))) ↔
      exec (.rcodeFrom o) s = .next (s.answered (.done (.rcode m)))) ∧
    (∀ o m, exec (.typeTo m) s = .next (s.answered (.done (.ordinal16 o))) ↔
      exec (.typeFrom o) s = .next (s.answered (.done (.type m)))) ∧
    (∀ o m, exec (.classTo m) s = .next (s.answered (.done (.ordinal16 o))) ↔
      exec (.classFrom o) s = .next (s.answered (.done (.cls m))))

/-! ## Header (44_header.md) -/

/-- 44_header.md R141, whole: HDR_ENC appends six words in order, the second assembled from its
fields, and no flags word it writes is above 0x97f5. -/
def Obligations.HeaderEncodesAsSixWords : Prop :=
  ∀ h : Header, CommandCode (.hdrEnc h) 0x40#8 ∧
    ∃ (F : Word16) (w0 w1 w2 w3 w4 w5 : List Byte),
      F.toNat = h.qr.toNat * 2 ^ 15 + (opcodeTab h.opcode).toNat * 2 ^ 11 + h.aa.toNat * 2 ^ 10 +
        h.tc.toNat * 2 ^ 9 + h.rd.toNat * 2 ^ 8 + h.ra.toNat * 2 ^ 7 + h.z.toNat * 2 ^ 4 +
        (rcodeTab h.rcode).toNat ∧
      F.toNat ≤ 0x97f5 ∧
      Appends (.writeU16 h.id) w0 ∧ Appends (.writeU16 F) w1 ∧ Appends (.writeU16 h.qdcount) w2 ∧
      Appends (.writeU16 h.ancount) w3 ∧ Appends (.writeU16 h.nscount) w4 ∧
      Appends (.writeU16 h.arcount) w5 ∧
      Appends (.hdrEnc h) (w0 ++ w1 ++ w2 ++ w3 ++ w4 ++ w5) ∧
      (w0 ++ w1 ++ w2 ++ w3 ++ w4 ++ w5).length = 12

/-- 44_header.md R142, whole: HDR_DEC reads what stands, and checks opcode, then response code, then
the counts' presence, in that order. -/
def Obligations.HeaderDecodeChecksInOrder : Prop :=
  CommandCode .hdrDec 0x41#8 ∧
  ∀ s : State, s.Inv → s.rstatus = .ok →
    (s.size < s.rpos + 4 → exec .hdrDec s = .next (s.faultAt s.size .truncatedMessage)) ∧
    (s.rpos + 4 ≤ s.size → ∃ F : Word16, U16At s.buf (s.rpos + 2) F ∧
      (3 ≤ (F.extractLsb' 11 4).toNat → exec .hdrDec s = .next (s.faultAt (s.rpos + 4)
        (.unknownEnumValue .opcode ((F.extractLsb' 11 4).setWidth 16)))) ∧
      ((F.extractLsb' 11 4).toNat < 3 → 6 ≤ (F.extractLsb' 0 4).toNat →
        exec .hdrDec s = .next (s.faultAt (s.rpos + 4)
          (.unknownEnumValue .rcode ((F.extractLsb' 0 4).setWidth 16)))) ∧
      ((F.extractLsb' 11 4).toNat < 3 → (F.extractLsb' 0 4).toNat < 6 → s.size < s.rpos + 12 →
        exec .hdrDec s = .next (s.faultAt s.size .truncatedMessage)) ∧
      ((F.extractLsb' 11 4).toNat < 3 → (F.extractLsb' 0 4).toNat < 6 → s.rpos + 12 ≤ s.size →
        ∃ h, HeaderAt s.buf s.rpos h ∧
          exec .hdrDec s = .next (s.readTo (s.rpos + 12) (.header h))))

/-- 44_header.md R143 (its two laws, not its count), R144: header to bytes to header, and bytes to
header to bytes. -/
def Obligations.HeaderRoundTripsBothWays : Prop :=
  (∀ (h : Header) (w : List Byte) (s : State), s.Inv → s.rstatus = .ok → Appends (.hdrEnc h) w →
    BytesAt s.buf s.rpos w →
    exec .hdrDec s = .next (s.readTo (s.rpos + 12) (.header h))) ∧
  ∀ (h : Header) (w : List Byte) (s t : State), s.Inv → s.rstatus = .ok → w.length = 12 →
    BytesAt s.buf s.rpos w → exec .hdrDec s = .next t → t.answer = some (.done (.header h)) →
    Appends (.hdrEnc h) w

/-! ## Questions and records (45_question_record.md) -/

/-- 45_question_record.md R151, whole. -/
def Obligations.QuestionEncodesItsParts : Prop :=
  ∀ q : Question, CommandCode (.qEnc q) 0x50#8 ∧ (TooLong q.qname → Refuses (.qEnc q)) ∧
    (¬ TooLong q.qname → ∃ wn wt wc, Appends (.writeName q.qname) wn ∧
      Appends (.writeU16 (typeTab q.qtype)) wt ∧ Appends (.writeU16 (classTab q.qclass)) wc ∧
      Appends (.qEnc q) (wn ++ wt ++ wc) ∧ (wn ++ wt ++ wc).length = q.qname.length + 6)

/-- 45_question_record.md R152, whole: a name's fault passes through unchanged; then type, then class,
each read and checked in that order. -/
def Obligations.QuestionDecodesInOrder : Prop :=
  CommandCode .qDec 0x51#8 ∧
  ∀ s : State, s.Inv → s.rstatus = .ok →
    (∀ p f, exec .readName s = .next (s.faultAt p f) → exec .qDec s = .next (s.faultAt p f)) ∧
    ∀ labels n, NameAt s.buf 0 s.rpos labels n →
      (s.size < n + 2 → exec .qDec s = .next (s.faultAt s.size .truncatedMessage)) ∧
      (∀ v, U16At s.buf n v → (∀ ty, typeTab ty ≠ v) →
        exec .qDec s = .next (s.faultAt (n + 2) (.unknownEnumValue .type v))) ∧
      (∀ ty, U16At s.buf n (typeTab ty) →
        (s.size < n + 4 → exec .qDec s = .next (s.faultAt s.size .truncatedMessage)) ∧
        (∀ v, U16At s.buf (n + 2) v → (∀ cl, classTab cl ≠ v) →
          exec .qDec s = .next (s.faultAt (n + 4) (.unknownEnumValue .cls v))) ∧
        (∀ cl, U16At s.buf (n + 2) (classTab cl) →
          exec .qDec s = .next (s.readTo (n + 4)
            (.question { qname := join dot labels, qtype := ty, qclass := cl }))))

/-- 45_question_record.md R153, whole. -/
def Obligations.RecordEncodesItsPartsOrIsRefused : Prop :=
  ∀ r : Record, CommandCode (.rrEnc r) 0x52#8 ∧
    (r.rdlength.toNat ≠ r.rdata.length ∨ TooLong r.name → Refuses (.rrEnc r)) ∧
    (r.rdlength.toNat = r.rdata.length → ¬ TooLong r.name → ∃ wn wt wc wl wd,
      Appends (.writeName r.name) wn ∧ Appends (.writeU16 (typeTab r.type)) wt ∧
      Appends (.writeU16 (classTab r.cls)) wc ∧ Appends (.writeU32 r.ttl) wl ∧
      Appends (.writeU16 r.rdlength) wd ∧
      Appends (.rrEnc r) (wn ++ wt ++ wc ++ wl ++ wd ++ r.rdata) ∧
      (wn ++ wt ++ wc ++ wl ++ wd ++ r.rdata).length = r.name.length + 12 + r.rdlength.toNat)

/-- 45_question_record.md R154, R155, whole: as R152 up to the class, then time-to-live, length and
exactly that many payload bytes. -/
def Obligations.RecordDecodesInOrder : Prop :=
  CommandCode .rrDec 0x53#8 ∧
  ∀ s : State, s.Inv → s.rstatus = .ok →
    (∀ p f, exec .readName s = .next (s.faultAt p f) → exec .rrDec s = .next (s.faultAt p f)) ∧
    (∀ t r, exec .rrDec s = .next t → t.answer = some (.done (.record r)) → r.wf = true) ∧
    ∀ labels n, NameAt s.buf 0 s.rpos labels n →
      (s.size < n + 2 → exec .rrDec s = .next (s.faultAt s.size .truncatedMessage)) ∧
      (∀ v, U16At s.buf n v → (∀ ty, typeTab ty ≠ v) →
        exec .rrDec s = .next (s.faultAt (n + 2) (.unknownEnumValue .type v))) ∧
      (∀ ty, U16At s.buf n (typeTab ty) →
        (s.size < n + 4 → exec .rrDec s = .next (s.faultAt s.size .truncatedMessage)) ∧
        (∀ v, U16At s.buf (n + 2) v → (∀ cl, classTab cl ≠ v) →
          exec .rrDec s = .next (s.faultAt (n + 4) (.unknownEnumValue .cls v))) ∧
        (∀ cl, U16At s.buf (n + 2) (classTab cl) →
          (s.size < n + 10 → exec .rrDec s = .next (s.faultAt s.size .truncatedMessage)) ∧
          (∀ ttl len, U32At s.buf (n + 4) ttl → U16At s.buf (n + 8) len →
            (s.size < n + 10 + len.toNat →
              exec .rrDec s = .next (s.faultAt s.size .truncatedMessage)) ∧
            (∀ data, data.length = len.toNat → BytesAt s.buf (n + 10) data →
              exec .rrDec s = .next (s.readTo (n + 10 + len.toNat)
                (.record { name := join dot labels, type := ty, cls := cl, ttl := ttl,
                           rdlength := len, rdata := data }))))))

/-- 45_question_record.md R157, whole. -/
def Obligations.EntriesRoundTrip : Prop :=
  (∀ q : Question, validName q.qname = true → ∃ w, Appends (.qEnc q) w ∧
    ∀ s : State, s.Inv → s.rstatus = .ok → BytesAt s.buf s.rpos w →
      exec .qDec s = .next (s.readTo (s.rpos + w.length) (.question q))) ∧
  ∀ r : Record, r.wf = true → validName r.name = true → ∃ w, Appends (.rrEnc r) w ∧
    ∀ s : State, s.Inv → s.rstatus = .ok → BytesAt s.buf s.rpos w →
      exec .rrDec s = .next (s.readTo (s.rpos + w.length) (.record r))

/-! ## Messages (46_message.md) -/

/-- 46_message.md R171, whole: MSG_ENC appends what HDR_ENC, Q_ENC and RR_ENC append, in order, or is
refused as a whole. -/
def Obligations.MessageEncodesItsPartsOrIsRefused : Prop :=
  ∀ m : Message, CommandCode (.msgEnc m) 0x60#8 ∧
    (m.wf = false ∨ (∃ n ∈ messageNames m, TooLong n) → Refuses (.msgEnc m)) ∧
    (m.wf = true → (∀ n ∈ messageNames m, ¬ TooLong n) → ∃ wh wq wa wn wx,
      Appends (.hdrEnc m.hdr) wh ∧
      List.Forall₂ (fun q w => Appends (.qEnc q) w) m.qd wq ∧
      List.Forall₂ (fun r w => Appends (.rrEnc r) w) m.an wa ∧
      List.Forall₂ (fun r w => Appends (.rrEnc r) w) m.ns wn ∧
      List.Forall₂ (fun r w => Appends (.rrEnc r) w) m.ar wx ∧
      Appends (.msgEnc m) (wh ++ wq.flatten ++ wa.flatten ++ wn.flatten ++ wx.flatten) ∧
      (wh ++ wq.flatten ++ wa.flatten ++ wn.flatten ++ wx.flatten).length =
        12 + (m.qd.map fun q => q.qname.length + 6).sum +
        ((m.an ++ m.ns ++ m.ar).map fun r => r.name.length + 12 + r.rdlength.toNat).sum)

/-- 46_message.md R172, whole: MSG_DEC is HDR_DEC and then as many Q_DEC and RR_DEC as the counts say,
in order; it ends where they end, with what they return, or with the first fault they raise. -/
def Obligations.MessageDecodeIsItsSequenceOfOperations : Prop :=
  CommandCode .msgDec 0x61#8 ∧
  ∀ s : State, s.Inv → s.rstatus = .ok → ∃ t, exec .msgDec s = .next t ∧
    (∀ p f, exec .hdrDec s = .next (s.faultAt p f) → t = s.faultAt p f) ∧
    ∀ p h, exec .hdrDec s = .next (s.readTo p (.header h)) →
      ∃ rs u, Runs (messageOps h) (s.readTo p (.header h)) rs u ∧
        ((∃ f, t.answer = some (.fault f) ∧ u = t) ∨
         ∃ m, t = u.answered (.done (.message m)) ∧ u.rstatus = .ok ∧ m.hdr = h ∧
          rs = (m.qd.map fun q => .done (.question q)) ++
            ((m.an ++ m.ns ++ m.ar).map fun r => .done (.record r)) ∧
          m.qd.length = h.qdcount.toNat ∧ m.an.length = h.ancount.toNat ∧
          m.ns.length = h.nscount.toNat ∧ m.ar.length = h.arcount.toNat)

/-- 46_message.md R173, whole: MSG_DEC succeeds exactly where a message stands, whatever bytes are left
between its end and SIZE. -/
def Obligations.MessageDecodesExactlyWhatStands : Prop :=
  ∀ s : State, s.Inv → s.rstatus = .ok →
    (∀ m e, MessageAt s.buf s.rpos m e → exec .msgDec s = .next (s.readTo e (.message m))) ∧
    (∀ t r, exec .msgDec s = .next t → t.answer = some (.done r) →
      ∃ m e, MessageAt s.buf s.rpos m e ∧ t = s.readTo e (.message m))

/-- 46_message.md R174: every message MSG_DEC returns is well formed. -/
def Obligations.DecodedMessagesAreWellFormed : Prop :=
  ∀ (s t : State) (m : Message), exec .msgDec s = .next t → t.answer = some (.done (.message m)) →
    m.wf = true

/-- 46_message.md R176, whole. -/
def Obligations.BuildRequestWrapsTheQuestion : Prop :=
  ∀ (id : Word16) (q : Question), CommandCode (.buildRequest id q) 0x62#8 ∧
    ∃ m : Message, m.wf = true ∧ m.qd = [q] ∧ m.an = [] ∧ m.ns = [] ∧ m.ar = [] ∧
      m.hdr = { id := id, qr := false, opcode := .query, aa := false, tc := false, rd := true,
                ra := false, z := 0, rcode := .noerror, qdcount := 1, ancount := 0, nscount := 0,
                arcount := 0 } ∧
      ∀ s : State, exec (.buildRequest id q) s = .next (s.answered (.done (.message m)))

/-- 46_message.md R177, whole: DESERIALIZE is LOAD_RX and then MSG_DEC; refused above the capacity. -/
def Obligations.DeserializeIsLoadThenDecode : Prop :=
  ∀ data : List Byte, (Config.bufCap < data.length → Refuses (.deserialize data)) ∧
    (data.length ≤ Config.bufCap → ∀ s : State, ∃ t u, exec (.loadRx data) s = .next t ∧
      exec .msgDec t = .next u ∧ exec (.deserialize data) s = .next u)

/-- 46_message.md R178: SERIALIZE is CLEAR_TX and then MSG_ENC, and its result is TX. That a
refused MSG_ENC leaves TX cleared is the model's reading of the expansion (log 11). -/
def Obligations.SerializeIsClearThenEncode : Prop :=
  ∀ m : Message,
    (m.wf = true → (∀ n ∈ messageNames m, ¬ TooLong n) → ∃ w, Appends (.msgEnc m) w ∧
      ∀ s : State, exec (.serialize m) s =
        .next { s with tx := w, answer := some (.done (.bytes w)) }) ∧
    ∀ s : State, ∃ t u, exec .clearTx s = .next t ∧ exec (.msgEnc m) t = .next u ∧
      (u.answer = some .refused → exec (.serialize m) s = .next u) ∧
      (u.answer = some (.done .none) →
        exec (.serialize m) s = .next (u.answered (.done (.bytes u.tx))))

/-- 46_message.md R179, whole. -/
def Obligations.MessageRoundTrips : Prop :=
  ∀ (m : Message) (s s' : State), m.roundTrippable = true → ∃ bs,
    exec (.serialize m) s = .next { s with tx := bs, answer := some (.done (.bytes bs)) } ∧
    (s'.Inv → bs.length ≤ Config.bufCap → ∃ t, exec (.deserialize bs) s' = .next t ∧
      t.answer = some (.done (.message m)) ∧ t.rpos = t.size ∧ t.size = bs.length ∧
      t.rstatus = .ok ∧ t.tx = s'.tx)

/-- 20_memory.md R36, 46_message.md R172, R179: every proper prefix of a round-trippable message's
encoding is TruncatedMessage, with all of it consumed. -/
def Obligations.EveryProperPrefixIsTruncated : Prop :=
  ∀ (m : Message) (bs : List Byte) (n : Nat) (s : State), s.Inv → m.roundTrippable = true →
    Appends (.msgEnc m) bs → bs.length ≤ Config.bufCap → n < bs.length →
    ∃ t, exec (.deserialize (bs.take n)) s = .next t ∧
      t.answer = some (.fault .truncatedMessage) ∧ t.rstatus = .fault .truncatedMessage ∧
      t.rpos = n ∧ t.size = n ∧ t.tx = s.tx

/-! ## Faults and refusals (60_exceptions.md) -/

/-- 60_exceptions.md R187: an operation is answered with no fault the table does not give it, unless
the gate answers with the one already recorded. -/
def Obligations.OperationsRaiseOnlyTheirFaults : Prop :=
  ∀ (i : Instr) (s t : State) (f : FaultInfo), s.rstatus = .ok → exec i s = .next t →
    t.answer = some (.fault f) → mayRaise i f = true ∧ faultLegal f

/-- 60_exceptions.md R197, whole: a command is refused exactly on the operands of the list, with the
state as it was; and every code outside 30_encoding.md R52 is refused. -/
def Obligations.RefusalsAreExactlyTheList : Prop :=
  (∀ i, (encode i).format = .command → (Refusable i → Refuses i) ∧
    (¬ Refusable i → ∀ s : State, ∃ t, exec i s = .next t ∧ t.answer ≠ some .refused)) ∧
  ∀ (s : State) (code : Byte) (operands : List Byte) (rest : List Transaction),
    s.host = ⟨.command, code :: operands⟩ :: rest →
    code.toNat ∉ [0x01, 0x02, 0x03, 0x10, 0x11, 0x12, 0x13, 0x14, 0x15, 0x20, 0x21, 0x22, 0x30, 0x31,
      0x32, 0x33, 0x34, 0x35, 0x36, 0x37, 0x40, 0x41, 0x50, 0x51, 0x52, 0x53, 0x60, 0x61, 0x62] →
    step s = .next { s with host := rest, answer := some .refused }

/-- 60_exceptions.md R186, 10_state.md R16: RSTATUS in numbers; the widths are the model's (log 17). -/
def Obligations.StatusNumbersAreTheStatedOnes : Prop :=
  statusCode .ok = (0, 0, 0) ∧ statusCode (.fault .truncatedMessage) = (1, 0, 0) ∧
  statusCode (.fault .invalidLabelEncoding) = (2, 0, 0) ∧
  statusCode (.fault .pointerLimitExceeded) = (3, 0, 0) ∧
  ∀ v, statusCode (.fault (.unknownEnumValue .opcode v)) = (4, 1, v) ∧
    statusCode (.fault (.unknownEnumValue .rcode v)) = (4, 2, v) ∧
    statusCode (.fault (.unknownEnumValue .type v)) = (4, 3, v) ∧
    statusCode (.fault (.unknownEnumValue .cls v)) = (4, 4, v)

/-! ## The table's encoding rows (30_encoding.md, 40_enums.md; their meaning: log 10) -/

/-- 30_encoding.md R53 to R59, R62, R63, 42_name_decode.md R116: the flags-word, name-element and layout
rows answer what the codec reads or writes for them and change nothing (log 10). -/
def Obligations.FormatRowsAnswerWhatTheCodecDoes : Prop :=
  ∀ s : State,
    (∀ (w : Word16) (op : Opcode) (rc : Rcode), w.extractLsb' 11 4 = opcodeTab op →
      w.extractLsb' 0 4 = rcodeTab rc → exec (.wireFlags w) s = .next (s.answered (.done (.flags
        { qr := w.getLsbD 15, opcode := op, aa := w.getLsbD 10, tc := w.getLsbD 9,
          rd := w.getLsbD 8, ra := w.getLsbD 7, z := w.extractLsb' 4 3, rcode := rc })))) ∧
    exec .wireNameEnd s = .next (s.answered (.done (.element .terminator))) ∧
    (∀ len : BitVec 6, len ≠ 0 →
      exec (.wireNameLabel len) s = .next (s.answered (.done (.element (.label len))))) ∧
    (∀ off, exec (.wireNamePointer off) s = .next (s.answered (.done (.element (.pointer off))))) ∧
    (∀ x, exec (.wireNameInvalid01 x) s = .next (s.answered (.fault .invalidLabelEncoding))) ∧
    (∀ x, exec (.wireNameInvalid10 x) s = .next (s.answered (.fault .invalidLabelEncoding))) ∧
    (∀ h, ∃ w, Appends (.hdrEnc h) w ∧
      exec (.wireHeader h) s = .next (s.answered (.done (.bytes w)))) ∧
    (∀ q, ¬ TooLong q.qname → ∃ w, Appends (.qEnc q) w ∧
      exec (.wireQuestion q) s = .next (s.answered (.done (.bytes w)))) ∧
    (∀ r, r.rdlength.toNat = r.rdata.length → ¬ TooLong r.name → ∃ w, Appends (.rrEnc r) w ∧
      exec (.wireRecord r) s = .next (s.answered (.done (.bytes w)))) ∧
    (∀ m, m.wf = true → (∀ n ∈ messageNames m, ¬ TooLong n) → ∃ w, Appends (.msgEnc m) w ∧
      exec (.wireMessage m) s = .next (s.answered (.done (.bytes w))))

/-- 40_enums.md R81 to R84, 60_exceptions.md R186: a member row answers its member and an error row its
kind, and nothing changes (log 9, log 10). -/
def Obligations.MemberRowsAnswerTheirMember : Prop :=
  ∀ s : State,
    (∀ row ∈ [(Instr.opcodeQuery, Opcode.query), (.opcodeIquery, .iquery), (.opcodeStatus, .status)],
      exec row.1 s = .next (s.answered (.done (.opcode row.2)))) ∧
    (∀ row ∈ [(Instr.rcodeNoerror, Rcode.noerror), (.rcodeFormerr, .formerr),
        (.rcodeServfail, .servfail), (.rcodeNxdomain, .nxdomain), (.rcodeNotimp, .notimp),
        (.rcodeRefused, .refused)],
      exec row.1 s = .next (s.answered (.done (.rcode row.2)))) ∧
    (∀ row ∈ [(Instr.typeA, RType.a), (.typeNs, .ns), (.typeMd, .md), (.typeMf, .mf),
        (.typeCname, .cname), (.typeSoa, .soa), (.typeMb, .mb), (.typeMg, .mg), (.typeMr, .mr),
        (.typeNull, .null)] ++ [(.typeWks, .wks), (.typePtr, .ptr), (.typeHinfo, .hinfo),
        (.typeMinfo, .minfo), (.typeMx, .mx), (.typeTxt, .txt), (.typeAxfr, .axfr),
        (.typeMailb, .mailb), (.typeMaila, .maila), (.typeAny, .any)],
      exec row.1 s = .next (s.answered (.done (.type row.2)))) ∧
    (∀ row ∈ [(Instr.classIn, RClass.inet), (.classCs, .cs), (.classCh, .ch), (.classHs, .hs),
        (.classAny, .any)],
      exec row.1 s = .next (s.answered (.done (.cls row.2)))) ∧
    (∀ row ∈ [(Instr.errTruncatedMessage, FaultKind.truncatedMessage),
        (.errInvalidLabelEncoding, .invalidLabelEncoding),
        (.errPointerLimitExceeded, .pointerLimitExceeded), (.errUnknownEnumValue, .unknownEnumValue)],
      exec row.1 s = .next (s.answered (.done (.kind row.2))))

/-! ## Encoding and steps (30_encoding.md, 00_scope.md R9) -/

/-- 30_encoding.md R50, R52, R55, R58, R59: decoding the encoding of a well-formed instruction, any of
all, gives it back, with every operand at every value. -/
def Obligations.DecodeUndoesEncode : Prop :=
  ∀ i : Instr, i.wf = true → decode (encode i) = .ok i

/-- 30_encoding.md R50, R51, 60_exceptions.md R202: a step is the decoded instruction at the state with
its transaction issued; idle, unassigned and malformed transactions as the model says (log 2, log 12,
log 18). -/
def Obligations.StepRunsTheDecodedInstruction : Prop :=
  (∀ s : State, s.host = [] → step s = .next s) ∧
  (∀ (s : State) (t : Transaction) (rest : List Transaction), s.host = t :: rest →
    (∀ i, decode t = .ok i → step s = exec i { s with host := rest }) ∧
    (∀ r, decode t = .error r → (∀ code, r ≠ .unassignedCode code) →
      step s = .refused .malformedTransaction)) ∧
  ∀ (s : State) (nbits w : Nat) (i : Instr), decodeTableWord nbits w = some i →
    step (s.withFetchWord nbits w) = exec i s

/-- 30_encoding.md R52, R55, R58, R59, 40_enums.md R81 to R84, 60_exceptions.md R186: a few words of the
spec decode to what they stand for (operand carriage: log 1). -/
def Obligations.WrittenWordsDecode : Prop :=
  decode ⟨.command, [0x15#8]⟩ = .ok .readName ∧
  decode ⟨.command, [0x20#8, 0x12#8, 0x34#8]⟩ = .ok (.writeU16 0x1234#16) ∧
  decode ⟨.command, [0x34#8, 0x00#8, 0x05#8]⟩ = .ok (.typeFrom 5#16) ∧
  decode ⟨.command, [0x04#8]⟩ = .error (.unassignedCode 0x04#8) ∧
  decode ⟨.nameElement, [0x07#8]⟩ = .ok (.wireNameLabel 7#6) ∧
  decode ⟨.nameElement, [0xC1#8, 0x02#8]⟩ = .ok (.wireNamePointer 258#14) ∧
  decode ⟨.nameElement, [0x40#8]⟩ = .ok (.wireNameInvalid01 0#6) ∧
  decode ⟨.flags, [0x81#8, 0x80#8]⟩ = .ok (.wireFlags 0x8180#16) ∧
  decode ⟨.typeField, [0x00#8, 0xFF#8]⟩ = .ok .typeAny ∧
  decode ⟨.classField, [0x00#8, 0x01#8]⟩ = .ok .classIn ∧
  decode ⟨.errorCode, [0x04#8]⟩ = .ok .errUnknownEnumValue

/-- 70_reset_and_hazards.md R213, R214, 20_memory.md R40: a host program of well-formed instructions
runs to its end in program order, each answered; and if nothing went wrong RSTATUS is as at its
start. -/
def Obligations.HostProgramRunsToItsEnd : Prop :=
  ∀ (is : List Instr) (s : State), (∀ i ∈ is, i.wf = true) → s.host = is.map encode →
    ∃ rs t, Host.Core.run Sys2Proof.core is.length s = .next t ∧ t.host = [] ∧
      Runs is { s with host := [] } rs t ∧ rs.length = is.length ∧
      ((∀ r ∈ rs, r.wrong = false) → s.rstatus = .ok → t.rstatus = .ok)
end

