-- ==== Sys2Proof/Laws/Bytes.lean ====
section
/-! SUPPORT. The laws of words, bytes and dot-separated sequences. -/

namespace Sys2Proof

/-! ## Words and bytes -/

theorem word16_toNat (b0 b1 : Byte) : (word16 b0 b1).toNat = b0.toNat * 256 + b1.toNat := by
  have h0 := b0.isLt
  have h1 := b1.isLt
  have : (b0.setWidth 16 <<< 8).toNat = b0.toNat <<< 8 := by
    simp only [BitVec.toNat_shiftLeft, BitVec.toNat_setWidth, Nat.shiftLeft_eq]; omega
  rw [word16, BitVec.toNat_or, this, BitVec.toNat_setWidth, Nat.mod_eq_of_lt (a := b1.toNat) (by omega),
    ← Nat.shiftLeft_add_eq_or_of_lt h1, Nat.shiftLeft_eq]

theorem be16_word16 (b0 b1 : Byte) : be16 (word16 b0 b1) = [b0, b1] := by
  have h0 := b0.isLt
  have h1 := b1.isLt
  have h := word16_toNat b0 b1
  simp only [be16, List.cons.injEq, and_true]
  constructor <;> apply BitVec.eq_of_toNat_eq <;>
    simp only [BitVec.extractLsb'_toNat, h, Nat.shiftRight_eq_div_pow] <;> omega

theorem word16_be16 (v : Word16) : word16 (v.extractLsb' 8 8) (v.extractLsb' 0 8) = v := by
  have hv := v.isLt
  apply BitVec.eq_of_toNat_eq
  rw [word16_toNat]
  simp only [BitVec.extractLsb'_toNat, Nat.shiftRight_eq_div_pow]
  omega

theorem word32_toNat (b0 b1 b2 b3 : Byte) : (word32 b0 b1 b2 b3).toNat =
    b0.toNat * 2 ^ 24 + b1.toNat * 2 ^ 16 + b2.toNat * 2 ^ 8 + b3.toNat := by
  have h0 := b0.isLt
  have h1 := b1.isLt
  have h2 := b2.isLt
  have h3 := b3.isLt
  have e0 : (b0.setWidth 32 <<< 24).toNat = b0.toNat <<< 24 := by
    simp only [BitVec.toNat_shiftLeft, BitVec.toNat_setWidth, Nat.shiftLeft_eq]; omega
  have e1 : (b1.setWidth 32 <<< 16).toNat = b1.toNat <<< 16 := by
    simp only [BitVec.toNat_shiftLeft, BitVec.toNat_setWidth, Nat.shiftLeft_eq]; omega
  have e2 : (b2.setWidth 32 <<< 8).toNat = b2.toNat <<< 8 := by
    simp only [BitVec.toNat_shiftLeft, BitVec.toNat_setWidth, Nat.shiftLeft_eq]; omega
  have e3 : (b3.setWidth 32).toNat = b3.toNat := by
    simp only [BitVec.toNat_setWidth]; omega
  have l1 : b1.toNat <<< 16 ||| b2.toNat <<< 8 ||| b3.toNat =
      (b1.toNat * 2 ^ 8 + b2.toNat) * 2 ^ 8 + b3.toNat := by
    rw [show b1.toNat <<< 16 = b1.toNat <<< 8 <<< 8 from by rw [← Nat.shiftLeft_add],
      ← Nat.shiftLeft_or_distrib, ← Nat.shiftLeft_add_eq_or_of_lt h2,
      ← Nat.shiftLeft_add_eq_or_of_lt h3, Nat.shiftLeft_eq, Nat.shiftLeft_eq]
  rw [word32, BitVec.toNat_or, BitVec.toNat_or, BitVec.toNat_or, e0, e1, e2, e3,
    Nat.or_assoc, Nat.or_assoc, ← Nat.or_assoc (b1.toNat <<< 16), l1,
    ← Nat.shiftLeft_add_eq_or_of_lt (i := 24) (by omega), Nat.shiftLeft_eq]
  omega

theorem word32_be32 (v : Word32) :
    word32 (v.extractLsb' 24 8) (v.extractLsb' 16 8) (v.extractLsb' 8 8) (v.extractLsb' 0 8) = v := by
  have hv := v.isLt
  apply BitVec.eq_of_toNat_eq
  rw [word32_toNat]
  simp only [BitVec.extractLsb'_toNat, Nat.shiftRight_eq_div_pow]
  omega

@[simp] theorem be16_length (v : Word16) : (be16 v).length = 2 := rfl
@[simp] theorem be32_length (v : Word32) : (be32 v).length = 4 := rfl

/-! ## Split and join -/

theorem split_ne_nil (d : Byte) (s : List Byte) : split d s ≠ [] := by
  cases s with
  | nil => simp [split]
  | cons b bs =>
    simp only [split]
    split
    · simp
    · split <;> simp

/-- `join(split(s, d), d) = s` (43_writer.md R131). -/
theorem join_split (d : Byte) (s : List Byte) : join d (split d s) = s := by
  induction s with
  | nil => rfl
  | cons b bs ih =>
    simp only [split]
    split
    · rename_i h
      subst h
      cases hs : split b bs with
      | nil => exact absurd hs (split_ne_nil b bs)
      | cons x xs => rw [hs] at ih; simp [join, ih]
    · cases hs : split d bs with
      | nil => exact absurd hs (split_ne_nil d bs)
      | cons x xs =>
        rw [hs] at ih
        cases xs with
        | nil => simpa [join] using ih
        | cons y ys => simpa [join] using ih

/-- A name's bytes: each segment costs one more than its codes, and the segments share the name's
codes and its separators (43_writer.md R133). -/
theorem wireName_length (s : Name) : (Machine.wireName s).length = s.length + 2 := by
  have h : ((split dot s).flatMap Machine.wireSegment).length = s.length + 1 := by
    induction s with
    | nil => rfl
    | cons b bs ih =>
      simp only [split]
      split
      · simp [Machine.wireSegment, ih]
      · cases hs : split dot bs with
        | nil => exact absurd hs (split_ne_nil dot bs)
        | cons x xs =>
          rw [hs] at ih
          simp only [List.flatMap_cons, Machine.wireSegment, List.length_append,
            List.length_cons] at ih ⊢
          omega
  simp [Machine.wireName, h]

/-! ## The first byte of a name element -/

theorem top_two_bits (b : Byte) : (b.extractLsb' 6 2).toNat = b.toNat / 64 := by
  have := b.isLt
  simp only [BitVec.extractLsb'_toNat, Nat.shiftRight_eq_div_pow]; omega

theorem low_six_bits (b : Byte) : (b.extractLsb' 0 6).toNat = b.toNat % 64 := by
  simp [BitVec.extractLsb'_toNat]

theorem firstByte_zero : firstByte 0#8 = .terminator := by decide

theorem firstByte_label {b : Byte} (h1 : 1 ≤ b.toNat) (h2 : b.toNat ≤ 63) :
    firstByte b = .label (b.extractLsb' 0 6) := by
  have hb : b ≠ 0 := by rintro rfl; simp at h1
  have : (b.extractLsb' 6 2).toNat = 0 := by rw [top_two_bits]; omega
  simpa [firstByte, this] using hb

theorem firstByte_invalid01 {b : Byte} (h1 : 64 ≤ b.toNat) (h2 : b.toNat ≤ 127) :
    firstByte b = .invalid01 (b.extractLsb' 0 6) := by
  have : (b.extractLsb' 6 2).toNat = 1 := by rw [top_two_bits]; omega
  simp [firstByte, this]

theorem firstByte_invalid10 {b : Byte} (h1 : 128 ≤ b.toNat) (h2 : b.toNat ≤ 191) :
    firstByte b = .invalid10 (b.extractLsb' 0 6) := by
  have : (b.extractLsb' 6 2).toNat = 2 := by rw [top_two_bits]; omega
  simp [firstByte, this]

theorem firstByte_pointer {b : Byte} (h1 : 192 ≤ b.toNat) :
    firstByte b = .pointer (b.extractLsb' 0 6) := by
  have hb := b.isLt
  have : (b.extractLsb' 6 2).toNat = 3 := by rw [top_two_bits]; omega
  simp [firstByte, this]

/-- The 14-bit offset as a number (30_encoding.md R59). -/
theorem pointerOffset_toNat (high : BitVec 6) (b2 : Byte) :
    (pointerOffset high b2).toNat = high.toNat * 256 + b2.toNat := by
  have h0 := high.isLt
  have h1 := b2.isLt
  have : (high.setWidth 14 <<< 8).toNat = high.toNat <<< 8 := by
    simp only [BitVec.toNat_shiftLeft, BitVec.toNat_setWidth, Nat.shiftLeft_eq]; omega
  rw [pointerOffset, BitVec.toNat_or, this, BitVec.toNat_setWidth,
    Nat.mod_eq_of_lt (a := b2.toNat) (by omega),
    ← Nat.shiftLeft_add_eq_or_of_lt h1, Nat.shiftLeft_eq]

theorem elementByte_toNat (top : BitVec 2) (low : BitVec 6) :
    (elementByte top low).toNat = top.toNat * 64 + low.toNat := by
  have h := low.isLt
  rw [elementByte, BitVec.toNat_append, ← Nat.shiftLeft_add_eq_or_of_lt h, Nat.shiftLeft_eq]

theorem elementByte_low (top : BitVec 2) (low : BitVec 6) :
    (elementByte top low).extractLsb' 0 6 = low := by
  have h := low.isLt
  apply BitVec.eq_of_toNat_eq
  rw [low_six_bits, elementByte_toNat]
  omega

end Sys2Proof
end

