-- ==== Sys2Proof/Laws/State.lean ====
section
/-! SUPPORT. One lemma per field per update of the state, true by rfl, so that no later proof unfolds
a record update. First the one thing known of the capacity of RX. -/

namespace Sys2Proof

/-- All that is known of the capacity of RX (00_scope.md R4, 10_state.md R12). -/
theorem Config.bufCap_ge : 512 ≤ Config.bufCap := Nat.le_add_left _ _

end Sys2Proof

namespace Sys2Proof.Machine

/-! `State.withCursor` -/

@[simp] theorem State.withCursor_rx (s : State) (c : Cursor) : (s.withCursor c).rx = s.rx := rfl
@[simp] theorem State.withCursor_size (s : State) (c : Cursor) : (s.withCursor c).size = s.size := rfl
@[simp] theorem State.withCursor_rpos (s : State) (c : Cursor) : (s.withCursor c).rpos = c.rpos := rfl
@[simp] theorem State.withCursor_rstatus (s : State) (c : Cursor) : (s.withCursor c).rstatus = s.rstatus := rfl
@[simp] theorem State.withCursor_tx (s : State) (c : Cursor) : (s.withCursor c).tx = s.tx := rfl
@[simp] theorem State.withCursor_hops (s : State) (c : Cursor) : (s.withCursor c).hops = c.hops := rfl
@[simp] theorem State.withCursor_saved (s : State) (c : Cursor) : (s.withCursor c).saved = c.saved := rfl
@[simp] theorem State.withCursor_answer (s : State) (c : Cursor) : (s.withCursor c).answer = s.answer := rfl
@[simp] theorem State.withCursor_host (s : State) (c : Cursor) : (s.withCursor c).host = s.host := rfl

/-! `State.respond` -/

@[simp] theorem State.respond_rx (s : State) (r : Response) : (s.respond r).rx = s.rx := rfl
@[simp] theorem State.respond_size (s : State) (r : Response) : (s.respond r).size = s.size := rfl
@[simp] theorem State.respond_rpos (s : State) (r : Response) : (s.respond r).rpos = s.rpos := rfl
@[simp] theorem State.respond_rstatus (s : State) (r : Response) : (s.respond r).rstatus = s.rstatus := rfl
@[simp] theorem State.respond_tx (s : State) (r : Response) : (s.respond r).tx = s.tx := rfl
@[simp] theorem State.respond_hops (s : State) (r : Response) : (s.respond r).hops = s.hops := rfl
@[simp] theorem State.respond_saved (s : State) (r : Response) : (s.respond r).saved = s.saved := rfl
@[simp] theorem State.respond_answer (s : State) (r : Response) : (s.respond r).answer = some r := rfl
@[simp] theorem State.respond_host (s : State) (r : Response) : (s.respond r).host = s.host := rfl

/-! `State.takeFault` -/

@[simp] theorem State.takeFault_rx (s : State) (f : FaultInfo) : (s.takeFault f).rx = s.rx := rfl
@[simp] theorem State.takeFault_size (s : State) (f : FaultInfo) : (s.takeFault f).size = s.size := rfl
@[simp] theorem State.takeFault_rpos (s : State) (f : FaultInfo) : (s.takeFault f).rpos = s.rpos := rfl
@[simp] theorem State.takeFault_rstatus (s : State) (f : FaultInfo) : (s.takeFault f).rstatus = .fault f := rfl
@[simp] theorem State.takeFault_tx (s : State) (f : FaultInfo) : (s.takeFault f).tx = s.tx := rfl
@[simp] theorem State.takeFault_hops (s : State) (f : FaultInfo) : (s.takeFault f).hops = s.hops := rfl
@[simp] theorem State.takeFault_saved (s : State) (f : FaultInfo) : (s.takeFault f).saved = s.saved := rfl
@[simp] theorem State.takeFault_answer (s : State) (f : FaultInfo) : (s.takeFault f).answer = some (.fault f) := rfl
@[simp] theorem State.takeFault_host (s : State) (f : FaultInfo) : (s.takeFault f).host = s.host := rfl

/-! `State.refuse` -/

@[simp] theorem State.refuse_rx (s : State) : (s.refuse).rx = s.rx := rfl
@[simp] theorem State.refuse_size (s : State) : (s.refuse).size = s.size := rfl
@[simp] theorem State.refuse_rpos (s : State) : (s.refuse).rpos = s.rpos := rfl
@[simp] theorem State.refuse_rstatus (s : State) : (s.refuse).rstatus = s.rstatus := rfl
@[simp] theorem State.refuse_tx (s : State) : (s.refuse).tx = s.tx := rfl
@[simp] theorem State.refuse_hops (s : State) : (s.refuse).hops = s.hops := rfl
@[simp] theorem State.refuse_saved (s : State) : (s.refuse).saved = s.saved := rfl
@[simp] theorem State.refuse_answer (s : State) : (s.refuse).answer = some .refused := rfl
@[simp] theorem State.refuse_host (s : State) : (s.refuse).host = s.host := rfl

/-! `State.appendTx` -/

@[simp] theorem State.appendTx_rx (s : State) (bs : List Byte) : (s.appendTx bs).rx = s.rx := rfl
@[simp] theorem State.appendTx_size (s : State) (bs : List Byte) : (s.appendTx bs).size = s.size := rfl
@[simp] theorem State.appendTx_rpos (s : State) (bs : List Byte) : (s.appendTx bs).rpos = s.rpos := rfl
@[simp] theorem State.appendTx_rstatus (s : State) (bs : List Byte) : (s.appendTx bs).rstatus = s.rstatus := rfl
@[simp] theorem State.appendTx_tx (s : State) (bs : List Byte) : (s.appendTx bs).tx = s.tx ++ bs := rfl
@[simp] theorem State.appendTx_hops (s : State) (bs : List Byte) : (s.appendTx bs).hops = s.hops := rfl
@[simp] theorem State.appendTx_saved (s : State) (bs : List Byte) : (s.appendTx bs).saved = s.saved := rfl
@[simp] theorem State.appendTx_answer (s : State) (bs : List Byte) : (s.appendTx bs).answer = s.answer := rfl
@[simp] theorem State.appendTx_host (s : State) (bs : List Byte) : (s.appendTx bs).host = s.host := rfl

/-! `State.loaded` -/

@[simp] theorem State.loaded_rx (s : State) (data : List Byte) : (s.loaded data).rx = Memory.writeBytes s.rx 0 data := rfl
@[simp] theorem State.loaded_size (s : State) (data : List Byte) : (s.loaded data).size = data.length := rfl
@[simp] theorem State.loaded_rpos (s : State) (data : List Byte) : (s.loaded data).rpos = 0 := rfl
@[simp] theorem State.loaded_rstatus (s : State) (data : List Byte) : (s.loaded data).rstatus = .ok := rfl
@[simp] theorem State.loaded_tx (s : State) (data : List Byte) : (s.loaded data).tx = s.tx := rfl
@[simp] theorem State.loaded_hops (s : State) (data : List Byte) : (s.loaded data).hops = s.hops := rfl
@[simp] theorem State.loaded_saved (s : State) (data : List Byte) : (s.loaded data).saved = s.saved := rfl
@[simp] theorem State.loaded_answer (s : State) (data : List Byte) : (s.loaded data).answer = s.answer := rfl
@[simp] theorem State.loaded_host (s : State) (data : List Byte) : (s.loaded data).host = s.host := rfl

/-! `State.readTo` -/

@[simp] theorem State.readTo_rx (s : State) (p : Nat) (r : Result) : (s.readTo p r).rx = s.rx := rfl
@[simp] theorem State.readTo_size (s : State) (p : Nat) (r : Result) : (s.readTo p r).size = s.size := rfl
@[simp] theorem State.readTo_rpos (s : State) (p : Nat) (r : Result) : (s.readTo p r).rpos = p := rfl
@[simp] theorem State.readTo_rstatus (s : State) (p : Nat) (r : Result) : (s.readTo p r).rstatus = s.rstatus := rfl
@[simp] theorem State.readTo_tx (s : State) (p : Nat) (r : Result) : (s.readTo p r).tx = s.tx := rfl
@[simp] theorem State.readTo_hops (s : State) (p : Nat) (r : Result) : (s.readTo p r).hops = s.hops := rfl
@[simp] theorem State.readTo_saved (s : State) (p : Nat) (r : Result) : (s.readTo p r).saved = s.saved := rfl
@[simp] theorem State.readTo_answer (s : State) (p : Nat) (r : Result) : (s.readTo p r).answer = some (.done r) := rfl
@[simp] theorem State.readTo_host (s : State) (p : Nat) (r : Result) : (s.readTo p r).host = s.host := rfl

/-! `State.faultAt` -/

@[simp] theorem State.faultAt_rx (s : State) (p : Nat) (f : FaultInfo) : (s.faultAt p f).rx = s.rx := rfl
@[simp] theorem State.faultAt_size (s : State) (p : Nat) (f : FaultInfo) : (s.faultAt p f).size = s.size := rfl
@[simp] theorem State.faultAt_rpos (s : State) (p : Nat) (f : FaultInfo) : (s.faultAt p f).rpos = p := rfl
@[simp] theorem State.faultAt_rstatus (s : State) (p : Nat) (f : FaultInfo) : (s.faultAt p f).rstatus = .fault f := rfl
@[simp] theorem State.faultAt_tx (s : State) (p : Nat) (f : FaultInfo) : (s.faultAt p f).tx = s.tx := rfl
@[simp] theorem State.faultAt_hops (s : State) (p : Nat) (f : FaultInfo) : (s.faultAt p f).hops = s.hops := rfl
@[simp] theorem State.faultAt_saved (s : State) (p : Nat) (f : FaultInfo) : (s.faultAt p f).saved = s.saved := rfl
@[simp] theorem State.faultAt_answer (s : State) (p : Nat) (f : FaultInfo) : (s.faultAt p f).answer = some (.fault f) := rfl
@[simp] theorem State.faultAt_host (s : State) (p : Nat) (f : FaultInfo) : (s.faultAt p f).host = s.host := rfl

/-! `State.wrote` -/

@[simp] theorem State.wrote_rx (s : State) (w : List Byte) : (s.wrote w).rx = s.rx := rfl
@[simp] theorem State.wrote_size (s : State) (w : List Byte) : (s.wrote w).size = s.size := rfl
@[simp] theorem State.wrote_rpos (s : State) (w : List Byte) : (s.wrote w).rpos = s.rpos := rfl
@[simp] theorem State.wrote_rstatus (s : State) (w : List Byte) : (s.wrote w).rstatus = s.rstatus := rfl
@[simp] theorem State.wrote_tx (s : State) (w : List Byte) : (s.wrote w).tx = s.tx ++ w := rfl
@[simp] theorem State.wrote_hops (s : State) (w : List Byte) : (s.wrote w).hops = s.hops := rfl
@[simp] theorem State.wrote_saved (s : State) (w : List Byte) : (s.wrote w).saved = s.saved := rfl
@[simp] theorem State.wrote_answer (s : State) (w : List Byte) : (s.wrote w).answer = some (.done .none) := rfl
@[simp] theorem State.wrote_host (s : State) (w : List Byte) : (s.wrote w).host = s.host := rfl

/-! `State.answered` -/

@[simp] theorem State.answered_rx (s : State) (r : Response) : (s.answered r).rx = s.rx := rfl
@[simp] theorem State.answered_size (s : State) (r : Response) : (s.answered r).size = s.size := rfl
@[simp] theorem State.answered_rpos (s : State) (r : Response) : (s.answered r).rpos = s.rpos := rfl
@[simp] theorem State.answered_rstatus (s : State) (r : Response) : (s.answered r).rstatus = s.rstatus := rfl
@[simp] theorem State.answered_tx (s : State) (r : Response) : (s.answered r).tx = s.tx := rfl
@[simp] theorem State.answered_hops (s : State) (r : Response) : (s.answered r).hops = s.hops := rfl
@[simp] theorem State.answered_saved (s : State) (r : Response) : (s.answered r).saved = s.saved := rfl
@[simp] theorem State.answered_answer (s : State) (r : Response) : (s.answered r).answer = some r := rfl
@[simp] theorem State.answered_host (s : State) (r : Response) : (s.answered r).host = s.host := rfl

/-! Views of the state -/

@[simp] theorem State.buf_cells (s : State) : s.buf.cells = s.rx := rfl
@[simp] theorem State.buf_size (s : State) : s.buf.size = s.size := rfl
@[simp] theorem State.cursor_rpos (s : State) : s.cursor.rpos = s.rpos := rfl
@[simp] theorem State.cursor_hops (s : State) : s.cursor.hops = s.hops := rfl
@[simp] theorem State.cursor_saved (s : State) : s.cursor.saved = s.saved := rfl
@[simp] theorem State.withCursor_buf (s : State) (c : Cursor) : (s.withCursor c).buf = s.buf := rfl
@[simp] theorem State.respond_buf (s : State) (r : Response) : (s.respond r).buf = s.buf := rfl
@[simp] theorem State.respond_cursor (s : State) (r : Response) : (s.respond r).cursor = s.cursor := rfl
@[simp] theorem State.takeFault_buf (s : State) (f : FaultInfo) : (s.takeFault f).buf = s.buf := rfl
@[simp] theorem State.withCursor_cursor (s : State) (c : Cursor) : (s.withCursor c).cursor = c := rfl

end Sys2Proof.Machine
end

