-- ==== Sys2Proof/Laws/Memory.lean ====
section
/-! SUPPORT. The laws of the RX memory: read after write, the canonical form kept, and equal reads make
equal memories. -/

namespace Sys2Proof.Machine

@[simp] theorem Memory.read_nil (a : Nat) : Memory.read [] a = none := rfl

theorem Memory.read_cons (k a : Nat) (v : Byte) (m : Memory) :
    Memory.read ((k, v) :: m) a = if k = a then some v else Memory.read m a := rfl

/-- A read after a write to the same address gives the byte written. -/
@[simp] theorem Memory.read_write_same (m : Memory) (a : Nat) (b : Byte) :
    Memory.read (Memory.write m a b) a = some b := by
  induction m with
  | nil => simp [Memory.write, Memory.read]
  | cons c m ih =>
    obtain ⟨k, v⟩ := c
    simp only [Memory.write]
    split
    · simp [Memory.read]
    · split
      · simp [Memory.read]
      · rename_i h1 h2
        have : k ≠ a := fun h => h2 h.symm
        simp [Memory.read, this, ih]

/-- A write leaves every other address alone. -/
theorem Memory.read_write_other (m : Memory) {a a' : Nat} (b : Byte) (h : a' ≠ a) :
    Memory.read (Memory.write m a b) a' = Memory.read m a' := by
  induction m with
  | nil => simp [Memory.write, Memory.read, h.symm]
  | cons c m ih =>
    obtain ⟨k, v⟩ := c
    simp only [Memory.write]
    split
    · simp [Memory.read, h.symm]
    · split
      · rename_i h1 h2
        subst h2
        simp [Memory.read, h.symm]
      · simp [Memory.read, ih]

theorem Memory.wf_cons {k : Nat} {v : Byte} {m : Memory} :
    Memory.wf ((k, v) :: m) = true ↔ (∀ c ∈ m.head?, k < c.1) ∧ Memory.wf m = true := by
  cases m with
  | nil => simp [Memory.wf]
  | cons c m => obtain ⟨k', v'⟩ := c; simp [Memory.wf]

theorem Memory.head_write (m : Memory) (a : Nat) (b : Byte) (k : Nat)
    (hm : ∀ c ∈ m.head?, k < c.1) (hk : k < a) :
    ∀ c ∈ (Memory.write m a b).head?, k < c.1 := by
  cases m with
  | nil => simpa [Memory.write] using hk
  | cons c m =>
    obtain ⟨k', v'⟩ := c
    simp only [Memory.write]
    split
    · simpa using hk
    · split
      · simpa using hk
      · simpa using hm

/-- A write keeps the canonical form. -/
theorem Memory.wf_write {m : Memory} (h : Memory.wf m = true) (a : Nat) (b : Byte) :
    Memory.wf (Memory.write m a b) = true := by
  induction m with
  | nil => simp [Memory.write, Memory.wf]
  | cons c m ih =>
    obtain ⟨k, v⟩ := c
    obtain ⟨h1, h2⟩ := Memory.wf_cons.1 h
    simp only [Memory.write]
    split
    · rename_i hlt
      exact Memory.wf_cons.2 ⟨by simpa using hlt, h⟩
    · split
      · rename_i heq
        subst heq
        exact Memory.wf_cons.2 ⟨h1, h2⟩
      · rename_i hlt hne
        exact Memory.wf_cons.2 ⟨Memory.head_write m a b k h1 (by omega), ih h2⟩

/-- A write below a bound keeps every listed address below it. -/
theorem Memory.all_write {m : Memory} {n : Nat} (h : (m.all fun c => c.1 < n) = true) {a : Nat}
    (ha : a < n) (b : Byte) : ((Memory.write m a b).all fun c => c.1 < n) = true := by
  induction m with
  | nil => simpa [Memory.write] using ha
  | cons c m ih =>
    obtain ⟨k, v⟩ := c
    simp only [List.all_cons, Bool.and_eq_true, decide_eq_true_eq] at h
    simp only [Memory.write]
    split
    · simp [ha, h.1, h.2]
    · split
      · simp only [List.all_cons, ha, decide_true, Bool.true_and]; exact h.2
      · simp only [List.all_cons, h.1, decide_true, Bool.true_and]; exact ih h.2

/-- A read below the written run is untouched. -/
theorem Memory.read_writeBytes_below (data : List Byte) (m : Memory) {a a' : Nat} (h : a' < a) :
    Memory.read (Memory.writeBytes m a data) a' = Memory.read m a' := by
  induction data generalizing m a with
  | nil => rfl
  | cons b bs ih =>
    rw [Memory.writeBytes, ih _ (by omega), Memory.read_write_other _ _ (by omega)]

/-- What a written run reads as: the data inside it, what was there outside it. -/
theorem Memory.read_writeBytes (data : List Byte) (m : Memory) (a i : Nat) :
    Memory.read (Memory.writeBytes m a data) (a + i) =
      if i < data.length then data[i]? else Memory.read m (a + i) := by
  induction data generalizing m a i with
  | nil => simp [Memory.writeBytes]
  | cons b bs ih =>
    cases i with
    | zero => simp [Memory.writeBytes, Memory.read_writeBytes_below]
    | succ i =>
      have h := ih (Memory.write m a b) (a + 1) i
      rw [show a + 1 + i = a + (i + 1) by omega] at h
      rw [Memory.writeBytes, h]
      by_cases hi : i < bs.length
      · simp [hi]
      · simp [hi, Memory.read_write_other m b (show a + (i + 1) ≠ a by omega)]

/-- A written run keeps the canonical form. -/
theorem Memory.wf_writeBytes (data : List Byte) {m : Memory} (h : Memory.wf m = true) (a : Nat) :
    Memory.wf (Memory.writeBytes m a data) = true := by
  induction data generalizing m a with
  | nil => exact h
  | cons b bs ih => exact ih (Memory.wf_write h a b) (a + 1)

/-- A run written below a bound keeps every listed address below it. -/
theorem Memory.all_writeBytes (data : List Byte) {m : Memory} {n : Nat}
    (h : (m.all fun c => c.1 < n) = true) {a : Nat} (ha : a + data.length ≤ n) :
    ((Memory.writeBytes m a data).all fun c => c.1 < n) = true := by
  induction data generalizing m a with
  | nil => exact h
  | cons b bs ih =>
    simp only [List.length_cons] at ha
    exact ih (Memory.all_write h (by omega) b) (by omega)

theorem Memory.read_eq_none_of_head {m : Memory} (h : Memory.wf m = true) {a : Nat}
    (ha : ∀ c ∈ m.head?, a < c.1) : Memory.read m a = none := by
  induction m with
  | nil => rfl
  | cons c m ih =>
    obtain ⟨k, v⟩ := c
    obtain ⟨h1, h2⟩ := Memory.wf_cons.1 h
    have hk : a < k := by simpa using ha
    rw [Memory.read_cons, if_neg (by omega)]
    exact ih h2 fun c hc => lt_trans hk (h1 c hc)

/-- Canonical memories that read alike are equal data. -/
theorem Memory.ext_of_wf {m m' : Memory} (h : Memory.wf m = true) (h' : Memory.wf m' = true)
    (hr : ∀ a, Memory.read m a = Memory.read m' a) : m = m' := by
  induction m generalizing m' with
  | nil =>
    cases m' with
    | nil => rfl
    | cons c m' => obtain ⟨k, v⟩ := c; have := hr k; simp [Memory.read] at this
  | cons c m ih =>
    obtain ⟨k, v⟩ := c
    obtain ⟨h1, h2⟩ := Memory.wf_cons.1 h
    cases m' with
    | nil => have := hr k; simp [Memory.read] at this
    | cons c' m' =>
      obtain ⟨k', v'⟩ := c'
      obtain ⟨h1', h2'⟩ := Memory.wf_cons.1 h'
      have hkk : k = k' := by
        by_contra hne
        rcases lt_or_gt_of_ne hne with hlt | hlt
        · have := hr k
          rw [Memory.read_cons, if_pos rfl,
            Memory.read_eq_none_of_head h' (by simpa using hlt)] at this
          cases this
        · have := hr k'
          rw [Memory.read_cons (k := k'), if_pos rfl,
            Memory.read_eq_none_of_head h (by simpa using hlt)] at this
          cases this
      subst hkk
      have hv : v = v' := by have := hr k; simpa [Memory.read] using this
      subst hv
      congr 1
      refine ih h2 h2' fun a => ?_
      by_cases hak : k = a
      · subst hak
        rw [Memory.read_eq_none_of_head h2 h1, Memory.read_eq_none_of_head h2' h1']
      · have := hr a
        simpa [Memory.read, hak] using this

end Sys2Proof.Machine
end

