-- ==== Sys2Proof/Laws/Bodies.lean ====
section
/-! SUPPORT. What the bodies of read-side operations do: the combinators, the positions they can
reach, and what the cursor reads return over bytes that stand in the buffer. -/

namespace Sys2Proof.Machine

/-! ## Combinators -/

@[simp] theorem Body.pure_run {α : Type} (a : α) (b : Buf) (c : Cursor) :
    Body.pure a b c = .ok a c := rfl

@[simp] theorem Body.raise_run {α : Type} (f : FaultInfo) (b : Buf) (c : Cursor) :
    (Body.raise f : Body α) b c = .raised f c := rfl

theorem Body.bind_ok {α β : Type} {x : Body α} {f : α → Body β} {b : Buf} {c c' : Cursor} {a : α}
    (h : x b c = .ok a c') : Body.bind x f b c = f a b c' := by simp [Body.bind, h]

theorem Body.bind_raised {α β : Type} {x : Body α} {f : α → Body β} {b : Buf} {c c' : Cursor}
    {e : FaultInfo} (h : x b c = .raised e c') : Body.bind x f b c = .raised e c' := by
  simp [Body.bind, h]

/-- A `bind` that ends in a value ran both its parts. -/
theorem Body.bind_eq_ok {α β : Type} {x : Body α} {f : α → Body β} {b : Buf} {c c' : Cursor} {v : β} :
    Body.bind x f b c = .ok v c' ↔ ∃ a c1, x b c = .ok a c1 ∧ f a b c1 = .ok v c' := by
  cases h : x b c <;> simp [Body.bind, h]

/-- A `bind` that raises raised in its first part or in its second. -/
theorem Body.bind_eq_raised {α β : Type} {x : Body α} {f : α → Body β} {b : Buf} {c c' : Cursor}
    {e : FaultInfo} : Body.bind x f b c = .raised e c' ↔
      x b c = .raised e c' ∨ ∃ a c1, x b c = .ok a c1 ∧ f a b c1 = .raised e c' := by
  cases h : x b c <;> simp [Body.bind, h]

theorem Body.map_eq_ok {α β : Type} {x : Body α} {f : α → β} {b : Buf} {c c' : Cursor} {v : β} :
    Body.map f x b c = .ok v c' ↔ ∃ a, x b c = .ok a c' ∧ v = f a := by
  cases h : x b c <;> simp [Body.map, Body.bind, Body.pure, h, eq_comm, and_comm]

theorem Body.map_eq_raised {α β : Type} {x : Body α} {f : α → β} {b : Buf} {c c' : Cursor}
    {e : FaultInfo} : Body.map f x b c = .raised e c' ↔ x b c = .raised e c' := by
  cases h : x b c <;> simp [Body.map, Body.bind, Body.pure, h]

@[simp] theorem Body.ofExcept_ok {α : Type} (a : α) : Body.ofExcept (.ok a) = Body.pure a := rfl

@[simp] theorem Body.ofExcept_error {α : Type} (f : FaultInfo) :
    (Body.ofExcept (.error f) : Body α) = Body.raise f := rfl

/-! ## Where a body can leave the cursor -/

/-- The cursor a body ended with. -/
def Ran.cursor {α : Type} : Ran α → Cursor
  | .ok _ c => c
  | .raised _ c => c

/-- A body that never leaves SIZE behind and gives HOPS and SAVED back as it found them
(10_state.md R13, R19). -/
def Body.Keeps {α : Type} (x : Body α) : Prop :=
  ∀ b c, c.rpos ≤ b.size →
    (x b c).cursor.rpos ≤ b.size ∧ (x b c).cursor.hops = c.hops ∧ (x b c).cursor.saved = c.saved

theorem Body.Keeps.pure {α : Type} (a : α) : (Body.pure a).Keeps := fun _ _ h => ⟨h, rfl, rfl⟩

theorem Body.Keeps.raise {α : Type} (f : FaultInfo) : (Body.raise f : Body α).Keeps :=
  fun _ _ h => ⟨h, rfl, rfl⟩

theorem Body.Keeps.bind {α β : Type} {x : Body α} {f : α → Body β} (hx : x.Keeps)
    (hf : ∀ a, (f a).Keeps) : (Body.bind x f).Keeps := by
  intro b c h
  obtain ⟨h1, h2, h3⟩ := hx b c h
  cases hr : x b c with
  | ok a c' =>
    rw [hr] at h1 h2 h3
    obtain ⟨g1, g2, g3⟩ := hf a b c' h1
    rw [Body.bind_ok hr]
    exact ⟨g1, g2.trans h2, g3.trans h3⟩
  | raised e c' =>
    rw [hr] at h1 h2 h3
    rw [Body.bind_raised hr]
    exact ⟨h1, h2, h3⟩

theorem Body.Keeps.map {α β : Type} {x : Body α} (hx : x.Keeps) (f : α → β) :
    (Body.map f x).Keeps := hx.bind fun a => Body.Keeps.pure (f a)

theorem Body.Keeps.ofExcept {α : Type} (v : Except FaultInfo α) : (Body.ofExcept v).Keeps := by
  cases v with
  | ok a => exact Body.Keeps.pure a
  | error f => exact Body.Keeps.raise f

theorem Body.Keeps.times {α : Type} {x : Body α} (hx : x.Keeps) (n : Nat) :
    (Body.times x n).Keeps := by
  induction n with
  | zero => exact Body.Keeps.pure []
  | succ n ih => exact hx.bind fun a => ih.bind fun as => Body.Keeps.pure (a :: as)

theorem readU8_keeps : readU8.Keeps := by
  intro b c h
  simp only [readU8]
  split <;> simp [Ran.cursor] <;> omega

theorem readU16_keeps : readU16.Keeps :=
  readU8_keeps.bind fun _ => readU8_keeps.bind fun _ => Body.Keeps.pure _

theorem readU32_keeps : readU32.Keeps :=
  readU8_keeps.bind fun _ => readU8_keeps.bind fun _ => readU8_keeps.bind fun _ =>
  readU8_keeps.bind fun _ => Body.Keeps.pure _

theorem readBytes_keeps (n : Nat) : (readBytes n).Keeps := readU8_keeps.times n

theorem setPosition_keeps (p : Nat) : (setPosition p).Keeps := by
  intro b c h
  simp only [setPosition]
  split <;> simp [Ran.cursor] <;> omega

theorem nameElements_keeps (n : Nat) : (nameElements n).Keeps := by
  induction n with
  | zero => exact Body.Keeps.raise _
  | succ n ih =>
    refine readU8_keeps.bind fun b => ?_
    cases firstByte b with
    | terminator => exact Body.Keeps.pure _
    | label len => exact (readBytes_keeps _).bind fun _ => ih.bind fun _ => Body.Keeps.pure _
    | pointer high => exact readU8_keeps.bind fun _ => Body.Keeps.pure _
    | invalid01 x => exact Body.Keeps.raise _
    | invalid10 x => exact Body.Keeps.raise _

/-- Following a pointer comes back to the position saved, on every path that jumped, and never moves
the cursor otherwise (42_name_decode.md R114). -/
theorem followPointer_cursor {off : BitVec 14} {target : Body (List (List Byte))} (ht : target.Keeps)
    (b : Buf) (c : Cursor) : (followPointer off target b c).cursor = c := by
  simp only [followPointer]
  split
  · rfl
  · simp only [setPosition]
    split
    · rename_i h
      split at h <;> cases h
      rfl
    · rename_i c1 h
      split at h
      · cases h
      · cases h
        rename_i hle
        have := ht b { rpos := off.toNat, hops := c.hops + 1, saved := c.rpos :: c.saved }
          (by simpa using hle)
        split <;> rename_i hr <;> rw [hr] at this <;> obtain ⟨-, h2, h3⟩ := this <;>
          simp only [Ran.cursor] at h2 h3 ⊢ <;> simp [Cursor.restore, h2, h3]

theorem followPointer_keeps {off : BitVec 14} {target : Body (List (List Byte))} (ht : target.Keeps) :
    (followPointer off target).Keeps := by
  intro b c h
  rw [followPointer_cursor ht b c]
  exact ⟨h, rfl, rfl⟩

theorem nameAtDepth_keeps (n : Nat) : (nameAtDepth n).Keeps := by
  induction n with
  | zero => exact Body.Keeps.raise _
  | succ n ih =>
    intro b c h
    refine (nameElements_keeps (b.size - c.rpos + 1)).bind (fun level => ?_) b c h
    cases level.2 with
    | none => exact Body.Keeps.pure _
    | some off => exact (followPointer_keeps ih).bind fun _ => Body.Keeps.pure _

/-- Where HOPS and SAVED are empty outside READ_NAME (10_state.md R19), READ_NAME leaves them so. -/
def Body.Safe {α : Type} (x : Body α) : Prop :=
  ∀ b c, c.rpos ≤ b.size → c.hops = 0 → c.saved = [] →
    (x b c).cursor.rpos ≤ b.size ∧ (x b c).cursor.hops = 0 ∧ (x b c).cursor.saved = []

theorem Body.Keeps.safe {α : Type} {x : Body α} (hx : x.Keeps) : x.Safe := by
  intro b c h h0 hs
  obtain ⟨h1, h2, h3⟩ := hx b c h
  exact ⟨h1, h2.trans h0, h3.trans hs⟩

theorem Body.Safe.bind {α β : Type} {x : Body α} {f : α → Body β} (hx : x.Safe)
    (hf : ∀ a, (f a).Safe) : (Body.bind x f).Safe := by
  intro b c h h0 hs
  obtain ⟨h1, h2, h3⟩ := hx b c h h0 hs
  cases hr : x b c with
  | ok a c' => rw [hr] at h1 h2 h3; rw [Body.bind_ok hr]; exact hf a b c' h1 h2 h3
  | raised e c' => rw [hr] at h1 h2 h3; rw [Body.bind_raised hr]; exact ⟨h1, h2, h3⟩

theorem Body.Safe.map {α β : Type} {x : Body α} (hx : x.Safe) (f : α → β) : (Body.map f x).Safe :=
  hx.bind fun a => (Body.Keeps.pure (f a)).safe

theorem Body.Safe.times {α : Type} {x : Body α} (hx : x.Safe) (n : Nat) :
    (Body.times x n).Safe := by
  induction n with
  | zero => exact (Body.Keeps.pure []).safe
  | succ n ih => exact hx.bind fun a => ih.bind fun as => (Body.Keeps.pure (a :: as)).safe

theorem readName_safe : readName.Safe := by
  intro b c h h0 hs
  have := ((nameAtDepth_keeps (Config.pointerLimit + 1)).map (join dot)) b
    { c with hops := 0, saved := [] } h
  exact this

theorem decodeHeader_safe : decodeHeader.Safe :=
  (readU16_keeps.bind fun _ => readU16_keeps.bind fun _ => (Body.Keeps.ofExcept _).bind fun _ =>
    readU16_keeps.bind fun _ => readU16_keeps.bind fun _ => readU16_keeps.bind fun _ =>
    readU16_keeps.bind fun _ => Body.Keeps.pure _).safe

theorem readType_keeps : readType.Keeps := readU16_keeps.bind fun _ => Body.Keeps.ofExcept _

theorem readClass_keeps : readClass.Keeps := readU16_keeps.bind fun _ => Body.Keeps.ofExcept _

theorem decodeQuestion_safe : decodeQuestion.Safe :=
  readName_safe.bind fun _ => (readType_keeps.bind fun _ => readClass_keeps.bind fun _ =>
    Body.Keeps.pure _).safe

theorem decodeRecord_safe : decodeRecord.Safe :=
  readName_safe.bind fun _ => (readType_keeps.bind fun _ => readClass_keeps.bind fun _ =>
    readU32_keeps.bind fun _ => readU16_keeps.bind fun _ => (readBytes_keeps _).bind fun _ =>
    Body.Keeps.pure _).safe

theorem decodeMessage_safe : decodeMessage.Safe :=
  decodeHeader_safe.bind fun _ => (decodeQuestion_safe.times _).bind fun _ =>
    (decodeRecord_safe.times _).bind fun _ => (decodeRecord_safe.times _).bind fun _ =>
    (decodeRecord_safe.times _).bind fun _ => (Body.Keeps.pure _).safe

/-! ## What stands in the buffer -/

theorem BytesAt.le {b : Buf} {p : Nat} {bs : List Byte} (h : BytesAt b p bs) :
    p + bs.length ≤ b.size := by
  induction bs generalizing p with
  | nil => exact h
  | cons v rest ih => have := ih h.2; simp only [List.length_cons]; omega

theorem BytesAt.append {b : Buf} {p : Nat} {xs ys : List Byte} :
    BytesAt b p (xs ++ ys) ↔ BytesAt b p xs ∧ BytesAt b (p + xs.length) ys := by
  induction xs generalizing p with
  | nil =>
    simp only [List.nil_append, BytesAt, List.length_nil, Nat.add_zero]
    exact ⟨fun h => ⟨by have := h.le; omega, h⟩, fun h => h.2⟩
  | cons v rest ih =>
    simp only [List.cons_append, BytesAt, ih, List.length_cons, and_assoc]
    rw [show p + 1 + rest.length = p + (rest.length + 1) by omega]

/-! ## The cursor reads over bytes that stand in the buffer -/

theorem readU8_of_byteAt {b : Buf} {c : Cursor} {v : Byte} (h : ByteAt b c.rpos v) :
    readU8 b c = .ok v { c with rpos := c.rpos + 1 } := by
  simp [readU8, h.1, h.2]

theorem readU8_at_end {b : Buf} {c : Cursor} (h : b.size ≤ c.rpos) :
    readU8 b c = .raised .truncatedMessage c := by
  simp [readU8, show ¬ c.rpos < b.size by omega]

theorem readBytes_of_bytesAt {b : Buf} {bs : List Byte} {c : Cursor} (h : BytesAt b c.rpos bs) :
    readBytes bs.length b c = .ok bs { c with rpos := c.rpos + bs.length } := by
  induction bs generalizing c with
  | nil => rfl
  | cons v rest ih =>
    rw [readBytes, List.length_cons, Body.times, Body.bind_ok (readU8_of_byteAt h.1)]
    have := ih (c := { c with rpos := c.rpos + 1 }) h.2
    rw [readBytes] at this
    rw [Body.bind_ok this, Body.pure_run]
    simp only [Ran.ok.injEq, true_and, Cursor.mk.injEq, and_true]
    omega

/-- A run of bytes that goes past SIZE consumes what is there and raises (41_cursor_read.md R104). -/
theorem readBytes_truncated {b : Buf} {n : Nat} {c : Cursor} (hp : c.rpos ≤ b.size)
    (hn : b.size - c.rpos < n) :
    readBytes n b c = .raised .truncatedMessage { c with rpos := b.size } := by
  induction n generalizing c with
  | zero => omega
  | succ n ih =>
    rw [readBytes, Body.times]
    by_cases h : c.rpos < b.size
    · have hr : readU8 b c = .ok ((Memory.read b.cells c.rpos).getD (Config.rxUnspecified c.rpos))
          { c with rpos := c.rpos + 1 } := by simp [readU8, h]
      have := ih (c := { c with rpos := c.rpos + 1 }) (by simp only; omega) (by simp only; omega)
      rw [readBytes] at this
      rw [Body.bind_ok hr, Body.bind_raised this]
    · have : c.rpos = b.size := by omega
      rw [Body.bind_raised (readU8_at_end (by omega))]
      simp [← this]

theorem readU16_of_bytesAt {b : Buf} {c : Cursor} {b0 b1 : Byte} (h : BytesAt b c.rpos [b0, b1]) :
    readU16 b c = .ok (word16 b0 b1) { c with rpos := c.rpos + 2 } := by
  rw [readU16, Body.bind_ok (readU8_of_byteAt h.1),
    Body.bind_ok (readU8_of_byteAt (c := { c with rpos := c.rpos + 1 }) h.2.1)]
  simp [Nat.add_assoc]

theorem readU16_of_u16At {b : Buf} {c : Cursor} {v : Word16} (h : U16At b c.rpos v) :
    readU16 b c = .ok v { c with rpos := c.rpos + 2 } := by
  obtain ⟨b0, b1, hb, hv⟩ := h
  rw [readU16_of_bytesAt hb]
  congr 1
  exact BitVec.eq_of_toNat_eq (by rw [word16_toNat, hv])

theorem readU32_of_bytesAt {b : Buf} {c : Cursor} {b0 b1 b2 b3 : Byte}
    (h : BytesAt b c.rpos [b0, b1, b2, b3]) :
    readU32 b c = .ok (word32 b0 b1 b2 b3) { c with rpos := c.rpos + 4 } := by
  rw [readU32, Body.bind_ok (readU8_of_byteAt h.1),
    Body.bind_ok (readU8_of_byteAt (c := { c with rpos := c.rpos + 1 }) h.2.1),
    Body.bind_ok (readU8_of_byteAt (c := { c with rpos := c.rpos + 1 + 1 }) h.2.2.1),
    Body.bind_ok (readU8_of_byteAt (c := { c with rpos := c.rpos + 1 + 1 + 1 }) h.2.2.2.1)]
  simp [Nat.add_assoc]

theorem readU32_of_u32At {b : Buf} {c : Cursor} {v : Word32} (h : U32At b c.rpos v) :
    readU32 b c = .ok v { c with rpos := c.rpos + 4 } := by
  obtain ⟨b0, b1, b2, b3, hb, hv⟩ := h
  rw [readU32_of_bytesAt hb]
  congr 1
  exact BitVec.eq_of_toNat_eq (by rw [word32_toNat, hv])

/-- A 16-bit field that is cut off consumes what is there and raises (41_cursor_read.md R102). -/
theorem readU16_truncated {b : Buf} {c : Cursor} (hp : c.rpos ≤ b.size) (hn : b.size - c.rpos < 2) :
    readU16 b c = .raised .truncatedMessage { c with rpos := b.size } := by
  by_cases h : c.rpos < b.size
  · have hr : readU8 b c = .ok ((Memory.read b.cells c.rpos).getD (Config.rxUnspecified c.rpos))
        { c with rpos := c.rpos + 1 } := by simp [readU8, h]
    rw [readU16, Body.bind_ok hr, Body.bind_raised (readU8_at_end (by simp only; omega))]
    simp only [Ran.raised.injEq, true_and, Cursor.mk.injEq, and_true]; omega
  · have : c.rpos = b.size := by omega
    rw [readU16, Body.bind_raised (readU8_at_end (by omega))]
    simp [← this]

/-- Labels that stand in the buffer are read in order (42_name_decode.md R112). -/
theorem nameElements_of_labelsAt {b : Buf} {p q : Nat} {labels : List (List Byte)}
    (h : LabelsAt b p labels q) {fuel : Nat} {c : Cursor} (hc : c.rpos = p) :
    nameElements (labels.length + fuel) b c =
      Body.bind (nameElements fuel) (fun rest => Body.pure (labels ++ rest.1, rest.2)) b
        { c with rpos := q } := by
  induction h generalizing c with
  | nil p =>
    subst hc
    rw [List.length_nil, Nat.zero_add]
    cases hr : nameElements fuel b c <;> simp [Body.bind, hr]
  | cons p q len lab rest hb h1 h2 hl hlab _ ih =>
    subst hc
    rw [List.length_cons, show rest.length + 1 + fuel = (rest.length + fuel) + 1 by omega,
      nameElements, Body.bind_ok (readU8_of_byteAt hb), firstByte_label h1 h2]
    have hlen : (len.extractLsb' 0 6).toNat = lab.length := by
      rw [low_six_bits, hl]; omega
    have hrb := readBytes_of_bytesAt (c := { c with rpos := c.rpos + 1 }) hlab
    simp only [hlen]
    rw [Body.bind_ok hrb]
    have := ih (c := { c with rpos := c.rpos + 1 + lab.length }) rfl
    simp only [Body.bind, this]
    cases hr : nameElements fuel b { c with rpos := q } <;> simp [Body.pure]

end Sys2Proof.Machine
end

