-- ==== Sys2Proof/Laws/Codec.lean ====
section
/-! SUPPORT. The carriage of operands read back: each parser undoes its encoder, whatever follows. -/

namespace Sys2Proof

/-- The parser undoes the encoder, whatever bytes follow. -/
def Parse.Undoes {α : Type} (p : Parse α) (enc : α → List Byte) : Prop :=
  ∀ a rest, p (enc a ++ rest) = some (a, rest)

@[simp] theorem Parse.pure_run {α : Type} (a : α) (bs : List Byte) :
    Parse.pure a bs = some (a, bs) := rfl

theorem Parse.bind_some {α β : Type} {p : Parse α} {f : α → Parse β} {bs rest : List Byte} {a : α}
    (h : p bs = some (a, rest)) : Parse.bind p f bs = f a rest := by simp [Parse.bind, h]

theorem Parse.map_some {α β : Type} {p : Parse α} {f : α → β} {bs rest : List Byte} {a : α}
    (h : p bs = some (a, rest)) : Parse.map f p bs = some (f a, rest) := by
  rw [Parse.map, Parse.bind_some h]; rfl

@[simp] theorem Parse.byte_cons (b : Byte) (rest : List Byte) :
    Parse.byte (b :: rest) = some (b, rest) := rfl

theorem Parse.byte_undoes : Parse.byte.Undoes fun b => [b] := fun _ _ => rfl

theorem Parse.word16_undoes : Parse.word16.Undoes be16 := fun v rest => by
  simp [Parse.word16, be16, Parse.bind, word16_be16]

theorem Parse.word32_undoes : Parse.word32.Undoes be32 := fun v rest => by
  simp [Parse.word32, be32, Parse.bind, word32_be32]

theorem Parse.bool_undoes : Parse.bool.Undoes encBool := fun b rest => by
  cases b <;> simp [Parse.bool, encBool, Parse.bind]

theorem Parse.bits_undoes {w : Nat} (hw : w ≤ 8) : (Parse.bits w).Undoes encBits := fun v rest => by
  have hv := v.isLt
  have h256 : v.toNat < 2 ^ 8 := lt_of_lt_of_le hv (Nat.pow_le_pow_right (by omega) hw)
  have hm : (BitVec.ofNat 8 v.toNat).toNat = v.toNat := Nat.mod_eq_of_lt h256
  rw [Parse.bits, encBits, List.singleton_append, Parse.bind_some (Parse.byte_cons _ _), hm,
    if_pos hv]
  simp

theorem Parse.member_undoes {M : Type} [DecidableEq M] {members : List M}
    (hall : ∀ m, m ∈ members) (hlen : members.length ≤ 256) :
    (Parse.member members).Undoes (encMember members) := fun m rest => by
  have hi : members.idxOf m < members.length := List.idxOf_lt_length_of_mem (hall m)
  have hm : members.idxOf m % 2 ^ 8 = members.idxOf m := Nat.mod_eq_of_lt (by omega)
  simp only [Parse.member, encMember, List.singleton_append]
  rw [Parse.bind_some (Parse.byte_cons _ _)]
  simp only [BitVec.toNat_ofNat, hm, List.getElem?_eq_getElem hi, List.getElem_idxOf,
    Parse.pure_run]

theorem Opcode.mem_all (m : Opcode) : m ∈ Opcode.all := by cases m <;> decide
theorem Rcode.mem_all (m : Rcode) : m ∈ Rcode.all := by cases m <;> decide
theorem RType.mem_all (m : RType) : m ∈ RType.all := by cases m <;> decide
theorem RClass.mem_all (m : RClass) : m ∈ RClass.all := by cases m <;> decide

theorem Parse.opcode_undoes : (Parse.member Opcode.all).Undoes (encMember Opcode.all) :=
  Parse.member_undoes Opcode.mem_all (by decide)
theorem Parse.rcode_undoes : (Parse.member Rcode.all).Undoes (encMember Rcode.all) :=
  Parse.member_undoes Rcode.mem_all (by decide)
theorem Parse.rtype_undoes : (Parse.member RType.all).Undoes (encMember RType.all) :=
  Parse.member_undoes RType.mem_all (by decide)
theorem Parse.rclass_undoes : (Parse.member RClass.all).Undoes (encMember RClass.all) :=
  Parse.member_undoes RClass.mem_all (by decide)

theorem Parse.listUpTo_undoes {α : Type} {p : Parse α} {enc : α → List Byte} (h : p.Undoes enc)
    (l : List α) (rest : List Byte) (fuel : Nat) (hf : l.length < fuel) :
    Parse.listUpTo p fuel (encList enc l ++ rest) = some (l, rest) := by
  induction l generalizing fuel with
  | nil =>
    obtain ⟨n, rfl⟩ : ∃ n, fuel = n + 1 := ⟨fuel - 1, by simp only [List.length_nil] at hf; omega⟩
    have : Parse.bool ([0#8] ++ rest) = some (false, rest) := Parse.bool_undoes false rest
    rw [Parse.listUpTo, encList]
    rw [Parse.bind_some this]
    rfl
  | cons a as ih =>
    simp only [List.length_cons] at hf
    obtain ⟨n, rfl⟩ : ∃ n, fuel = n + 1 := ⟨fuel - 1, by omega⟩
    have hb := Parse.bool_undoes true (enc a ++ (encList enc as ++ rest))
    have he : encList enc (a :: as) ++ rest = encBool true ++ (enc a ++ (encList enc as ++ rest)) := by
      simp [encList, encBool]
    rw [Parse.listUpTo, he, Parse.bind_some hb]
    simp only [if_true]
    rw [Parse.bind_some (h a _), Parse.bind_some (ih n (by omega))]
    rfl

theorem encList_length {α : Type} (enc : α → List Byte) (l : List α) :
    l.length < (encList enc l).length := by
  induction l with
  | nil => simp [encList]
  | cons a as ih => simp only [encList, List.length_cons, List.length_append]; omega

theorem Parse.list_undoes {α : Type} {p : Parse α} {enc : α → List Byte} (h : p.Undoes enc) :
    (Parse.list p).Undoes (encList enc) := fun l rest => by
  refine Parse.listUpTo_undoes h l rest _ ?_
  have := encList_length enc l
  simp only [List.length_append]; omega

theorem Parse.bytes_undoes : Parse.bytes.Undoes encBytes := Parse.list_undoes Parse.byte_undoes

theorem natDigits_value (fuel p : Nat) (h : p ≤ fuel) :
    (natDigits fuel p).foldr (fun (d : Byte) acc => d.toNat + 256 * acc) 0 = p := by
  induction fuel generalizing p with
  | zero => simp only [natDigits, List.foldr_nil]; omega
  | succ n ih =>
    rw [natDigits]
    split
    · rename_i h0; simp [h0]
    · rw [List.foldr_cons, ih (p / 256) (by omega)]
      simp only [BitVec.toNat_ofNat]
      omega

theorem Parse.nat_undoes : Parse.nat.Undoes encNat := fun p rest => by
  rw [Parse.nat, encNat, Parse.map_some (Parse.bytes_undoes _ _), natDigits_value p p le_rfl]

theorem Parse.header_undoes : Parse.header.Undoes encHeader := fun h rest => by
  simp only [encHeader, List.append_assoc]
  rw [Parse.header, Parse.bind_some (Parse.word16_undoes _ _),
    Parse.bind_some (Parse.bool_undoes _ _), Parse.bind_some (Parse.opcode_undoes _ _),
    Parse.bind_some (Parse.bool_undoes _ _), Parse.bind_some (Parse.bool_undoes _ _),
    Parse.bind_some (Parse.bool_undoes _ _), Parse.bind_some (Parse.bool_undoes _ _),
    Parse.bind_some (Parse.bits_undoes (by omega) _ _), Parse.bind_some (Parse.rcode_undoes _ _),
    Parse.bind_some (Parse.word16_undoes _ _), Parse.bind_some (Parse.word16_undoes _ _),
    Parse.bind_some (Parse.word16_undoes _ _), Parse.bind_some (Parse.word16_undoes _ _)]
  rfl

theorem Parse.question_undoes : Parse.question.Undoes encQuestion := fun q rest => by
  simp only [encQuestion, List.append_assoc]
  rw [Parse.question, Parse.bind_some (Parse.bytes_undoes _ _),
    Parse.bind_some (Parse.rtype_undoes _ _), Parse.bind_some (Parse.rclass_undoes _ _)]
  rfl

theorem Parse.record_undoes : Parse.record.Undoes encRecord := fun r rest => by
  simp only [encRecord, List.append_assoc]
  rw [Parse.record, Parse.bind_some (Parse.bytes_undoes _ _),
    Parse.bind_some (Parse.rtype_undoes _ _), Parse.bind_some (Parse.rclass_undoes _ _),
    Parse.bind_some (Parse.word32_undoes _ _), Parse.bind_some (Parse.word16_undoes _ _),
    Parse.bind_some (Parse.bytes_undoes _ _)]
  rfl

theorem Parse.message_undoes : Parse.message.Undoes encMessage := fun m rest => by
  simp only [encMessage, List.append_assoc]
  rw [Parse.message, Parse.bind_some (Parse.header_undoes _ _),
    Parse.bind_some (Parse.list_undoes Parse.question_undoes _ _),
    Parse.bind_some (Parse.list_undoes Parse.record_undoes _ _),
    Parse.bind_some (Parse.list_undoes Parse.record_undoes _ _),
    Parse.bind_some (Parse.list_undoes Parse.record_undoes _ _)]
  rfl

/-! ## Transactions -/

theorem decode_of_head {t : Transaction} {i : Instr} (h : decodeHead t.format t.bytes = .ok (i, [])) :
    decode t = .ok i := by simp [decode, h]

/-- A command decodes by its code's row and its operands. -/
theorem decode_command {code : Byte} {p : Parse Instr} {operands : List Byte} {i : Instr}
    (hc : lookupCode commandTable code = some p) (hp : p operands = some (i, [])) :
    decode (command code operands) = .ok i :=
  decode_of_head (by simp [command, decodeHead, decodeCoded, hc, hp])

theorem decode_pseudo {code : Byte} {p : Parse Instr} {operands : List Byte} {i : Instr}
    (hc : lookupCode pseudoTable code = some p) (hp : p operands = some (i, [])) :
    decode ⟨.pseudo, code :: operands⟩ = .ok i :=
  decode_of_head (by simp [decodeHead, decodeCoded, hc, hp])

theorem decode_layout {code : Byte} {p : Parse Instr} {operands : List Byte} {i : Instr}
    (hc : lookupCode layoutTable code = some p) (hp : p operands = some (i, [])) :
    decode ⟨.layout, code :: operands⟩ = .ok i :=
  decode_of_head (by simp [decodeHead, decodeCoded, hc, hp])

/-- Operands alone, with nothing behind them. -/
theorem Parse.Undoes.nil {α : Type} {p : Parse α} {enc : α → List Byte} (h : p.Undoes enc) (a : α) :
    p (enc a) = some (a, []) := by simpa using h a []

end Sys2Proof
end

