-- ==== Sys2Proof/Laws/Names.lean ====
section
/-! SUPPORT. What READ_NAME's levels do over what stands in the buffer: one lemma per way a level can
end, that no other way exists, and the same for the whole name. -/

namespace Sys2Proof.Machine

/-- Every address below SIZE holds a byte. -/
def Buf.Filled (b : Buf) : Prop := ∀ a, a < b.size → (Memory.read b.cells a).isSome

theorem Buf.Filled.byteAt {b : Buf} (h : b.Filled) {a : Nat} (ha : a < b.size) :
    ∃ v, ByteAt b a v := by
  obtain ⟨v, hv⟩ := Option.isSome_iff_exists.1 (h a ha)
  exact ⟨v, ha, hv⟩

theorem Buf.Filled.bytesAt {b : Buf} (h : b.Filled) (n p : Nat) (hp : p + n ≤ b.size) :
    ∃ bs, bs.length = n ∧ BytesAt b p bs := by
  induction n generalizing p with
  | zero => exact ⟨[], rfl, hp⟩
  | succ n ih =>
    obtain ⟨v, hv⟩ := h.byteAt (a := p) (by omega)
    obtain ⟨bs, hl, hb⟩ := ih (p + 1) (by omega)
    exact ⟨v :: bs, by simp [hl], hv, hb⟩

/-- Each label takes at least a length byte, and labels that stand end inside the buffer. -/
theorem LabelsAt.bounds {b : Buf} {p q : Nat} {labels : List (List Byte)} (h : LabelsAt b p labels q)
    (hp : p ≤ b.size) : p + labels.length ≤ q ∧ q ≤ b.size := by
  induction h with
  | nil p => exact ⟨by simp, hp⟩
  | cons p q len lab rest hb h1 h2 hl hlab _ ih =>
    have := hlab.le
    have := ih (by omega)
    simp only [List.length_cons]
    omega

/-- The kinds of element that can stand at `q`, or be cut off there. -/
inductive ElementAt (b : Buf) (q : Nat) : Prop where
  | cut : CutOffAt b q → ElementAt b q
  | ends : ByteAt b q 0x00#8 → ElementAt b q
  | pointer (off : Nat) : PointerAt b q off → ElementAt b q
  | invalid (v : Byte) : ByteAt b q v → 64 ≤ v.toNat → v.toNat ≤ 191 → ElementAt b q

/-- From any position there are labels up to an element that is no label. -/
theorem labels_then_element {b : Buf} (hf : b.Filled) (n p : Nat) (hn : b.size - p ≤ n) :
    ∃ labels q, LabelsAt b p labels q ∧ ElementAt b q := by
  induction n generalizing p with
  | zero => exact ⟨[], p, .nil p, .cut (.inl (by omega))⟩
  | succ n ih =>
    by_cases hp : b.size ≤ p
    · exact ⟨[], p, .nil p, .cut (.inl hp)⟩
    obtain ⟨v, hv⟩ := hf.byteAt (a := p) (by omega)
    by_cases h0 : v = 0x00#8
    · subst h0; exact ⟨[], p, .nil p, .ends hv⟩
    have hv0 : 1 ≤ v.toNat := by
      rcases Nat.eq_zero_or_pos v.toNat with h | h
      · exact absurd (BitVec.eq_of_toNat_eq (by simpa using h)) h0
      · exact h
    by_cases h1 : v.toNat ≤ 63
    · by_cases hc : b.size < p + 1 + v.toNat
      · exact ⟨[], p, .nil p, .cut (.inr (.inl ⟨v, hv, hv0, h1, hc⟩))⟩
      obtain ⟨lab, hl, hb⟩ := hf.bytesAt v.toNat (p + 1) (by omega)
      obtain ⟨labels, q, hls, he⟩ := ih (p + 1 + lab.length) (by omega)
      exact ⟨lab :: labels, q, .cons p q v lab labels hv hv0 h1 hl hb hls, he⟩
    by_cases h2 : v.toNat ≤ 191
    · exact ⟨[], p, .nil p, .invalid v hv (by omega) h2⟩
    by_cases hs : b.size ≤ p + 1
    · exact ⟨[], p, .nil p, .cut (.inr (.inr ⟨v, hv, by omega, hs⟩))⟩
    obtain ⟨b1, hb1⟩ := hf.byteAt (a := p + 1) (by omega)
    exact ⟨[], p, .nil p, .pointer _ ⟨v, b1, hv, hb1, by omega, rfl⟩⟩

/-! ## One level -/

/-- Fuel enough for the labels leaves fuel for the element after them. -/
theorem nameElements_level {b : Buf} {c : Cursor} {q : Nat} {labels : List (List Byte)}
    (hp : c.rpos ≤ b.size) (h : LabelsAt b c.rpos labels q) : ∃ fuel,
    nameElements (b.size - c.rpos + 1) b c =
      Body.bind (nameElements (fuel + 1)) (fun rest => Body.pure (labels ++ rest.1, rest.2)) b
        { c with rpos := q } := by
  have := h.bounds hp
  refine ⟨b.size - c.rpos - labels.length, ?_⟩
  rw [← nameElements_of_labelsAt h rfl]
  congr 1
  omega

theorem nameElements_ends {b : Buf} {c : Cursor} {q : Nat} {labels : List (List Byte)}
    (hp : c.rpos ≤ b.size) (h : LabelsAt b c.rpos labels q) (hb : ByteAt b q 0x00#8) :
    nameElements (b.size - c.rpos + 1) b c = .ok (labels, none) { c with rpos := q + 1 } := by
  obtain ⟨fuel, hl⟩ := nameElements_level hp h
  have h8 := readU8_of_byteAt (c := { c with rpos := q }) hb
  have he : nameElements (fuel + 1) b { c with rpos := q } =
      .ok ([], none) { c with rpos := q + 1 } := by
    rw [nameElements, Body.bind_ok h8, firstByte_zero]; rfl
  rw [hl, Body.bind_ok he]; simp

theorem nameElements_pointer {b : Buf} {c : Cursor} {q off : Nat} {labels : List (List Byte)}
    (hp : c.rpos ≤ b.size) (h : LabelsAt b c.rpos labels q) (ho : PointerAt b q off) :
    ∃ o : BitVec 14, o.toNat = off ∧
      nameElements (b.size - c.rpos + 1) b c = .ok (labels, some o) { c with rpos := q + 2 } := by
  obtain ⟨fuel, hl⟩ := nameElements_level hp h
  obtain ⟨b0, b1, hb0, hb1, h192, rfl⟩ := ho
  have h8 := readU8_of_byteAt (c := { c with rpos := q }) hb0
  have h9 := readU8_of_byteAt (c := { c with rpos := q + 1 }) hb1
  have hlt := b0.isLt
  refine ⟨pointerOffset (b0.extractLsb' 0 6) b1, ?_, ?_⟩
  · rw [pointerOffset_toNat, low_six_bits]; omega
  · have he : nameElements (fuel + 1) b { c with rpos := q } =
        .ok ([], some (pointerOffset (b0.extractLsb' 0 6) b1)) { c with rpos := q + 2 } := by
      rw [nameElements, Body.bind_ok h8, firstByte_pointer h192]
      simp only
      rw [Body.bind_ok h9]; rfl
    rw [hl, Body.bind_ok he]; simp

theorem nameElements_invalid {b : Buf} {c : Cursor} {q : Nat} {labels : List (List Byte)} {v : Byte}
    (hp : c.rpos ≤ b.size) (h : LabelsAt b c.rpos labels q) (hb : ByteAt b q v)
    (h1 : 64 ≤ v.toNat) (h2 : v.toNat ≤ 191) :
    nameElements (b.size - c.rpos + 1) b c =
      .raised .invalidLabelEncoding { c with rpos := q + 1 } := by
  obtain ⟨fuel, hl⟩ := nameElements_level hp h
  have h8 := readU8_of_byteAt (c := { c with rpos := q }) hb
  have he : nameElements (fuel + 1) b { c with rpos := q } =
      .raised .invalidLabelEncoding { c with rpos := q + 1 } := by
    rw [nameElements, Body.bind_ok h8]
    by_cases hv : v.toNat ≤ 127
    · rw [firstByte_invalid01 h1 hv]; rfl
    · rw [firstByte_invalid10 (by omega) h2]; rfl
  rw [hl, Body.bind_raised he]

theorem nameElements_cut {b : Buf} {c : Cursor} {q : Nat} {labels : List (List Byte)}
    (hp : c.rpos ≤ b.size) (h : LabelsAt b c.rpos labels q) (hc : CutOffAt b q) :
    nameElements (b.size - c.rpos + 1) b c = .raised .truncatedMessage { c with rpos := b.size } := by
  obtain ⟨fuel, hl⟩ := nameElements_level hp h
  have hq := (h.bounds hp).2
  have he : nameElements (fuel + 1) b { c with rpos := q } =
      .raised .truncatedMessage { c with rpos := b.size } := by
    rcases hc with hs | ⟨v, hv, h1, h2, hs⟩ | ⟨v, hv, h1, hs⟩
    · obtain rfl : q = b.size := by omega
      rw [nameElements, Body.bind_raised (readU8_at_end (c := { c with rpos := b.size }) (by simp))]
    · have h8 := readU8_of_byteAt (c := { c with rpos := q }) hv
      have hlen : (v.extractLsb' 0 6).toNat = v.toNat := by rw [low_six_bits]; omega
      rw [nameElements, Body.bind_ok h8, firstByte_label h1 h2]
      simp only [hlen]
      have := hv.1
      rw [Body.bind_raised (readBytes_truncated (c := { c with rpos := q + 1 })
        (by simp only; omega) (by simp only; omega))]
    · have h8 := readU8_of_byteAt (c := { c with rpos := q }) hv
      have := hv.1
      have hsz : b.size = q + 1 := by omega
      rw [nameElements, Body.bind_ok h8, firstByte_pointer h1, hsz]
      simp only
      rw [Body.bind_raised (readU8_at_end (c := { c with rpos := q + 1 }) hs)]
  rw [hl, Body.bind_raised he]

/-! ## Following a pointer -/

theorem followPointer_limit {off : BitVec 14} {target : Body (List (List Byte))} {b : Buf} {c : Cursor}
    (h : c.hops = Config.pointerLimit) :
    followPointer off target b c = .raised .pointerLimitExceeded c := by simp [followPointer, h]

theorem followPointer_above {off : BitVec 14} {target : Body (List (List Byte))} {b : Buf} {c : Cursor}
    (h : c.hops ≠ Config.pointerLimit) (ho : b.size < off.toNat) :
    followPointer off target b c = .raised .truncatedMessage c := by
  simp [followPointer, h, setPosition, ho]

/-- A pointer that is followed ends as its target does, with the cursor back (R114). -/
theorem followPointer_ok {off : BitVec 14} {target : Body (List (List Byte))} {b : Buf} {c c' : Cursor}
    {rest : List (List Byte)} (ht : target.Keeps) (h : c.hops ≠ Config.pointerLimit)
    (ho : off.toNat ≤ b.size)
    (hr : target b { rpos := off.toNat, hops := c.hops + 1, saved := c.rpos :: c.saved } =
      .ok rest c') : followPointer off target b c = .ok rest c := by
  have hc := followPointer_cursor (off := off) ht b c
  have hs : setPosition off.toNat b c = .ok () { c with rpos := off.toNat } := by
    simp [setPosition, show ¬ off.toNat > b.size by omega]
  have : followPointer off target b c = .ok rest c'.restore := by
    simp [followPointer, h, hs, hr]
  rw [this] at hc ⊢
  rw [show c'.restore = c from hc]

theorem followPointer_raised {off : BitVec 14} {target : Body (List (List Byte))} {b : Buf}
    {c c' : Cursor} {f : FaultInfo} (ht : target.Keeps) (h : c.hops ≠ Config.pointerLimit)
    (ho : off.toNat ≤ b.size)
    (hr : target b { rpos := off.toNat, hops := c.hops + 1, saved := c.rpos :: c.saved } =
      .raised f c') : followPointer off target b c = .raised f c := by
  have hc := followPointer_cursor (off := off) ht b c
  have hs : setPosition off.toNat b c = .ok () { c with rpos := off.toNat } := by
    simp [setPosition, show ¬ off.toNat > b.size by omega]
  have : followPointer off target b c = .raised f c'.restore := by
    simp [followPointer, h, hs, hr]
  rw [this] at hc ⊢
  rw [show c'.restore = c from hc]

/-! ## A whole name -/

theorem nameAtDepth_succ (n : Nat) (b : Buf) (c : Cursor) : nameAtDepth (n + 1) b c =
    Body.bind (nameElements (b.size - c.rpos + 1)) (fun level =>
      match level.2 with
      | none => Body.pure level.1
      | some off => Body.bind (followPointer off (nameAtDepth n)) fun rest =>
          Body.pure (level.1 ++ rest)) b c := rfl

/-- A level that ends in a pointer ends as following it does. -/
theorem nameAtDepth_pointer {b : Buf} {c : Cursor} {q off : Nat} (n : Nat) {labels : List (List Byte)}
    (hp : c.rpos ≤ b.size) (h : LabelsAt b c.rpos labels q) (ho : PointerAt b q off) :
    ∃ o : BitVec 14, o.toNat = off ∧ nameAtDepth (n + 1) b c =
      Body.bind (followPointer o (nameAtDepth n)) (fun rest => Body.pure (labels ++ rest)) b
        { c with rpos := q + 2 } := by
  obtain ⟨o, h1, h2⟩ := nameElements_pointer hp h ho
  exact ⟨o, h1, by rw [nameAtDepth_succ, Body.bind_ok h2]⟩

/-- A name that stands is decoded (R111, R117, R118). -/
theorem nameAtDepth_of_nameAt {b : Buf} {h p e : Nat} {labels : List (List Byte)}
    (hn : NameAt b h p labels e) : ∀ {c : Cursor} {n : Nat}, c.rpos = p → c.hops = h →
      p ≤ b.size → n + h = Config.pointerLimit →
      nameAtDepth (n + 1) b c = .ok labels { c with rpos := e } := by
  induction hn with
  | ends h p q labels hl hb =>
    rintro c n rfl rfl hp hn
    rw [nameAtDepth_succ, Body.bind_ok (nameElements_ends hp hl hb)]
    rfl
  | points h p q off e labels rest hl ho hlim hoff _ ih =>
    rintro c n rfl rfl hp hn
    obtain ⟨n, rfl⟩ : ∃ m, n = m + 1 := ⟨n - 1, by omega⟩
    obtain ⟨o, rfl, hd⟩ := nameAtDepth_pointer (n + 1) hp hl ho
    have hr := ih (c := { rpos := o.toNat, hops := c.hops + 1, saved := (q + 2) :: c.saved }) (n := n)
      rfl rfl hoff (by omega)
    rw [hd, Body.bind_ok (followPointer_ok (nameAtDepth_keeps (n + 1))
      (c := { c with rpos := q + 2 }) (by simp only; omega) hoff hr)]
    rfl

/-- What goes wrong at the element reached after `k` pointers goes wrong for the name, with the cursor
where the fault left it at the top level and just after the first pointer otherwise (R114). -/
theorem nameAtDepth_of_reaches {b : Buf} {p k q : Nat} (hr : Reaches b p k q) {f : FaultInfo}
    {e T : Nat} (hT : T ≤ Config.pointerLimit)
    (base : ∀ {c : Cursor} {n : Nat} {labels : List (List Byte)}, c.rpos ≤ b.size →
      LabelsAt b c.rpos labels q → c.hops = T → n + T = Config.pointerLimit →
      nameAtDepth (n + 1) b c = .raised f { c with rpos := e }) :
    ∀ {c : Cursor} {n : Nat}, c.rpos = p → c.rpos ≤ b.size → c.hops + k = T →
      n + c.hops = Config.pointerLimit →
      ∃ e', nameAtDepth (n + 1) b c = .raised f { c with rpos := e' } ∧ (k = 0 → e' = e) := by
  induction hr with
  | here p q labels hl =>
    rintro c n rfl hp hk hn
    exact ⟨e, base hp hl (by omega) (by omega), fun _ => rfl⟩
  | jump p q' off h r labels hl ho hoff _ ih =>
    rintro c n rfl hp hk hn
    obtain ⟨n, rfl⟩ : ∃ m, n = m + 1 := ⟨n - 1, by omega⟩
    obtain ⟨o, rfl, hd⟩ := nameAtDepth_pointer (n + 1) hp hl ho
    obtain ⟨e', he, -⟩ := ih base
      (c := { rpos := o.toNat, hops := c.hops + 1, saved := (q' + 2) :: c.saved }) (n := n)
      rfl hoff (by simp only; omega) (by simp only; omega)
    refine ⟨q' + 2, ?_, fun h => absurd h (by omega)⟩
    rw [hd, Body.bind_raised (followPointer_raised (nameAtDepth_keeps (n + 1))
      (c := { c with rpos := q' + 2 }) (by simp only; omega) hoff he)]

/-- The ways a name can end (R111): it stands, it is cut off, a pointer leads above SIZE, a sixth
pointer is met, or a byte is undefined. -/
inductive NameEnds (b : Buf) (h p : Nat) : Prop where
  | stands (labels : List (List Byte)) (e : Nat) : NameAt b h p labels e → NameEnds b h p
  | cut (k q : Nat) : Reaches b p k q → h + k ≤ Config.pointerLimit → CutOffAt b q → NameEnds b h p
  | above (k q off : Nat) : Reaches b p k q → h + k < Config.pointerLimit → PointerAt b q off →
      b.size < off → NameEnds b h p
  | limit (k q off : Nat) : Reaches b p k q → h + k = Config.pointerLimit → PointerAt b q off →
      NameEnds b h p
  | invalid (k q : Nat) (v : Byte) : Reaches b p k q → h + k ≤ Config.pointerLimit → ByteAt b q v →
      64 ≤ v.toNat → v.toNat ≤ 191 → NameEnds b h p

/-- There is no other way. -/
theorem nameEnds {b : Buf} (hf : b.Filled) (n h p : Nat) (hn : n + h = Config.pointerLimit) :
    NameEnds b h p := by
  induction n generalizing h p with
  | zero =>
    obtain ⟨labels, q, hl, he⟩ := labels_then_element hf _ p le_rfl
    cases he with
    | cut hc => exact .cut 0 q (.here p q labels hl) (by omega) hc
    | ends hb => exact .stands labels _ (.ends h p q labels hl hb)
    | pointer off ho => exact .limit 0 q off (.here p q labels hl) (by omega) ho
    | invalid v hv h1 h2 => exact .invalid 0 q v (.here p q labels hl) (by omega) hv h1 h2
  | succ n ih =>
    obtain ⟨labels, q, hl, he⟩ := labels_then_element hf _ p le_rfl
    cases he with
    | cut hc => exact .cut 0 q (.here p q labels hl) (by omega) hc
    | ends hb => exact .stands labels _ (.ends h p q labels hl hb)
    | invalid v hv h1 h2 => exact .invalid 0 q v (.here p q labels hl) (by omega) hv h1 h2
    | pointer off ho =>
      by_cases hoff : b.size < off
      · exact .above 0 q off (.here p q labels hl) (by omega) ho hoff
      have hoff : off ≤ b.size := by omega
      cases ih (h + 1) off (by omega) with
      | stands rest e hr =>
        exact .stands _ _ (.points h p q off e labels rest hl ho (by omega) hoff hr)
      | cut k r hr hk hc => exact .cut (k + 1) r (.jump p q off k r labels hl ho hoff hr) (by omega) hc
      | above k r o hr hk h1 h2 =>
        exact .above (k + 1) r o (.jump p q off k r labels hl ho hoff hr) (by omega) h1 h2
      | limit k r o hr hk h1 =>
        exact .limit (k + 1) r o (.jump p q off k r labels hl ho hoff hr) (by omega) h1
      | invalid k r v hr hk h1 h2 h3 =>
        exact .invalid (k + 1) r v (.jump p q off k r labels hl ho hoff hr) (by omega) h1 h2 h3

/-! ## READ_NAME -/

/-- A cursor with no READ_NAME in progress. -/
def Cursor.Idle (c : Cursor) : Prop := c.hops = 0 ∧ c.saved = []

theorem Cursor.Idle.start {c : Cursor} (h : c.Idle) : { c with hops := 0, saved := [] } = c := by
  obtain ⟨rpos, hops, saved⟩ := c
  obtain ⟨rfl, rfl⟩ := h
  rfl

theorem readName_run {c : Cursor} (h : c.Idle) (b : Buf) :
    readName b c = Body.map (join dot) (nameAtDepth (Config.pointerLimit + 1)) b c := by
  rw [readName, h.start]

theorem readName_of_nameAt {b : Buf} {c : Cursor} {labels : List (List Byte)} {e : Nat} (hi : c.Idle)
    (hp : c.rpos ≤ b.size) (h : NameAt b 0 c.rpos labels e) :
    readName b c = .ok (join dot labels) { c with rpos := e } := by
  rw [readName_run hi]
  exact Body.map_eq_ok.2 ⟨labels, nameAtDepth_of_nameAt h rfl hi.1 hp rfl, rfl⟩

/-- The four faults of READ_NAME, from what stands (R112, R113, R115, R116). -/
theorem readName_raised {b : Buf} {c : Cursor} {k q e : Nat} {f : FaultInfo} (hi : c.Idle)
    (hp : c.rpos ≤ b.size) (hr : Reaches b c.rpos k q) (hk : k ≤ Config.pointerLimit)
    (base : ∀ {c : Cursor} {n : Nat} {labels : List (List Byte)}, c.rpos ≤ b.size →
      LabelsAt b c.rpos labels q → c.hops = k → n + k = Config.pointerLimit →
      nameAtDepth (n + 1) b c = .raised f { c with rpos := e }) :
    ∃ e', readName b c = .raised f { c with rpos := e' } ∧ (k = 0 → e' = e) := by
  obtain ⟨e', h1, h2⟩ := nameAtDepth_of_reaches hr hk base (c := c) (n := Config.pointerLimit) rfl hp
    (by rw [hi.1]; omega) (by rw [hi.1]; omega)
  exact ⟨e', by rw [readName_run hi]; exact Body.map_eq_raised.2 h1, h2⟩

theorem readName_of_cut {b : Buf} {c : Cursor} {k q : Nat} (hi : c.Idle) (hp : c.rpos ≤ b.size)
    (hr : Reaches b c.rpos k q) (hk : k ≤ Config.pointerLimit) (hc : CutOffAt b q) :
    ∃ e, readName b c = .raised .truncatedMessage { c with rpos := e } ∧ (k = 0 → e = b.size) :=
  readName_raised hi hp hr hk fun hp hl _ _ => by
    rw [nameAtDepth_succ, Body.bind_raised (nameElements_cut hp hl hc)]

theorem readName_of_above {b : Buf} {c : Cursor} {k q off : Nat} (hi : c.Idle) (hp : c.rpos ≤ b.size)
    (hr : Reaches b c.rpos k q) (hk : k < Config.pointerLimit) (ho : PointerAt b q off)
    (hs : b.size < off) :
    ∃ e, readName b c = .raised .truncatedMessage { c with rpos := e } ∧ (k = 0 → e = q + 2) :=
  readName_raised hi hp hr (by omega) fun {c n labels} hp hl hh hn => by
    obtain ⟨o, rfl, hd⟩ := nameAtDepth_pointer n hp hl ho
    rw [hd, Body.bind_raised (followPointer_above (c := { c with rpos := q + 2 })
      (by simp only; omega) hs)]

theorem readName_of_limit {b : Buf} {c : Cursor} {q off : Nat} (hi : c.Idle) (hp : c.rpos ≤ b.size)
    (hr : Reaches b c.rpos Config.pointerLimit q) (ho : PointerAt b q off) :
    ∃ e, readName b c = .raised .pointerLimitExceeded { c with rpos := e } := by
  obtain ⟨e, h, -⟩ := readName_raised (e := q + 2) (f := .pointerLimitExceeded) hi hp hr le_rfl
    fun {c n labels} hp hl hh hn => by
      obtain ⟨o, rfl, hd⟩ := nameAtDepth_pointer n hp hl ho
      rw [hd, Body.bind_raised (followPointer_limit (c := { c with rpos := q + 2 }) hh)]
  exact ⟨e, h⟩

theorem readName_of_invalid {b : Buf} {c : Cursor} {k q : Nat} {v : Byte} (hi : c.Idle)
    (hp : c.rpos ≤ b.size) (hr : Reaches b c.rpos k q) (hk : k ≤ Config.pointerLimit)
    (hv : ByteAt b q v) (h1 : 64 ≤ v.toNat) (h2 : v.toNat ≤ 191) :
    ∃ e, readName b c = .raised .invalidLabelEncoding { c with rpos := e } ∧ (k = 0 → e = q + 1) :=
  readName_raised hi hp hr hk fun hp hl _ _ => by
    rw [nameAtDepth_succ, Body.bind_raised (nameElements_invalid hp hl hv h1 h2)]

/-- READ_NAME completes only where a name stands. -/
theorem nameAt_of_readName {b : Buf} {c c' : Cursor} {n : Name} (hf : b.Filled) (hi : c.Idle)
    (hp : c.rpos ≤ b.size) (h : readName b c = .ok n c') :
    ∃ labels e, NameAt b 0 c.rpos labels e ∧ n = join dot labels ∧ c' = { c with rpos := e } := by
  cases nameEnds hf Config.pointerLimit 0 c.rpos rfl with
  | stands labels e hn =>
    rw [readName_of_nameAt hi hp hn] at h
    cases h
    exact ⟨labels, e, hn, rfl, rfl⟩
  | cut k q hr hk hc =>
    obtain ⟨e, he, -⟩ := readName_of_cut hi hp hr (by omega) hc
    rw [he] at h; cases h
  | above k q off hr hk ho hs =>
    obtain ⟨e, he, -⟩ := readName_of_above hi hp hr (by omega) ho hs
    rw [he] at h; cases h
  | limit k q off hr hk ho =>
    obtain rfl : k = Config.pointerLimit := by omega
    obtain ⟨e, he⟩ := readName_of_limit hi hp hr ho
    rw [he] at h; cases h
  | invalid k q v hr hk hv h1 h2 =>
    obtain ⟨e, he, -⟩ := readName_of_invalid hi hp hr (by omega) hv h1 h2
    rw [he] at h; cases h

end Sys2Proof.Machine
end

