-- ==== Sys2Proof/Laws/Ops.lean ====
section
/-! SUPPORT. Everything each shared operation can do, said once: the gate, the write side, the pure
side; which faults a body can raise; and that the invariant survives each operation. -/

namespace Sys2Proof.Machine

/-! ## The gate -/

theorem readSide_sticky {body : Body Result} {s : State} {f : FaultInfo} (h : s.rstatus = .fault f) :
    readSide body s = .next (s.respond (.fault f)) := by simp [readSide, h]

theorem readSide_done {body : Body Result} {s : State} {r : Result} {c : Cursor}
    (h : s.rstatus = .ok) (hb : body s.buf s.cursor = .ok r c) :
    readSide body s = .next ((s.withCursor c).respond (.done r)) := by simp [readSide, h, hb]

theorem readSide_fault {body : Body Result} {s : State} {f : FaultInfo} {c : Cursor}
    (h : s.rstatus = .ok) (hb : body s.buf s.cursor = .raised f c) :
    readSide body s = .next ((s.withCursor c).takeFault f) := by simp [readSide, h, hb]

/-- A body that completed with only RPOS moved. -/
theorem readSide_readTo {body : Body Result} {s : State} {r : Result} {e : Nat} (h : s.rstatus = .ok)
    (hb : body s.buf s.cursor = .ok r { s.cursor with rpos := e }) :
    readSide body s = .next (s.readTo e r) := readSide_done h hb

/-- A body that raised with only RPOS moved. -/
theorem readSide_faultAt {body : Body Result} {s : State} {f : FaultInfo} {e : Nat}
    (h : s.rstatus = .ok) (hb : body s.buf s.cursor = .raised f { s.cursor with rpos := e }) :
    readSide body s = .next (s.faultAt e f) := readSide_fault h hb

/-- The same for a body whose value is then named as a result. -/
theorem readSide_map_readTo {α : Type} {x : Body α} {g : α → Result} {s : State} {a : α} {e : Nat}
    (h : s.rstatus = .ok) (hb : x s.buf s.cursor = .ok a { s.cursor with rpos := e }) :
    readSide (x.map g) s = .next (s.readTo e (g a)) :=
  readSide_readTo h (Body.map_eq_ok.2 ⟨a, hb, rfl⟩)

theorem readSide_map_faultAt {α : Type} {x : Body α} {g : α → Result} {s : State} {f : FaultInfo}
    {e : Nat} (h : s.rstatus = .ok) (hb : x s.buf s.cursor = .raised f { s.cursor with rpos := e }) :
    readSide (x.map g) s = .next (s.faultAt e f) :=
  readSide_faultAt h (Body.map_eq_raised.2 hb)

/-- Everything a read-side operation can do (41_cursor_read.md R100). -/
theorem readSide_cases {body : Body Result} {s t : State} (h : readSide body s = .next t) :
    (∃ f, s.rstatus = .fault f ∧ t = s.respond (.fault f)) ∨
    (∃ r c, s.rstatus = .ok ∧ body s.buf s.cursor = .ok r c ∧
      t = (s.withCursor c).respond (.done r)) ∨
    (∃ f c, s.rstatus = .ok ∧ body s.buf s.cursor = .raised f c ∧
      t = (s.withCursor c).takeFault f) := by
  cases hs : s.rstatus with
  | fault f =>
    rw [readSide_sticky hs] at h
    exact .inl ⟨f, rfl, by simpa using h.symm⟩
  | ok =>
    cases hb : body s.buf s.cursor with
    | ok r c =>
      rw [readSide_done hs hb] at h
      exact .inr (.inl ⟨r, c, rfl, rfl, by simpa using h.symm⟩)
    | raised f c =>
      rw [readSide_fault hs hb] at h
      exact .inr (.inr ⟨f, c, rfl, rfl, by simpa using h.symm⟩)

/-- A read-side operation that answered with a result completed its body. -/
theorem readSide_map_done {α : Type} {x : Body α} {g : α → Result} {s t : State} {r : Result}
    (h : readSide (x.map g) s = .next t) (ha : t.answer = some (.done r)) :
    s.rstatus = .ok ∧ ∃ a c, x s.buf s.cursor = .ok a c ∧ r = g a ∧
      t = (s.withCursor c).respond (.done (g a)) := by
  obtain ⟨f, -, rfl⟩ | ⟨r', c, hs, hb, rfl⟩ | ⟨f, c, -, -, rfl⟩ := readSide_cases h
  · simp at ha
  · obtain ⟨a, h1, rfl⟩ := Body.map_eq_ok.1 hb
    simp only [State.respond_answer, Option.some.injEq, Response.done.injEq] at ha
    exact ⟨hs, a, c, h1, ha.symm, rfl⟩
  · simp at ha

/-- A read-side operation always answers. -/
theorem readSide_answers (body : Body Result) (s : State) : ∃ t, readSide body s = .next t := by
  cases hs : s.rstatus with
  | fault f => exact ⟨_, readSide_sticky hs⟩
  | ok =>
    cases hb : body s.buf s.cursor with
    | ok r c => exact ⟨_, readSide_done hs hb⟩
    | raised f c => exact ⟨_, readSide_fault hs hb⟩

/-- What a read-side operation leaves alone (60_exceptions.md R188). -/
theorem readSide_frame {body : Body Result} {s t : State} (h : readSide body s = .next t) :
    t.rx = s.rx ∧ t.size = s.size ∧ t.tx = s.tx ∧ t.host = s.host := by
  obtain ⟨f, -, rfl⟩ | ⟨r, c, -, -, rfl⟩ | ⟨f, c, -, -, rfl⟩ := readSide_cases h <;> simp

/-! ## The write side -/

@[simp] theorem writeSide_some (bs : List Byte) (s : State) :
    writeSide (some bs) s = .next ((s.appendTx bs).respond (.done .none)) := rfl

@[simp] theorem writeSide_none (s : State) : writeSide none s = .next s.refuse := rfl

/-- Everything a write-side operation can do (43_writer.md R125). -/
theorem writeSide_cases {output : Option (List Byte)} {s t : State}
    (h : writeSide output s = .next t) :
    (∃ bs, output = some bs ∧ t = (s.appendTx bs).respond (.done .none)) ∨
    (output = none ∧ t = s.refuse) := by
  cases output with
  | some bs => exact .inl ⟨bs, rfl, by simpa using h.symm⟩
  | none => exact .inr ⟨rfl, by simpa using h.symm⟩

/-! ## The pure side -/

@[simp] theorem pureSide_ok {α : Type} (g : α → Result) (a : α) (s : State) :
    pureSide g (.ok a) s = .next (s.respond (.done (g a))) := rfl

@[simp] theorem pureSide_error {α : Type} (g : α → Result) (f : FaultInfo) (s : State) :
    pureSide g (.error f) s = .next (s.respond (.fault f)) := rfl

/-- Everything a pure operation can do: answer (40_enums.md R80). -/
theorem pureSide_cases {α : Type} {g : α → Result} {v : Except FaultInfo α} {s t : State}
    (h : pureSide g v s = .next t) :
    (∃ a, v = .ok a ∧ t = s.respond (.done (g a))) ∨
    (∃ f, v = .error f ∧ t = s.respond (.fault f)) := by
  cases v with
  | ok a => exact .inl ⟨a, rfl, by simpa using h.symm⟩
  | error f => exact .inr ⟨f, rfl, by simpa using h.symm⟩

@[simp] theorem pureOrRefuse_some (r : Result) (s : State) :
    pureOrRefuse (some r) s = .next (s.respond (.done r)) := rfl

@[simp] theorem pureOrRefuse_none (s : State) : pureOrRefuse none s = .next s.refuse := rfl

theorem pureOrRefuse_cases {output : Option Result} {s t : State}
    (h : pureOrRefuse output s = .next t) :
    (∃ r, output = some r ∧ t = s.respond (.done r)) ∨ (output = none ∧ t = s.refuse) := by
  cases output with
  | some r => exact .inl ⟨r, rfl, by simpa using h.symm⟩
  | none => exact .inr ⟨rfl, by simpa using h.symm⟩

/-! ## Which faults a body can raise -/

/-- Every fault the body raises meets `P`. -/
def Body.Raises {α : Type} (P : FaultInfo → Prop) (x : Body α) : Prop :=
  ∀ b c f c', x b c = .raised f c' → P f

theorem Body.Raises.pure {α : Type} {P : FaultInfo → Prop} (a : α) : (Body.pure a).Raises P :=
  fun _ _ _ _ h => by cases h

theorem Body.Raises.raise {α : Type} {P : FaultInfo → Prop} {f : FaultInfo} (hf : P f) :
    (Body.raise f : Body α).Raises P := fun _ _ _ _ h => by cases h; exact hf

theorem Body.Raises.bind {α β : Type} {P : FaultInfo → Prop} {x : Body α} {f : α → Body β}
    (hx : x.Raises P) (hf : ∀ a, (f a).Raises P) : (Body.bind x f).Raises P := by
  intro b c e c' h
  rcases Body.bind_eq_raised.1 h with h | ⟨a, c1, -, h⟩
  · exact hx b c e c' h
  · exact hf a b c1 e c' h

theorem Body.Raises.map {α β : Type} {P : FaultInfo → Prop} {x : Body α} (hx : x.Raises P)
    (f : α → β) : (Body.map f x).Raises P := hx.bind fun a => Body.Raises.pure (f a)

theorem Body.Raises.times {α : Type} {P : FaultInfo → Prop} {x : Body α} (hx : x.Raises P) (n : Nat) :
    (Body.times x n).Raises P := by
  induction n with
  | zero => exact Body.Raises.pure []
  | succ n ih => exact hx.bind fun a => ih.bind fun as => Body.Raises.pure (a :: as)

theorem Body.Raises.ofExcept {α : Type} {P : FaultInfo → Prop} {v : Except FaultInfo α}
    (h : ∀ f, v = .error f → P f) : (Body.ofExcept v).Raises P := by
  cases v with
  | ok a => exact Body.Raises.pure a
  | error f => exact Body.Raises.raise (h f rfl)

theorem Body.Raises.mono {α : Type} {P Q : FaultInfo → Prop} {x : Body α} (hx : x.Raises P)
    (h : ∀ f, P f → Q f) : x.Raises Q := fun b c f c' hr => h f (hx b c f c' hr)

/-- The faults of the cursor reads (60_exceptions.md R187). -/
def isTruncated (f : FaultInfo) : Prop := f = .truncatedMessage

/-- The faults of READ_NAME (60_exceptions.md R187). -/
def isNameFault (f : FaultInfo) : Prop :=
  f = .truncatedMessage ∨ f = .invalidLabelEncoding ∨ f = .pointerLimitExceeded

theorem readU8_raises : readU8.Raises isTruncated := by
  intro b c f c' h
  simp only [readU8] at h
  split at h <;> cases h
  rfl

theorem readU16_raises : readU16.Raises isTruncated :=
  readU8_raises.bind fun _ => readU8_raises.bind fun _ => Body.Raises.pure _

theorem readU32_raises : readU32.Raises isTruncated :=
  readU8_raises.bind fun _ => readU8_raises.bind fun _ => readU8_raises.bind fun _ =>
  readU8_raises.bind fun _ => Body.Raises.pure _

theorem readBytes_raises (n : Nat) : (readBytes n).Raises isTruncated := readU8_raises.times n

theorem setPosition_raises (p : Nat) : (setPosition p).Raises isTruncated := by
  intro b c f c' h
  simp only [setPosition] at h
  split at h <;> cases h
  rfl

theorem nameElements_raises (n : Nat) : (nameElements n).Raises isNameFault := by
  induction n with
  | zero => exact Body.Raises.raise (.inl rfl)
  | succ n ih =>
    have h8 : readU8.Raises isNameFault := readU8_raises.mono fun f h => .inl h
    refine h8.bind fun b => ?_
    cases firstByte b with
    | terminator => exact Body.Raises.pure _
    | label len =>
      exact ((readBytes_raises _).mono fun f h => .inl h).bind fun _ =>
        ih.bind fun _ => Body.Raises.pure _
    | pointer high => exact h8.bind fun _ => Body.Raises.pure _
    | invalid01 x => exact Body.Raises.raise (.inr (.inl rfl))
    | invalid10 x => exact Body.Raises.raise (.inr (.inl rfl))

theorem followPointer_raises {off : BitVec 14} {target : Body (List (List Byte))}
    (ht : target.Raises isNameFault) : (followPointer off target).Raises isNameFault := by
  intro b c f c' h
  simp only [followPointer] at h
  split at h
  · cases h; exact .inr (.inr rfl)
  · split at h
    · rename_i hs
      cases h
      exact .inl (setPosition_raises _ _ _ _ _ hs)
    · split at h
      · cases h
      · rename_i hr
        cases h
        exact ht _ _ _ _ hr

theorem nameAtDepth_raises (n : Nat) : (nameAtDepth n).Raises isNameFault := by
  induction n with
  | zero => exact Body.Raises.raise (.inr (.inr rfl))
  | succ n ih =>
    intro b c f c' h
    refine (nameElements_raises (b.size - c.rpos + 1)).bind (fun level => ?_) b c f c' h
    cases level.2 with
    | none => exact Body.Raises.pure _
    | some off => exact (followPointer_raises ih).bind fun _ => Body.Raises.pure _

theorem readName_raises : readName.Raises isNameFault := by
  intro b c f c' h
  exact ((nameAtDepth_raises _).map (join dot)) b _ f c' h

theorem memberOrFault_error {M : Type} {m : Option M} {field : EnumField} {v : Word16} {f : FaultInfo}
    (h : memberOrFault m field v = .error f) : m = none ∧ f = .unknownEnumValue field v := by
  cases m with
  | none => simp only [memberOrFault, Except.error.injEq] at h; exact ⟨rfl, h.symm⟩
  | some a => cases h

theorem faultLegal_of_opcodeFrom {o : BitVec 4} {f : FaultInfo} (h : opcodeFrom o = .error f) :
    faultLegal f := by
  obtain ⟨h1, rfl⟩ := memberOrFault_error h
  have := o.isLt
  refine ⟨by simp only [BitVec.toNat_setWidth]; omega, ?_⟩
  rw [BitVec.setWidth_setWidth_of_le _ (by omega), BitVec.setWidth_eq]
  exact h1

theorem faultLegal_of_rcodeFrom {o : BitVec 4} {f : FaultInfo} (h : rcodeFrom o = .error f) :
    faultLegal f := by
  obtain ⟨h1, rfl⟩ := memberOrFault_error h
  have := o.isLt
  refine ⟨by simp only [BitVec.toNat_setWidth]; omega, ?_⟩
  rw [BitVec.setWidth_setWidth_of_le _ (by omega), BitVec.setWidth_eq]
  exact h1

theorem faultLegal_of_typeFrom {o : Word16} {f : FaultInfo} (h : typeFrom o = .error f) :
    faultLegal f := by
  obtain ⟨h1, rfl⟩ := memberOrFault_error h
  exact h1

theorem faultLegal_of_classFrom {o : Word16} {f : FaultInfo} (h : classFrom o = .error f) :
    faultLegal f := by
  obtain ⟨h1, rfl⟩ := memberOrFault_error h
  exact h1

theorem faultLegal_of_readFlags {w : Word16} {f : FaultInfo} (h : readFlags w = .error f) :
    faultLegal f := by
  simp only [readFlags] at h
  split at h
  · rename_i h1; cases h; exact faultLegal_of_opcodeFrom h1
  · split at h
    · rename_i h1; cases h; exact faultLegal_of_rcodeFrom h1
    · cases h

theorem faultLegal_of_truncated {f : FaultInfo} (h : isTruncated f) : faultLegal f := by
  cases h; trivial

theorem faultLegal_of_name {f : FaultInfo} (h : isNameFault f) : faultLegal f := by
  rcases h with rfl | rfl | rfl <;> trivial

theorem readU16_legal : readU16.Raises faultLegal :=
  readU16_raises.mono fun _ => faultLegal_of_truncated

theorem decodeHeader_legal : decodeHeader.Raises faultLegal :=
  readU16_legal.bind fun _ => readU16_legal.bind fun _ =>
  (Body.Raises.ofExcept fun _ => faultLegal_of_readFlags).bind fun _ =>
  readU16_legal.bind fun _ => readU16_legal.bind fun _ => readU16_legal.bind fun _ =>
  readU16_legal.bind fun _ => Body.Raises.pure _

theorem readType_legal : readType.Raises faultLegal :=
  readU16_legal.bind fun _ => Body.Raises.ofExcept fun _ => faultLegal_of_typeFrom

theorem readClass_legal : readClass.Raises faultLegal :=
  readU16_legal.bind fun _ => Body.Raises.ofExcept fun _ => faultLegal_of_classFrom

theorem readName_legal : readName.Raises faultLegal :=
  readName_raises.mono fun _ => faultLegal_of_name

theorem decodeQuestion_legal : decodeQuestion.Raises faultLegal :=
  readName_legal.bind fun _ => readType_legal.bind fun _ => readClass_legal.bind fun _ =>
  Body.Raises.pure _

theorem decodeRecord_legal : decodeRecord.Raises faultLegal :=
  readName_legal.bind fun _ => readType_legal.bind fun _ => readClass_legal.bind fun _ =>
  (readU32_raises.mono fun _ => faultLegal_of_truncated).bind fun _ => readU16_legal.bind fun _ =>
  ((readBytes_raises _).mono fun _ => faultLegal_of_truncated).bind fun _ => Body.Raises.pure _

theorem decodeMessage_legal : decodeMessage.Raises faultLegal :=
  decodeHeader_legal.bind fun _ => (decodeQuestion_legal.times _).bind fun _ =>
  (decodeRecord_legal.times _).bind fun _ => (decodeRecord_legal.times _).bind fun _ =>
  (decodeRecord_legal.times _).bind fun _ => Body.Raises.pure _

/-! ## The invariant through the shared operations -/

theorem State.Inv.respond {s : State} (h : s.Inv) (r : Response) : (s.respond r).Inv :=
  ⟨h.pos, h.cap, h.hops, h.saved, h.wf, h.filled, h.status⟩

theorem State.Inv.appendTx {s : State} (h : s.Inv) (bs : List Byte) : (s.appendTx bs).Inv :=
  ⟨h.pos, h.cap, h.hops, h.saved, h.wf, h.filled, h.status⟩

theorem State.Inv.withTx {s : State} (h : s.Inv) (bs : List Byte) :
    State.Inv { s with tx := bs } :=
  ⟨h.pos, h.cap, h.hops, h.saved, h.wf, h.filled, h.status⟩

theorem State.Inv.withHost {s : State} (h : s.Inv) (ts : List Transaction) :
    State.Inv { s with host := ts } :=
  ⟨h.pos, h.cap, h.hops, h.saved, h.wf, h.filled, h.status⟩

/-! ## Loads (R20, R177): whether one is refused turns on the capacity alone -/

theorem execLoadRx_of_le {data : List Byte} (h : data.length ≤ Config.bufCap) (s : State) :
    execLoadRx data s = .next ((s.loaded data).respond (.done .none)) := if_neg (Nat.not_lt.2 h)

theorem execLoadRx_of_lt {data : List Byte} (h : Config.bufCap < data.length) (s : State) :
    execLoadRx data s = .next s.refuse := if_pos h

theorem execDeserialize_of_le {data : List Byte} (h : data.length ≤ Config.bufCap) (s : State) :
    execDeserialize data s = readSide (decodeMessage.map .message) (s.loaded data) :=
  if_neg (Nat.not_lt.2 h)

theorem execDeserialize_of_lt {data : List Byte} (h : Config.bufCap < data.length) (s : State) :
    execDeserialize data s = .next s.refuse := if_pos h

theorem State.Inv.loaded {s : State} (h : s.Inv) {data : List Byte}
    (hd : data.length ≤ Config.bufCap) : (s.loaded data).Inv where
  pos := Nat.zero_le _
  cap := hd
  hops := h.hops
  saved := h.saved
  wf := ⟨Memory.wf_writeBytes data h.wf.1 0, Memory.all_writeBytes data h.wf.2 (by omega)⟩
  filled := by
    intro a ha
    simp only [State.loaded_size] at ha
    have := Memory.read_writeBytes data s.rx 0 a
    rw [Nat.zero_add, if_pos ha] at this
    rw [State.loaded_rx, this, List.getElem?_eq_getElem ha]
    rfl
  status := trivial

/-- A safe body, started where the invariant holds, ends with only RPOS moved. -/
theorem Body.Safe.ends {α : Type} {x : Body α} (hx : x.Safe) {s : State} (hs : s.Inv) :
    (∃ a e, x s.buf s.cursor = .ok a { s.cursor with rpos := e }) ∨
    ∃ f e, x s.buf s.cursor = .raised f { s.cursor with rpos := e } := by
  obtain ⟨-, h2, h3⟩ := hx s.buf s.cursor hs.pos hs.hops hs.saved
  have hc : ∀ c : Cursor, c.hops = 0 → c.saved = [] → c = { s.cursor with rpos := c.rpos } := by
    rintro ⟨p, h, sv⟩ rfl rfl
    simp [State.cursor, hs.hops, hs.saved]
  cases hr : x s.buf s.cursor with
  | ok a c => rw [hr] at h2 h3; exact .inl ⟨a, c.rpos, by rw [← hc c h2 h3]⟩
  | raised f c => rw [hr] at h2 h3; exact .inr ⟨f, c.rpos, by rw [← hc c h2 h3]⟩

/-- A read-side operation keeps the invariant. -/
theorem readSide_inv {body : Body Result} (hb : body.Safe) (hl : body.Raises faultLegal)
    {s t : State} (hs : s.Inv) (h : readSide body s = .next t) : t.Inv := by
  obtain ⟨f, -, rfl⟩ | ⟨r, c, -, hr, rfl⟩ | ⟨f, c, -, hr, rfl⟩ := readSide_cases h
  · exact hs.respond _
  · obtain ⟨h1, h2, h3⟩ := hb s.buf s.cursor hs.pos hs.hops hs.saved
    rw [hr] at h1 h2 h3
    exact ⟨h1, hs.cap, h2, h3, hs.wf, hs.filled, hs.status⟩
  · obtain ⟨h1, h2, h3⟩ := hb s.buf s.cursor hs.pos hs.hops hs.saved
    have hf := hl _ _ _ _ hr
    rw [hr] at h1 h2 h3
    exact ⟨h1, hs.cap, h2, h3, hs.wf, hs.filled, hf⟩

end Sys2Proof.Machine
end

