-- ==== Sys2Proof/Laws/Decoding.lean ====
section
/-! SUPPORT. The decoders of headers, entries and messages complete exactly where one stands in the
buffer. -/

namespace Sys2Proof.Machine

/-! ## Cursor reads that completed -/

theorem byteAt_of_readU8 {b : Buf} {c c' : Cursor} {v : Byte} (hf : b.Filled)
    (h : readU8 b c = .ok v c') : ByteAt b c.rpos v ∧ c' = { c with rpos := c.rpos + 1 } := by
  by_cases hp : c.rpos < b.size
  · obtain ⟨w, hw⟩ := hf.byteAt hp
    rw [readU8_of_byteAt hw] at h
    cases h
    exact ⟨hw, rfl⟩
  · rw [readU8_at_end (by omega)] at h; cases h

/-- An address with room for two bytes holds a 16-bit value. -/
theorem Buf.Filled.u16At {b : Buf} (hf : b.Filled) {p : Nat} (hp : p + 2 ≤ b.size) :
    ∃ v, U16At b p v := by
  obtain ⟨bs, hl, hb⟩ := hf.bytesAt 2 p hp
  obtain ⟨b0, b1, rfl⟩ := List.length_eq_two.1 hl
  exact ⟨word16 b0 b1, b0, b1, hb, word16_toNat b0 b1⟩

/-- An address with room for four bytes holds a 32-bit value. -/
theorem Buf.Filled.u32At {b : Buf} (hf : b.Filled) {p : Nat} (hp : p + 4 ≤ b.size) :
    ∃ v, U32At b p v := by
  obtain ⟨bs, hl, hb⟩ := hf.bytesAt 4 p hp
  match bs, hl with
  | [b0, b1, b2, b3], _ => exact ⟨word32 b0 b1 b2 b3, b0, b1, b2, b3, hb, word32_toNat b0 b1 b2 b3⟩

theorem U16At.le {b : Buf} {p : Nat} {v : Word16} (h : U16At b p v) : p + 2 ≤ b.size := by
  obtain ⟨b0, b1, hb, -⟩ := h; exact hb.le

theorem U32At.le {b : Buf} {p : Nat} {v : Word32} (h : U32At b p v) : p + 4 ≤ b.size := by
  obtain ⟨b0, b1, b2, b3, hb, -⟩ := h; exact hb.le

theorem u16At_of_readU16 {b : Buf} {c c' : Cursor} {v : Word16} (hf : b.Filled)
    (hp : c.rpos ≤ b.size) (h : readU16 b c = .ok v c') :
    U16At b c.rpos v ∧ c' = { c with rpos := c.rpos + 2 } := by
  by_cases hs : c.rpos + 2 ≤ b.size
  · obtain ⟨w, hw⟩ := hf.u16At hs
    rw [readU16_of_u16At hw] at h
    cases h
    exact ⟨hw, rfl⟩
  · rw [readU16_truncated hp (by omega)] at h; cases h

/-- A 32-bit field that is cut off consumes what is there and raises (41_cursor_read.md R103). -/
theorem readU32_truncated {b : Buf} {c : Cursor} (hf : b.Filled) (hp : c.rpos ≤ b.size)
    (hn : b.size < c.rpos + 4) :
    readU32 b c = .raised .truncatedMessage { c with rpos := b.size } := by
  have step : ∀ (k : Nat) {β : Type} (f : Byte → Body β) (c : Cursor), c.rpos + k = b.size →
      k = 0 ∨ (∀ v, f v b { c with rpos := c.rpos + 1 } =
        .raised .truncatedMessage { c with rpos := b.size }) →
      Body.bind readU8 f b c = .raised .truncatedMessage { c with rpos := b.size } := by
    intro k β f c hk hc
    by_cases h0 : k = 0
    · subst h0
      have hk : c.rpos = b.size := by omega
      rw [Body.bind_raised (readU8_at_end (by omega)), ← hk]
    · obtain ⟨v, hv⟩ := hf.byteAt (a := c.rpos) (by omega)
      rw [Body.bind_ok (readU8_of_byteAt hv)]
      exact hc.resolve_left h0 v
  rw [readU32]
  refine step (b.size - c.rpos) _ _ (by omega) (or_iff_not_imp_left.2 fun h0 b0 => ?_)
  refine step (b.size - c.rpos - 1) _ _ (by simp only; omega) (or_iff_not_imp_left.2 fun h1 b1 => ?_)
  refine step (b.size - c.rpos - 2) _ _ (by simp only; omega) (or_iff_not_imp_left.2 fun h2 b2 => ?_)
  exact step (b.size - c.rpos - 3) _ _ (by simp only; omega) (.inl (by omega))

theorem u32At_of_readU32 {b : Buf} {c c' : Cursor} {v : Word32} (hf : b.Filled)
    (hp : c.rpos ≤ b.size) (h : readU32 b c = .ok v c') :
    U32At b c.rpos v ∧ c' = { c with rpos := c.rpos + 4 } := by
  by_cases hs : c.rpos + 4 ≤ b.size
  · obtain ⟨w, hw⟩ := hf.u32At hs
    rw [readU32_of_u32At hw] at h
    cases h
    exact ⟨hw, rfl⟩
  · rw [readU32_truncated hf hp (by omega)] at h; cases h

theorem bytesAt_of_readBytes {b : Buf} {c c' : Cursor} {n : Nat} {bs : List Byte} (hf : b.Filled)
    (hp : c.rpos ≤ b.size) (h : readBytes n b c = .ok bs c') :
    bs.length = n ∧ BytesAt b c.rpos bs ∧ c' = { c with rpos := c.rpos + n } := by
  by_cases hs : c.rpos + n ≤ b.size
  · obtain ⟨ws, rfl, hw⟩ := hf.bytesAt n c.rpos hs
    rw [readBytes_of_bytesAt hw] at h
    cases h
    exact ⟨rfl, hw, rfl⟩
  · rw [readBytes_truncated hp (by omega)] at h; cases h

/-! ## Conversions -/

theorem enumFrom_ord {M : Type} {w : Nat} {members : List M} {ord : M → BitVec w} {m : M}
    {o : BitVec w} (h : enumFrom members ord o = some m) : ord m = o := by
  have := List.find?_some h
  simpa using this

theorem enumFrom_none {M : Type} {w : Nat} {members : List M} {ord : M → BitVec w} {o : BitVec w}
    (h : ∀ m, ord m ≠ o) : enumFrom members ord o = none := by
  simp only [enumFrom, List.find?_eq_none, beq_iff_eq]
  exact fun m _ => h m

theorem enumFrom_self {M : Type} {w : Nat} {members : List M} {ord : M → BitVec w}
    (hall : ∀ m, m ∈ members) (hinj : ∀ m m', ord m = ord m' → m = m') (m : M) :
    enumFrom members ord (ord m) = some m := by
  cases h : enumFrom members ord (ord m) with
  | some m' => rw [hinj _ _ (enumFrom_ord h)]
  | none =>
    simp only [enumFrom, List.find?_eq_none, beq_iff_eq] at h
    exact absurd rfl (h m (hall m))

theorem opcodeFrom_ord (m : Opcode) : opcodeFrom (opcodeTab m) = .ok m := by cases m <;> rfl
theorem rcodeFrom_ord (m : Rcode) : rcodeFrom (rcodeTab m) = .ok m := by cases m <;> rfl
theorem typeFrom_ord (m : RType) : typeFrom (typeTab m) = .ok m := by cases m <;> rfl
theorem classFrom_ord (m : RClass) : classFrom (classTab m) = .ok m := by cases m <;> rfl

theorem memberOrFault_ok {M : Type} {m : Option M} {field : EnumField} {v : Word16} {a : M}
    (h : memberOrFault m field v = .ok a) : m = some a := by
  cases m with
  | none => cases h
  | some a' => cases h; rfl

theorem ord_of_opcodeFrom {o : BitVec 4} {m : Opcode} (h : opcodeFrom o = .ok m) : opcodeTab m = o :=
  enumFrom_ord (memberOrFault_ok h)
theorem ord_of_rcodeFrom {o : BitVec 4} {m : Rcode} (h : rcodeFrom o = .ok m) : rcodeTab m = o :=
  enumFrom_ord (memberOrFault_ok h)
theorem ord_of_typeFrom {o : Word16} {m : RType} (h : typeFrom o = .ok m) : typeTab m = o :=
  enumFrom_ord (memberOrFault_ok h)
theorem ord_of_classFrom {o : Word16} {m : RClass} (h : classFrom o = .ok m) : classTab m = o :=
  enumFrom_ord (memberOrFault_ok h)

theorem typeFrom_unknown {o : Word16} (h : ∀ m, typeTab m ≠ o) :
    typeFrom o = .error (.unknownEnumValue .type o) := by
  rw [typeFrom, typeOf, enumFrom_none h]; rfl
theorem classFrom_unknown {o : Word16} (h : ∀ m, classTab m ≠ o) :
    classFrom o = .error (.unknownEnumValue .cls o) := by
  rw [classFrom, classOf, enumFrom_none h]; rfl

/-- The two enumeration fields are read and converted in one go. -/
theorem readType_of_u16At {b : Buf} {c : Cursor} {m : RType} (h : U16At b c.rpos (typeTab m)) :
    readType b c = .ok m { c with rpos := c.rpos + 2 } := by
  rw [readType, Body.bind_ok (readU16_of_u16At h), typeFrom_ord]; rfl

theorem readClass_of_u16At {b : Buf} {c : Cursor} {m : RClass} (h : U16At b c.rpos (classTab m)) :
    readClass b c = .ok m { c with rpos := c.rpos + 2 } := by
  rw [readClass, Body.bind_ok (readU16_of_u16At h), classFrom_ord]; rfl

theorem Body.ofExcept_eq_ok {α : Type} {v : Except FaultInfo α} {b : Buf} {c c' : Cursor} {a : α}
    (h : Body.ofExcept v b c = .ok a c') : v = .ok a ∧ c' = c := by
  cases v with
  | ok a' => cases h; exact ⟨rfl, rfl⟩
  | error f => cases h

theorem u16At_of_readType {b : Buf} {c c' : Cursor} {m : RType} (hf : b.Filled)
    (hp : c.rpos ≤ b.size) (h : readType b c = .ok m c') :
    U16At b c.rpos (typeTab m) ∧ c' = { c with rpos := c.rpos + 2 } := by
  obtain ⟨v, c1, h1, h2⟩ := Body.bind_eq_ok.1 h
  obtain ⟨hv, rfl⟩ := u16At_of_readU16 hf hp h1
  obtain ⟨h3, rfl⟩ := Body.ofExcept_eq_ok h2
  exact ⟨by rw [ord_of_typeFrom h3]; exact hv, rfl⟩

theorem u16At_of_readClass {b : Buf} {c c' : Cursor} {m : RClass} (hf : b.Filled)
    (hp : c.rpos ≤ b.size) (h : readClass b c = .ok m c') :
    U16At b c.rpos (classTab m) ∧ c' = { c with rpos := c.rpos + 2 } := by
  obtain ⟨v, c1, h1, h2⟩ := Body.bind_eq_ok.1 h
  obtain ⟨hv, rfl⟩ := u16At_of_readU16 hf hp h1
  obtain ⟨h3, rfl⟩ := Body.ofExcept_eq_ok h2
  exact ⟨by rw [ord_of_classFrom h3]; exact hv, rfl⟩

/-! ## Headers -/

theorem readFlags_ok {w : Word16} {f : FlagFields} (h : readFlags w = .ok f) :
    opcodeTab f.opcode = opcodeBits w ∧ rcodeTab f.rcode = rcodeBits w ∧
      f = unpackFlags w f.opcode f.rcode := by
  simp only [readFlags] at h
  split at h
  · cases h
  · rename_i op hop
    split at h
    · cases h
    · rename_i rc hrc
      cases h
      exact ⟨ord_of_opcodeFrom hop, ord_of_rcodeFrom hrc, rfl⟩

theorem readFlags_of_ords {w : Word16} {op : Opcode} {rc : Rcode} (h1 : opcodeBits w = opcodeTab op)
    (h2 : rcodeBits w = rcodeTab rc) : readFlags w = .ok (unpackFlags w op rc) := by
  simp [readFlags, h1, h2, opcodeFrom_ord, rcodeFrom_ord]

theorem decodeHeader_of_headerAt {b : Buf} {c : Cursor} {h : Header} (hh : HeaderAt b c.rpos h) :
    decodeHeader b c = .ok h { c with rpos := c.rpos + 12 } := by
  obtain ⟨hid, ⟨w, hw, h15, hop, h10, h9, h8, h7, hz, hrc⟩, hqd, han, hns, har⟩ := hh
  rw [decodeHeader, Body.bind_ok (readU16_of_u16At hid),
    Body.bind_ok (readU16_of_u16At (c := { c with rpos := c.rpos + 2 }) hw),
    readFlags_of_ords (op := h.opcode) (rc := h.rcode) hop hrc, Body.ofExcept_ok,
    Body.bind_ok (Body.pure_run _ _ _),
    Body.bind_ok (readU16_of_u16At (c := { c with rpos := c.rpos + 2 + 2 }) hqd),
    Body.bind_ok (readU16_of_u16At (c := { c with rpos := c.rpos + 2 + 2 + 2 }) han),
    Body.bind_ok (readU16_of_u16At (c := { c with rpos := c.rpos + 2 + 2 + 2 + 2 }) hns),
    Body.bind_ok (readU16_of_u16At (c := { c with rpos := c.rpos + 2 + 2 + 2 + 2 + 2 }) har)]
  simp only [Body.pure_run, headerOf, unpackFlags, h15, h10, h9, h8, h7, hz]

theorem headerAt_of_decodeHeader {b : Buf} {c c' : Cursor} {h : Header} (hf : b.Filled)
    (hp : c.rpos ≤ b.size) (hd : decodeHeader b c = .ok h c') :
    HeaderAt b c.rpos h ∧ c' = { c with rpos := c.rpos + 12 } := by
  obtain ⟨id, c1, h1, hd⟩ := Body.bind_eq_ok.1 hd
  obtain ⟨hid, rfl⟩ := u16At_of_readU16 hf hp h1
  have := hid.le
  obtain ⟨w, c1, h1, hd⟩ := Body.bind_eq_ok.1 hd
  obtain ⟨hw, rfl⟩ := u16At_of_readU16 hf (by simp only; omega) h1
  have := hw.le
  obtain ⟨f, c1, h1, hd⟩ := Body.bind_eq_ok.1 hd
  obtain ⟨hfl, rfl⟩ := Body.ofExcept_eq_ok h1
  obtain ⟨qd, c1, h1, hd⟩ := Body.bind_eq_ok.1 hd
  obtain ⟨hqd, rfl⟩ := u16At_of_readU16 hf (by simp only at *; omega) h1
  have := hqd.le
  obtain ⟨an, c1, h1, hd⟩ := Body.bind_eq_ok.1 hd
  obtain ⟨han, rfl⟩ := u16At_of_readU16 hf (by simp only at *; omega) h1
  have := han.le
  obtain ⟨ns, c1, h1, hd⟩ := Body.bind_eq_ok.1 hd
  obtain ⟨hns, rfl⟩ := u16At_of_readU16 hf (by simp only at *; omega) h1
  have := hns.le
  obtain ⟨ar, c1, h1, hd⟩ := Body.bind_eq_ok.1 hd
  obtain ⟨har, rfl⟩ := u16At_of_readU16 hf (by simp only at *; omega) h1
  cases hd
  obtain ⟨g1, g2, g3⟩ := readFlags_ok hfl
  refine ⟨⟨hid, ⟨w, hw, ?_, g1.symm, ?_, ?_, ?_, ?_, ?_, g2.symm⟩, hqd, han, hns, har⟩, rfl⟩ <;>
    rw [g3] <;> rfl

/-! ## Entries -/

theorem decodeQuestion_of_questionAt {b : Buf} {c : Cursor} {q : Question} {e : Nat} (hi : c.Idle)
    (hp : c.rpos ≤ b.size) (h : QuestionAt b c.rpos q e) :
    decodeQuestion b c = .ok q { c with rpos := e } := by
  obtain ⟨labels, n, hn, hname, ht, hc, rfl⟩ := h
  rw [decodeQuestion, Body.bind_ok (readName_of_nameAt hi hp hn),
    Body.bind_ok (readType_of_u16At (c := { c with rpos := n }) ht),
    Body.bind_ok (readClass_of_u16At (c := { c with rpos := n + 2 }) hc), ← hname]
  rfl

/-- Where a name's own encoding ends is inside the buffer. -/
theorem NameAt.le {b : Buf} {h p e : Nat} {labels : List (List Byte)} (hn : NameAt b h p labels e) :
    e ≤ b.size := by
  cases hn with
  | ends _ _ _ _ _ hb => exact hb.1
  | points _ _ _ _ _ _ _ _ ho =>
    obtain ⟨b0, b1, -, hb1, -⟩ := ho
    exact hb1.1

theorem questionAt_of_decodeQuestion {b : Buf} {c c' : Cursor} {q : Question} (hf : b.Filled)
    (hi : c.Idle) (hp : c.rpos ≤ b.size) (h : decodeQuestion b c = .ok q c') :
    ∃ e, QuestionAt b c.rpos q e ∧ c' = { c with rpos := e } := by
  obtain ⟨n, c1, h1, h⟩ := Body.bind_eq_ok.1 h
  obtain ⟨labels, p, hn, rfl, rfl⟩ := nameAt_of_readName hf hi hp h1
  obtain ⟨t, c1, h1, h⟩ := Body.bind_eq_ok.1 h
  obtain ⟨ht, rfl⟩ := u16At_of_readType hf hn.le h1
  obtain ⟨k, c1, h1, h⟩ := Body.bind_eq_ok.1 h
  obtain ⟨hk, rfl⟩ := u16At_of_readClass hf ht.le h1
  cases h
  exact ⟨p + 4, ⟨labels, p, hn, rfl, ht, hk, rfl⟩, rfl⟩

theorem decodeRecord_of_recordAt {b : Buf} {c : Cursor} {r : Record} {e : Nat} (hi : c.Idle)
    (hp : c.rpos ≤ b.size) (h : RecordAt b c.rpos r e) :
    decodeRecord b c = .ok r { c with rpos := e } := by
  obtain ⟨labels, n, hn, hname, ht, hc, httl, hlen, hl, hd, rfl⟩ := h
  rw [decodeRecord, Body.bind_ok (readName_of_nameAt hi hp hn),
    Body.bind_ok (readType_of_u16At (c := { c with rpos := n }) ht),
    Body.bind_ok (readClass_of_u16At (c := { c with rpos := n + 2 }) hc),
    Body.bind_ok (readU32_of_u32At (c := { c with rpos := n + 2 + 2 }) httl),
    Body.bind_ok (readU16_of_u16At (c := { c with rpos := n + 2 + 2 + 4 }) hlen), ← hname, ← hl,
    Body.bind_ok (readBytes_of_bytesAt (c := { c with rpos := n + 2 + 2 + 4 + 2 }) hd)]
  rfl

theorem recordAt_of_decodeRecord {b : Buf} {c c' : Cursor} {r : Record} (hf : b.Filled)
    (hi : c.Idle) (hp : c.rpos ≤ b.size) (h : decodeRecord b c = .ok r c') :
    ∃ e, RecordAt b c.rpos r e ∧ c' = { c with rpos := e } := by
  obtain ⟨n, c1, h1, h⟩ := Body.bind_eq_ok.1 h
  obtain ⟨labels, p, hn, rfl, rfl⟩ := nameAt_of_readName hf hi hp h1
  obtain ⟨t, c1, h1, h⟩ := Body.bind_eq_ok.1 h
  obtain ⟨ht, rfl⟩ := u16At_of_readType hf hn.le h1
  obtain ⟨k, c1, h1, h⟩ := Body.bind_eq_ok.1 h
  obtain ⟨hk, rfl⟩ := u16At_of_readClass hf ht.le h1
  obtain ⟨ttl, c1, h1, h⟩ := Body.bind_eq_ok.1 h
  obtain ⟨httl, rfl⟩ := u32At_of_readU32 hf hk.le h1
  obtain ⟨len, c1, h1, h⟩ := Body.bind_eq_ok.1 h
  obtain ⟨hlen, rfl⟩ := u16At_of_readU16 hf httl.le h1
  obtain ⟨data, c1, h1, h⟩ := Body.bind_eq_ok.1 h
  obtain ⟨hl, hd, rfl⟩ := bytesAt_of_readBytes hf hlen.le h1
  cases h
  exact ⟨p + 10 + data.length, ⟨labels, p, hn, rfl, ht, hk, httl, hlen, hl, hd, rfl⟩, by rw [hl]⟩

/-! ## Runs of entries -/

theorem times_of_entriesAt {α : Type} {x : Body α} {entry : Nat → α → Nat → Prop} {b : Buf}
    (hx : ∀ {c : Cursor} {a : α} {e : Nat}, c.Idle → c.rpos ≤ b.size → entry c.rpos a e →
      x b c = .ok a { c with rpos := e })
    (hle : ∀ {p : Nat} {a : α} {e : Nat}, entry p a e → e ≤ b.size) {p e : Nat} {as : List α}
    (h : EntriesAt entry p as e) : ∀ {c : Cursor}, c.Idle → c.rpos = p → p ≤ b.size →
      Body.times x as.length b c = .ok as { c with rpos := e } := by
  induction h with
  | nil p => rintro c - rfl -; rfl
  | cons p q e a rest ha _ ih =>
    rintro c hi rfl hp
    rw [List.length_cons, Body.times, Body.bind_ok (hx hi hp ha),
      Body.bind_ok (ih (c := { c with rpos := q }) hi rfl (hle ha))]
    rfl

theorem entriesAt_of_times {α : Type} {x : Body α} {entry : Nat → α → Nat → Prop} {b : Buf}
    (hx : ∀ {c c' : Cursor} {a : α}, c.Idle → c.rpos ≤ b.size → x b c = .ok a c' →
      ∃ e, entry c.rpos a e ∧ c' = { c with rpos := e })
    (hle : ∀ {p : Nat} {a : α} {e : Nat}, entry p a e → e ≤ b.size) (n : Nat) :
    ∀ {c c' : Cursor} {as : List α}, c.Idle → c.rpos ≤ b.size → Body.times x n b c = .ok as c' →
      as.length = n ∧ ∃ e, EntriesAt entry c.rpos as e ∧ e ≤ b.size ∧ c' = { c with rpos := e } := by
  induction n with
  | zero => rintro c c' as hi hp h; cases h; exact ⟨rfl, c.rpos, .nil _, hp, rfl⟩
  | succ n ih =>
    rintro c c' as hi hp h
    obtain ⟨a, c1, h1, h⟩ := Body.bind_eq_ok.1 h
    obtain ⟨q, ha, rfl⟩ := hx hi hp h1
    obtain ⟨rest, c1, h1, h⟩ := Body.bind_eq_ok.1 h
    obtain ⟨hl, e, he, hes, rfl⟩ := ih (c := { c with rpos := q }) hi (hle ha) h1
    cases h
    exact ⟨by simp [hl], e, .cons _ _ _ _ _ ha he, hes, rfl⟩

theorem QuestionAt.le {b : Buf} {p e : Nat} {q : Question} (h : QuestionAt b p q e) :
    e ≤ b.size := by
  obtain ⟨labels, n, -, -, -, hc, rfl⟩ := h
  exact hc.le

theorem RecordAt.le {b : Buf} {p e : Nat} {r : Record} (h : RecordAt b p r e) : e ≤ b.size := by
  obtain ⟨labels, n, -, -, -, -, -, -, -, hd, rfl⟩ := h
  exact hd.le

theorem EntriesAt.le {α : Type} {entry : Nat → α → Nat → Prop} {b : Buf}
    (hle : ∀ {p : Nat} {a : α} {e : Nat}, entry p a e → e ≤ b.size) {p e : Nat} {as : List α}
    (h : EntriesAt entry p as e) (hp : p ≤ b.size) : e ≤ b.size := by
  induction h with
  | nil p => exact hp
  | cons p q e a rest ha _ ih => exact ih (hle ha)

/-! ## Messages -/

theorem decodeMessage_of_messageAt {b : Buf} {c : Cursor} {m : Message} {e : Nat} (hi : c.Idle)
    (h : MessageAt b c.rpos m e) : decodeMessage b c = .ok m { c with rpos := e } := by
  obtain ⟨hh, hqd, han, hns, har, q1, q2, q3, h1, h2, h3, h4⟩ := h
  have hp : c.rpos + 12 ≤ b.size := hh.2.2.2.2.2.le
  have l1 := h1.le QuestionAt.le hp
  have l2 := h2.le RecordAt.le l1
  have l3 := h3.le RecordAt.le l2
  rw [decodeMessage, Body.bind_ok (decodeHeader_of_headerAt hh), ← hqd, ← han, ← hns, ← har,
    Body.bind_ok (times_of_entriesAt decodeQuestion_of_questionAt QuestionAt.le h1
      (c := { c with rpos := c.rpos + 12 }) hi rfl hp),
    Body.bind_ok (times_of_entriesAt decodeRecord_of_recordAt RecordAt.le h2
      (c := { c with rpos := q1 }) hi rfl l1),
    Body.bind_ok (times_of_entriesAt decodeRecord_of_recordAt RecordAt.le h3
      (c := { c with rpos := q2 }) hi rfl l2),
    Body.bind_ok (times_of_entriesAt decodeRecord_of_recordAt RecordAt.le h4
      (c := { c with rpos := q3 }) hi rfl l3)]
  rfl

theorem messageAt_of_decodeMessage {b : Buf} {c c' : Cursor} {m : Message} (hf : b.Filled)
    (hi : c.Idle) (hp : c.rpos ≤ b.size) (h : decodeMessage b c = .ok m c') :
    ∃ e, MessageAt b c.rpos m e ∧ c' = { c with rpos := e } := by
  obtain ⟨hd, c1, h1, h⟩ := Body.bind_eq_ok.1 h
  obtain ⟨hh, rfl⟩ := headerAt_of_decodeHeader hf hp h1
  have hp : c.rpos + 12 ≤ b.size := hh.2.2.2.2.2.le
  obtain ⟨qd, c1, h1, h⟩ := Body.bind_eq_ok.1 h
  obtain ⟨n1, q1, e1, s1, rfl⟩ := entriesAt_of_times (questionAt_of_decodeQuestion hf) QuestionAt.le _
    (c := { c with rpos := c.rpos + 12 }) hi hp h1
  obtain ⟨an, c1, h1, h⟩ := Body.bind_eq_ok.1 h
  obtain ⟨n2, q2, e2, s2, rfl⟩ := entriesAt_of_times (recordAt_of_decodeRecord hf) RecordAt.le _
    (c := { c with rpos := q1 }) hi s1 h1
  obtain ⟨ns, c1, h1, h⟩ := Body.bind_eq_ok.1 h
  obtain ⟨n3, q3, e3, s3, rfl⟩ := entriesAt_of_times (recordAt_of_decodeRecord hf) RecordAt.le _
    (c := { c with rpos := q2 }) hi s2 h1
  obtain ⟨ar, c1, h1, h⟩ := Body.bind_eq_ok.1 h
  obtain ⟨n4, q4, e4, s4, rfl⟩ := entriesAt_of_times (recordAt_of_decodeRecord hf) RecordAt.le _
    (c := { c with rpos := q3 }) hi s3 h1
  cases h
  exact ⟨q4, ⟨hh, n1, n2, n3, n4, q1, q2, q3, e1, e2, e3, e4⟩, rfl⟩

/-! ## The state's buffer and cursor -/

theorem State.Inv.bufFilled {s : State} (h : s.Inv) : s.buf.Filled := h.filled

theorem State.Inv.cursorIdle {s : State} (h : s.Inv) : s.cursor.Idle := ⟨h.hops, h.saved⟩

end Sys2Proof.Machine
end

