-- ==== Sys2Proof/Laws/PerInstr.lean ====
section
/-! SUPPORT. Statements for all instructions, one lemma per constructor of Instr. Family `RoundTrip`:
a well-formed instruction's transaction decodes to that instruction. -/

namespace Sys2Proof.Laws.RoundTrip

/-- Decoding the encoding of a well-formed instruction gives it back. -/
def Statement (i : Instr) : Prop := i.wf = true → decode (encode i) = .ok i

theorem reset : Statement .reset := fun _ => decode_command rfl rfl

theorem loadRx (data : List Byte) : Statement (.loadRx data) := fun _ =>
  decode_command rfl (Parse.map_some (Parse.bytes_undoes.nil data))

theorem clearTx : Statement .clearTx := fun _ => decode_command rfl rfl

theorem readU8 : Statement .readU8 := fun _ => decode_command rfl rfl

theorem readU16 : Statement .readU16 := fun _ => decode_command rfl rfl

theorem readU32 : Statement .readU32 := fun _ => decode_command rfl rfl

theorem readBytes (n : Word16) : Statement (.readBytes n) := fun _ =>
  decode_command rfl (Parse.map_some (Parse.word16_undoes.nil n))

theorem setPosition (p : Nat) : Statement (.setPosition p) := fun _ =>
  decode_command rfl (Parse.map_some (Parse.nat_undoes.nil p))

theorem readName : Statement .readName := fun _ => decode_command rfl rfl

theorem writeU16 (v : Word16) : Statement (.writeU16 v) := fun _ =>
  decode_command rfl (Parse.map_some (Parse.word16_undoes.nil v))

theorem writeU32 (v : Word32) : Statement (.writeU32 v) := fun _ =>
  decode_command rfl (Parse.map_some (Parse.word32_undoes.nil v))

theorem writeName (s : Name) : Statement (.writeName s) := fun _ =>
  decode_command rfl (Parse.map_some (Parse.bytes_undoes.nil s))

theorem opcodeFrom (o : BitVec 4) : Statement (.opcodeFrom o) := fun _ =>
  decode_command rfl (Parse.map_some ((Parse.bits_undoes (by omega)).nil o))

theorem opcodeTo (m : Opcode) : Statement (.opcodeTo m) := fun _ =>
  decode_command rfl (Parse.map_some (Parse.opcode_undoes.nil m))

theorem rcodeFrom (o : BitVec 4) : Statement (.rcodeFrom o) := fun _ =>
  decode_command rfl (Parse.map_some ((Parse.bits_undoes (by omega)).nil o))

theorem rcodeTo (m : Rcode) : Statement (.rcodeTo m) := fun _ =>
  decode_command rfl (Parse.map_some (Parse.rcode_undoes.nil m))

theorem typeFrom (o : Word16) : Statement (.typeFrom o) := fun _ =>
  decode_command rfl (Parse.map_some (Parse.word16_undoes.nil o))

theorem typeTo (m : RType) : Statement (.typeTo m) := fun _ =>
  decode_command rfl (Parse.map_some (Parse.rtype_undoes.nil m))

theorem classFrom (o : Word16) : Statement (.classFrom o) := fun _ =>
  decode_command rfl (Parse.map_some (Parse.word16_undoes.nil o))

theorem classTo (m : RClass) : Statement (.classTo m) := fun _ =>
  decode_command rfl (Parse.map_some (Parse.rclass_undoes.nil m))

theorem hdrEnc (h : Header) : Statement (.hdrEnc h) := fun _ =>
  decode_command rfl (Parse.map_some (Parse.header_undoes.nil h))

theorem hdrDec : Statement .hdrDec := fun _ => decode_command rfl rfl

theorem qEnc (q : Question) : Statement (.qEnc q) := fun _ =>
  decode_command rfl (Parse.map_some (Parse.question_undoes.nil q))

theorem qDec : Statement .qDec := fun _ => decode_command rfl rfl

theorem rrEnc (r : Record) : Statement (.rrEnc r) := fun _ =>
  decode_command rfl (Parse.map_some (Parse.record_undoes.nil r))

theorem rrDec : Statement .rrDec := fun _ => decode_command rfl rfl

theorem msgEnc (m : Message) : Statement (.msgEnc m) := fun _ =>
  decode_command (p := Parse.message.map .msgEnc) rfl
    (Parse.map_some (p := Parse.message) (a := m) (Parse.message_undoes.nil m))

theorem msgDec : Statement .msgDec := fun _ => decode_command rfl rfl

theorem buildRequest (id : Word16) (q : Question) : Statement (.buildRequest id q) := fun _ =>
  decode_command (p := Parse.word16.bind fun id => Parse.question.map (.buildRequest id)) rfl (by
    rw [Parse.bind_some (Parse.word16_undoes id _)]
    exact Parse.map_some (Parse.question_undoes.nil q))

theorem serialize (m : Message) : Statement (.serialize m) := fun _ =>
  decode_pseudo (p := Parse.message.map .serialize) rfl
    (Parse.map_some (p := Parse.message) (a := m) (Parse.message_undoes.nil m))

theorem deserialize (data : List Byte) : Statement (.deserialize data) := fun _ =>
  decode_pseudo rfl (Parse.map_some (Parse.bytes_undoes.nil data))

theorem wireFlags (f : Word16) : Statement (.wireFlags f) := fun _ =>
  decode_of_head (by
    have := Parse.map_some (f := Instr.wireFlags) (Parse.word16_undoes.nil f)
    simp only [be16] at this
    simp [encode, decodeHead, parseWord, be16, this])

theorem wireNameEnd : Statement .wireNameEnd := fun _ => by decide

theorem wireNameLabel (len : BitVec 6) : Statement (.wireNameLabel len) := fun h => by
  have hl := len.isLt
  have h0 : len.toNat ≠ 0 := fun h0 => by
    have : len = 0 := BitVec.eq_of_toNat_eq (by simpa using h0)
    subst this; simp [Instr.wf] at h
  have ht : (elementByte 0b00#2 len).toNat = len.toNat := by simp [elementByte_toNat]
  refine decode_of_head ?_
  simp [encode, decodeHead, parseWord, parseNameElement, Parse.bind,
    firstByte_label (b := elementByte 0b00#2 len) (by omega) (by omega), elementByte_low]

theorem wireNamePointer (off : BitVec 14) : Statement (.wireNamePointer off) := fun _ => by
  have ht : 192 ≤ (elementByte 0b11#2 (off.extractLsb' 8 6)).toNat := by
    rw [elementByte_toNat]; simp
  have ho : pointerOffset (off.extractLsb' 8 6) (off.extractLsb' 0 8) = off := by
    have := off.isLt
    apply BitVec.eq_of_toNat_eq
    rw [pointerOffset_toNat]
    simp only [BitVec.extractLsb'_toNat, Nat.shiftRight_eq_div_pow]
    omega
  refine decode_of_head ?_
  simp [encode, decodeHead, parseWord, parseNameElement, Parse.bind, Parse.map,
    firstByte_pointer ht, elementByte_low, ho]

theorem wireNameInvalid01 (x : BitVec 6) : Statement (.wireNameInvalid01 x) := fun _ => by
  have hx := x.isLt
  have ht : (elementByte 0b01#2 x).toNat = 64 + x.toNat := by simp [elementByte_toNat]
  refine decode_of_head ?_
  simp [encode, decodeHead, parseWord, parseNameElement, Parse.bind,
    firstByte_invalid01 (b := elementByte 0b01#2 x) (by omega) (by omega), elementByte_low]

theorem wireNameInvalid10 (x : BitVec 6) : Statement (.wireNameInvalid10 x) := fun _ => by
  have hx := x.isLt
  have ht : (elementByte 0b10#2 x).toNat = 128 + x.toNat := by simp [elementByte_toNat]
  refine decode_of_head ?_
  simp [encode, decodeHead, parseWord, parseNameElement, Parse.bind,
    firstByte_invalid10 (b := elementByte 0b10#2 x) (by omega) (by omega), elementByte_low]

theorem wireHeader (h : Header) : Statement (.wireHeader h) := fun _ =>
  decode_layout rfl (Parse.map_some (Parse.header_undoes.nil h))

theorem wireQuestion (q : Question) : Statement (.wireQuestion q) := fun _ =>
  decode_layout rfl (Parse.map_some (Parse.question_undoes.nil q))

theorem wireRecord (r : Record) : Statement (.wireRecord r) := fun _ =>
  decode_layout rfl (Parse.map_some (Parse.record_undoes.nil r))

theorem wireMessage (m : Message) : Statement (.wireMessage m) := fun _ =>
  decode_layout (p := Parse.message.map .wireMessage) rfl
    (Parse.map_some (p := Parse.message) (a := m) (Parse.message_undoes.nil m))

theorem opcodeQuery : Statement .opcodeQuery := fun _ => by decide

theorem opcodeIquery : Statement .opcodeIquery := fun _ => by decide

theorem opcodeStatus : Statement .opcodeStatus := fun _ => by decide

theorem rcodeNoerror : Statement .rcodeNoerror := fun _ => by decide

theorem rcodeFormerr : Statement .rcodeFormerr := fun _ => by decide

theorem rcodeServfail : Statement .rcodeServfail := fun _ => by decide

theorem rcodeNxdomain : Statement .rcodeNxdomain := fun _ => by decide

theorem rcodeNotimp : Statement .rcodeNotimp := fun _ => by decide

theorem rcodeRefused : Statement .rcodeRefused := fun _ => by decide

theorem typeA : Statement .typeA := fun _ => by decide

theorem typeNs : Statement .typeNs := fun _ => by decide

theorem typeMd : Statement .typeMd := fun _ => by decide

theorem typeMf : Statement .typeMf := fun _ => by decide

theorem typeCname : Statement .typeCname := fun _ => by decide

theorem typeSoa : Statement .typeSoa := fun _ => by decide

theorem typeMb : Statement .typeMb := fun _ => by decide

theorem typeMg : Statement .typeMg := fun _ => by decide

theorem typeMr : Statement .typeMr := fun _ => by decide

theorem typeNull : Statement .typeNull := fun _ => by decide

theorem typeWks : Statement .typeWks := fun _ => by decide

theorem typePtr : Statement .typePtr := fun _ => by decide

theorem typeHinfo : Statement .typeHinfo := fun _ => by decide

theorem typeMinfo : Statement .typeMinfo := fun _ => by decide

theorem typeMx : Statement .typeMx := fun _ => by decide

theorem typeTxt : Statement .typeTxt := fun _ => by decide

theorem typeAxfr : Statement .typeAxfr := fun _ => by decide

theorem typeMailb : Statement .typeMailb := fun _ => by decide

theorem typeMaila : Statement .typeMaila := fun _ => by decide

theorem typeAny : Statement .typeAny := fun _ => by decide

theorem classIn : Statement .classIn := fun _ => by decide

theorem classCs : Statement .classCs := fun _ => by decide

theorem classCh : Statement .classCh := fun _ => by decide

theorem classHs : Statement .classHs := fun _ => by decide

theorem classAny : Statement .classAny := fun _ => by decide

theorem errTruncatedMessage : Statement .errTruncatedMessage := fun _ => by decide

theorem errInvalidLabelEncoding : Statement .errInvalidLabelEncoding := fun _ => by decide

theorem errPointerLimitExceeded : Statement .errPointerLimitExceeded := fun _ => by decide

theorem errUnknownEnumValue : Statement .errUnknownEnumValue := fun _ => by decide

end Sys2Proof.Laws.RoundTrip
end

