-- ==== Sys2Proof/Laws/Sides.lean ====
section
/-! SUPPORT. What each instruction is, said once by side: a read-side operation is the gate around a
body, a write-side operation an output appended or refused, a pure operation an answer. -/

namespace Sys2Proof.Machine

/-- The gate around a body whose value is named as a result. -/
def IsGate (i : Instr) : Prop := ∃ body : Body Result, body.Safe ∧ body.Raises faultLegal ∧
  ∀ s, exec i s = readSide body s

theorem isGate {i : Instr} {α : Type} (x : Body α) (g : α → Result) (hs : x.Safe)
    (hr : x.Raises faultLegal) (he : ∀ s, exec i s = readSide (x.map g) s) : IsGate i :=
  ⟨x.map g, hs.map g, hr.map g, he⟩

theorem legal_of_truncated {α : Type} {x : Body α} (h : x.Raises isTruncated) :
    x.Raises faultLegal := h.mono fun _ => faultLegal_of_truncated

/-- Every read-side operation is the gate around a safe body (41_cursor_read.md R100). -/
theorem readSideOp_body {i : Instr} (h : readSideOp i = true) : IsGate i := by
  cases i
  case readU8 => exact isGate readU8 .u8 readU8_keeps.safe (legal_of_truncated readU8_raises) fun _ => rfl
  case readU16 => exact isGate readU16 .u16 readU16_keeps.safe readU16_legal fun _ => rfl
  case readU32 =>
    exact isGate readU32 .u32 readU32_keeps.safe (legal_of_truncated readU32_raises) fun _ => rfl
  case readBytes n =>
    exact isGate (readBytes n.toNat) .bytes (readBytes_keeps _).safe
      (legal_of_truncated (readBytes_raises _)) fun _ => rfl
  case setPosition p =>
    exact isGate (setPosition p) (fun _ => .none) (setPosition_keeps p).safe
      (legal_of_truncated (setPosition_raises p)) fun _ => rfl
  case readName => exact isGate readName .name readName_safe readName_legal fun _ => rfl
  case hdrDec => exact isGate decodeHeader .header decodeHeader_safe decodeHeader_legal fun _ => rfl
  case qDec =>
    exact isGate decodeQuestion .question decodeQuestion_safe decodeQuestion_legal fun _ => rfl
  case rrDec => exact isGate decodeRecord .record decodeRecord_safe decodeRecord_legal fun _ => rfl
  case msgDec => exact isGate decodeMessage .message decodeMessage_safe decodeMessage_legal fun _ => rfl
  all_goals exact absurd h Bool.false_ne_true

/-- Every write-side operation appends or is refused, the same in every state (43_writer.md R125). -/
theorem writeSideOp_output {i : Instr} (h : writeSideOp i = true) : ∃ output,
    ∀ s, exec i s = writeSide output s := by
  cases i
  case writeU16 v => exact ⟨some (be16 v), fun _ => rfl⟩
  case writeU32 v => exact ⟨some (be32 v), fun _ => rfl⟩
  case writeName n => exact ⟨nameOutput n, fun _ => rfl⟩
  case hdrEnc hdr => exact ⟨some (wireHeader hdr), fun _ => rfl⟩
  case qEnc q => exact ⟨questionOutput q, fun _ => rfl⟩
  case rrEnc r => exact ⟨recordOutput r, fun _ => rfl⟩
  case msgEnc m => exact ⟨messageOutput m, fun _ => rfl⟩
  all_goals exact absurd h Bool.false_ne_true

theorem pureSide_answer {α : Type} (g : α → Result) (v : Except FaultInfo α) :
    ∃ r, ∀ s, pureSide g v s = .next (s.answered r) := by
  cases v with
  | ok a => exact ⟨_, fun _ => rfl⟩
  | error f => exact ⟨_, fun _ => rfl⟩

theorem pureOrRefuse_answer (o : Option Result) :
    ∃ r, ∀ s, pureOrRefuse o s = .next (s.answered r) := by
  cases o with
  | some a => exact ⟨_, fun _ => rfl⟩
  | none => exact ⟨_, fun _ => rfl⟩

/-- Every pure operation is an answer, the same in every state (40_enums.md R80). -/
theorem pureOp_answer {i : Instr} (h : pureOp i = true) : ∃ r, ∀ s, exec i s = .next (s.answered r) := by
  cases i
  case opcodeFrom o => exact pureSide_answer .opcode (opcodeFrom o)
  case rcodeFrom o => exact pureSide_answer .rcode (rcodeFrom o)
  case typeFrom o => exact pureSide_answer .type (typeFrom o)
  case classFrom o => exact pureSide_answer .cls (classFrom o)
  case wireFlags w => exact pureSide_answer .flags (readFlags w)
  case wireNameLabel len => exact pureSide_answer .element (elementOf (elementByte 0b00#2 len) 0x00#8)
  case wireNamePointer off =>
    exact pureSide_answer .element
      (elementOf (elementByte 0b11#2 (off.extractLsb' 8 6)) (off.extractLsb' 0 8))
  case wireNameInvalid01 x => exact pureSide_answer .element (elementOf (elementByte 0b01#2 x) 0x00#8)
  case wireNameInvalid10 x => exact pureSide_answer .element (elementOf (elementByte 0b10#2 x) 0x00#8)
  case wireQuestion q => exact pureOrRefuse_answer ((questionOutput q).map .bytes)
  case wireRecord r => exact pureOrRefuse_answer ((recordOutput r).map .bytes)
  case wireMessage m => exact pureOrRefuse_answer ((messageOutput m).map .bytes)
  case reset | loadRx | clearTx | readU8 | readU16 | readU32 | readBytes | setPosition | readName |
    writeU16 | writeU32 | writeName | hdrEnc | hdrDec | qEnc | qDec | rrEnc | rrDec | msgEnc |
    msgDec | serialize | deserialize => cases h
  all_goals exact ⟨_, fun _ => rfl⟩

/-- The five operations of the host side. -/
theorem hostSideOp_cases {i : Instr} (h : hostSideOp i = true) :
    i = .reset ∨ (∃ data, i = .loadRx data) ∨ i = .clearTx ∨ (∃ m, i = .serialize m) ∨
    (∃ data, i = .deserialize data) := by
  cases i
  case reset => exact .inl rfl
  case loadRx data => exact .inr (.inl ⟨data, rfl⟩)
  case clearTx => exact .inr (.inr (.inl rfl))
  case serialize m => exact .inr (.inr (.inr (.inl ⟨m, rfl⟩)))
  case deserialize data => exact .inr (.inr (.inr (.inr ⟨data, rfl⟩)))
  all_goals exact absurd h Bool.false_ne_true

/-- What an operation of each side is; the five of the host side stand for themselves. -/
theorem exec_side (i : Instr) :
    (readSideOp i = true ∧ IsGate i) ∨
    (∃ output, writeSideOp i = true ∧ ∀ s, exec i s = writeSide output s) ∨
    (∃ r, pureOp i = true ∧ ∀ s, exec i s = .next (s.answered r)) ∨
    i = .reset ∨ (∃ data, i = .loadRx data) ∨ i = .clearTx ∨ (∃ m, i = .serialize m) ∨
    (∃ data, i = .deserialize data) := by
  by_cases hr : readSideOp i = true
  · exact .inl ⟨hr, readSideOp_body hr⟩
  by_cases hw : writeSideOp i = true
  · obtain ⟨output, h⟩ := writeSideOp_output hw
    exact .inr (.inl ⟨output, hw, h⟩)
  by_cases hp : pureOp i = true
  · obtain ⟨r, h⟩ := pureOp_answer hp
    exact .inr (.inr (.inl ⟨r, hp, h⟩))
  exact .inr (.inr (.inr (hostSideOp_cases (by simpa [pureOp, hr, hw] using hp))))

end Sys2Proof.Machine
end

