-- ==== Sys2Proof/Laws/Runs.lean ====
section
/-! SUPPORT. Operations issued one after the other: every instruction is answered, a fault sticks, and
the repetition inside MSG_DEC is the issuing of the repeated operation. -/

namespace Sys2Proof.Machine

/-- Every instruction is answered with a next state (70_reset_and_hazards.md R213). -/
theorem exec_next (i : Instr) (s : State) : ∃ t, exec i s = .next t := by
  obtain ⟨-, body, -, -, h⟩ | ⟨o, -, h⟩ | ⟨r, -, h⟩ | rfl | ⟨d, rfl⟩ | rfl | ⟨m, rfl⟩ | ⟨d, rfl⟩ :=
    exec_side i
  · rw [h]; exact readSide_answers body s
  · rw [h]; cases o <;> exact ⟨_, rfl⟩
  · exact ⟨_, h s⟩
  · exact ⟨_, rfl⟩
  · show ∃ t, execLoadRx d s = _
    simp only [execLoadRx]
    split <;> exact ⟨_, rfl⟩
  · exact ⟨_, rfl⟩
  · show ∃ t, execSerialize m s = _
    simp only [execSerialize]
    split <;> exact ⟨_, rfl⟩
  · show ∃ t, execDeserialize d s = _
    simp only [execDeserialize]
    split
    · exact ⟨_, rfl⟩
    · exact readSide_answers _ _

theorem Runs.append {is js : List Instr} {s t u : State} {rs qs : List Response} (h : Runs is s rs t)
    (h' : Runs js t qs u) : Runs (is ++ js) s (rs ++ qs) u := by
  induction h with
  | nil => exact h'
  | cons i rest s t u r rs h1 h2 _ ih => exact .cons _ _ _ _ _ _ _ h1 h2 (ih h')

/-- After a fault, read-side operations leave the state as it is (60_exceptions.md R191). -/
theorem Runs.sticky {is : List Instr} (hr : ∀ i ∈ is, readSideOp i = true) {s : State} {f : FaultInfo}
    (hs : s.rstatus = .fault f) (ha : s.answer = some (.fault f)) : ∃ rs, Runs is s rs s := by
  induction is with
  | nil => exact ⟨[], .nil s⟩
  | cons i is ih =>
    obtain ⟨rs, h⟩ := ih fun i hi => hr i (List.mem_cons_of_mem _ hi)
    obtain ⟨body, -, -, h3⟩ := readSideOp_body (hr i List.mem_cons_self)
    have : s.respond (.fault f) = s := by
      obtain ⟨⟩ := s
      simp_all [State.respond]
    exact ⟨_, .cons i is s s s (.fault f) rs (by rw [h3, readSide_sticky hs, this]) ha h⟩

/-- A body repeated `n` times inside an operation ends as its own operation issued `n` times does: with
the same values, or with the same first fault (46_message.md R172, 60_exceptions.md R190). -/
theorem Runs.of_times {α : Type} {x : Body α} {g : α → Result} {i : Instr} (hx : x.Safe)
    (hl : x.Raises faultLegal) (he : ∀ s, exec i s = readSide (x.map g) s)
    (hi : readSideOp i = true) (n : Nat) : ∀ s : State, s.Inv → s.rstatus = .ok →
    (∃ as e u, Body.times x n s.buf s.cursor = .ok as { s.cursor with rpos := e } ∧ as.length = n ∧
      Runs (List.replicate n i) s (as.map fun a => .done (g a)) u ∧ u.Inv ∧
      u = { s with rpos := e, answer := u.answer }) ∨
    (∃ f e rs, Body.times x n s.buf s.cursor = .raised f { s.cursor with rpos := e } ∧
      Runs (List.replicate n i) s rs (s.faultAt e f)) := by
  induction n with
  | zero => exact fun s hs _ => .inl ⟨[], s.rpos, s, rfl, rfl, .nil s, hs, rfl⟩
  | succ n ih =>
    intro s hs hok
    obtain ⟨a, p, hb⟩ | ⟨f, p, hb⟩ := hx.ends hs
    · have hex : exec i s = .next (s.readTo p (g a)) := (he s).trans (readSide_map_readTo hok hb)
      have hinv : (s.readTo p (g a)).Inv :=
        readSide_inv (hx.map g) (hl.map g) hs ((he s).symm.trans hex)
      obtain ⟨as, e, u, ht, hn, hr, hu, hue⟩ | ⟨f, e, rs, ht, hr⟩ := ih _ hinv hok
      · refine .inl ⟨a :: as, e, u, ?_, by simp [hn], .cons _ _ _ _ _ _ _ hex rfl hr, hu, ?_⟩
        · have : Body.times x n s.buf { s.cursor with rpos := p } =
              .ok as { s.cursor with rpos := e } := ht
          rw [Body.times, Body.bind_ok hb, Body.bind_ok this]
          rfl
        · rw [hue]; rfl
      · refine .inr ⟨f, e, _, ?_, .cons _ _ _ _ _ _ _ hex rfl hr⟩
        have : Body.times x n s.buf { s.cursor with rpos := p } =
            .raised f { s.cursor with rpos := e } := ht
        rw [Body.times, Body.bind_ok hb, Body.bind_raised this]
    · have hex : exec i s = .next (s.faultAt p f) := (he s).trans (readSide_map_faultAt hok hb)
      obtain ⟨rs, hr⟩ := Runs.sticky (is := List.replicate n i)
        (fun j hj => by rw [List.eq_of_mem_replicate hj]; exact hi) (s := s.faultAt p f) rfl rfl
      exact .inr ⟨f, p, _, by rw [Body.times, Body.bind_raised hb],
        .cons _ _ _ _ _ _ _ hex rfl hr⟩

end Sys2Proof.Machine
end

