-- ==== Sys2Proof/Laws/Wire.lean ====
section
/-! SUPPORT. What the writer writes is what the reader finds: the bytes of a name, a header, an entry and
a message, standing in the buffer, are a name, a header, an entry and a message there. -/

namespace Sys2Proof.Machine

/-! ## The flags word -/

/-- The sum of a flags word's fields (30_encoding.md R55, R56). -/
def flagSum (f : FlagFields) : Nat :=
  f.qr.toNat * 2 ^ 15 + (opcodeTab f.opcode).toNat * 2 ^ 11 + f.aa.toNat * 2 ^ 10 +
  f.tc.toNat * 2 ^ 9 + f.rd.toNat * 2 ^ 8 + f.ra.toNat * 2 ^ 7 + f.z.toNat * 2 ^ 4 +
  (rcodeTab f.rcode).toNat

theorem bit16_shift (b : Bool) {k : Nat} (hk : k ≤ 15) : (bit16 b <<< k).toNat = b.toNat <<< k := by
  have h1 : b.toNat ≤ 1 := Bool.toNat_le b
  have h2 : b.toNat * 2 ^ k ≤ 1 * 2 ^ 15 := Nat.mul_le_mul h1 (Nat.pow_le_pow_right (by omega) hk)
  simp only [bit16, BitVec.toNat_shiftLeft, BitVec.toNat_setWidth, BitVec.toNat_ofBool,
    Nat.shiftLeft_eq]
  rw [Nat.mod_eq_of_lt (a := b.toNat) (by omega)]
  exact Nat.mod_eq_of_lt (by omega)

theorem field_shift {w : Nat} (v : BitVec w) {k : Nat} (hk : w + k ≤ 16) :
    (v.setWidth 16 <<< k).toNat = v.toNat <<< k := by
  have h1 := v.isLt
  have h2 : v.toNat * 2 ^ k < 2 ^ w * 2 ^ k := Nat.mul_lt_mul_of_pos_right h1 (by positivity)
  have h3 : 2 ^ w * 2 ^ k ≤ 2 ^ 16 := by
    rw [← Nat.pow_add]; exact Nat.pow_le_pow_right (by omega) hk
  have h4 : v.toNat ≤ v.toNat * 2 ^ k := Nat.le_mul_of_pos_right _ (by positivity)
  simp only [BitVec.toNat_shiftLeft, BitVec.toNat_setWidth, Nat.shiftLeft_eq]
  rw [Nat.mod_eq_of_lt (a := v.toNat) (by omega)]
  exact Nat.mod_eq_of_lt (by omega)

theorem shift_or {a k y : Nat} (h : y < 2 ^ k) : a <<< k ||| y = a * 2 ^ k + y := by
  rw [← Nat.shiftLeft_add_eq_or_of_lt h, Nat.shiftLeft_eq]

/-- No bit leaks across field boundaries: the flags word is the sum of its fields (44_header.md R141). -/
theorem packFlags_toNat (f : FlagFields) : (packFlags f).toNat = flagSum f := by
  have hq := Bool.toNat_le f.qr
  have ha := Bool.toNat_le f.aa
  have ht := Bool.toNat_le f.tc
  have hd := Bool.toNat_le f.rd
  have hr := Bool.toNat_le f.ra
  have ho := (opcodeTab f.opcode).isLt
  have hz := f.z.isLt
  have hc := (rcodeTab f.rcode).isLt
  have hrc : ((rcodeTab f.rcode).setWidth 16).toNat = (rcodeTab f.rcode).toNat := by
    simp only [BitVec.toNat_setWidth]; omega
  simp only [packFlags, BitVec.toNat_or, hrc, bit16_shift f.qr (k := 15) (by omega),
    bit16_shift f.aa (k := 10) (by omega), bit16_shift f.tc (k := 9) (by omega),
    bit16_shift f.rd (k := 8) (by omega), bit16_shift f.ra (k := 7) (by omega),
    field_shift (opcodeTab f.opcode) (k := 11) (by omega), field_shift f.z (k := 4) (by omega),
    Nat.or_assoc]
  rw [shift_or (a := f.z.toNat) (by omega), shift_or (a := f.ra.toNat) (by omega),
    shift_or (a := f.rd.toNat) (by omega), shift_or (a := f.tc.toNat) (by omega),
    shift_or (a := f.aa.toNat) (by omega), shift_or (a := (opcodeTab f.opcode).toNat) (by omega),
    shift_or (a := f.qr.toNat) (by omega), flagSum]
  omega

theorem bit_of_toNat (w : Word16) (k : Nat) (b : Bool) (h : w.toNat / 2 ^ k % 2 = b.toNat) :
    w.getLsbD k = b := by
  rw [BitVec.getLsbD, Nat.testBit_eq_decide_div_mod_eq, h]
  cases b <;> rfl

theorem slice_of_toNat {w k : Nat} (v : Word16) (x : BitVec w) (h : v.toNat / 2 ^ k % 2 ^ w = x.toNat) :
    v.extractLsb' k w = x := by
  apply BitVec.eq_of_toNat_eq
  rw [BitVec.extractLsb'_toNat, Nat.shiftRight_eq_div_pow, h]

/-- The fields come back out of the flags word (44_header.md R143). -/
theorem packFlags_fields (f : FlagFields) :
    (packFlags f).getLsbD 15 = f.qr ∧ (packFlags f).extractLsb' 11 4 = opcodeTab f.opcode ∧
    (packFlags f).getLsbD 10 = f.aa ∧ (packFlags f).getLsbD 9 = f.tc ∧
    (packFlags f).getLsbD 8 = f.rd ∧ (packFlags f).getLsbD 7 = f.ra ∧
    (packFlags f).extractLsb' 4 3 = f.z ∧ (packFlags f).extractLsb' 0 4 = rcodeTab f.rcode := by
  have hq := Bool.toNat_le f.qr
  have ha := Bool.toNat_le f.aa
  have ht := Bool.toNat_le f.tc
  have hd := Bool.toNat_le f.rd
  have hr := Bool.toNat_le f.ra
  have ho := (opcodeTab f.opcode).isLt
  have hz := f.z.isLt
  have hc := (rcodeTab f.rcode).isLt
  have hs := packFlags_toNat f
  rw [flagSum] at hs
  refine ⟨bit_of_toNat _ _ _ ?_, slice_of_toNat _ _ ?_, bit_of_toNat _ _ _ ?_, bit_of_toNat _ _ _ ?_,
    bit_of_toNat _ _ _ ?_, bit_of_toNat _ _ _ ?_, slice_of_toNat _ _ ?_, slice_of_toNat _ _ ?_⟩ <;>
    rw [hs] <;> omega

/-- A flags word is the pack of its own fields (44_header.md R143). -/
theorem packFlags_unpack {w : Word16} {f : FlagFields} (h : readFlags w = .ok f) :
    packFlags f = w := by
  obtain ⟨h1, h2, h3⟩ := readFlags_ok h
  have hw := w.isLt
  apply BitVec.eq_of_toNat_eq
  rw [packFlags_toNat, flagSum, h1, h2, h3]
  have hb : ∀ k, (w.getLsbD k).toNat = w.toNat / 2 ^ k % 2 := fun k => by
    rw [BitVec.getLsbD, Nat.testBit_eq_decide_div_mod_eq]
    rcases Nat.mod_two_eq_zero_or_one (w.toNat / 2 ^ k) with h | h <;> rw [h] <;> rfl
  simp only [unpackFlags, opcodeBits, rcodeBits, hb, BitVec.extractLsb'_toNat,
    Nat.shiftRight_eq_div_pow]
  omega

/-! ## Words -/

theorem u16At_of_be16 {b : Buf} {p : Nat} {v : Word16} (h : BytesAt b p (be16 v)) : U16At b p v :=
  ⟨_, _, h, by rw [← word16_toNat, word16_be16]⟩

theorem be16_of_u16At {b : Buf} {p : Nat} {v : Word16} (h : U16At b p v) : BytesAt b p (be16 v) := by
  obtain ⟨b0, b1, hb, hv⟩ := h
  have : v = word16 b0 b1 := BitVec.eq_of_toNat_eq (by rw [hv, word16_toNat])
  rw [this, be16_word16]
  exact hb

theorem u32At_of_be32 {b : Buf} {p : Nat} {v : Word32} (h : BytesAt b p (be32 v)) : U32At b p v :=
  ⟨_, _, _, _, h, by rw [← word32_toNat, word32_be32]⟩

/-- The same bytes stand at one place only once. -/
theorem BytesAt.unique {b : Buf} {p : Nat} {xs ys : List Byte} (hx : BytesAt b p xs)
    (hy : BytesAt b p ys) (hl : xs.length = ys.length) : xs = ys := by
  induction xs generalizing p ys with
  | nil => exact (List.length_eq_zero_iff.1 hl.symm).symm
  | cons x xs ih =>
    cases ys with
    | nil => cases hl
    | cons y ys =>
      have : x = y := Option.some.inj (hx.1.2.symm.trans hy.1.2)
      rw [this, ih hx.2 hy.2 (by simpa using hl)]

/-! ## Headers -/

theorem headerAt_of_bytesAt {b : Buf} {p : Nat} {h : Header} (hb : BytesAt b p (wireHeader h)) :
    HeaderAt b p h := by
  simp only [wireHeader, BytesAt.append, List.length_append, be16_length] at hb
  obtain ⟨⟨⟨⟨⟨h0, h1⟩, h2⟩, h3⟩, h4⟩, h5⟩ := hb
  exact ⟨u16At_of_be16 h0, ⟨packFlags (headerFlags h), u16At_of_be16 h1,
    packFlags_fields (headerFlags h)⟩, u16At_of_be16 h2, u16At_of_be16 h3, u16At_of_be16 h4,
    u16At_of_be16 h5⟩

theorem readFlags_of_fields {w : Word16} {h : Header} (h15 : w.getLsbD 15 = h.qr)
    (hop : w.extractLsb' 11 4 = opcodeTab h.opcode) (h10 : w.getLsbD 10 = h.aa)
    (h9 : w.getLsbD 9 = h.tc) (h8 : w.getLsbD 8 = h.rd) (h7 : w.getLsbD 7 = h.ra)
    (hz : w.extractLsb' 4 3 = h.z) (hrc : w.extractLsb' 0 4 = rcodeTab h.rcode) :
    readFlags w = .ok (headerFlags h) := by
  rw [readFlags_of_ords (op := h.opcode) (rc := h.rcode) hop hrc]
  simp only [unpackFlags, headerFlags, h15, h10, h9, h8, h7, hz]

theorem bytesAt_of_headerAt {b : Buf} {p : Nat} {h : Header} (hh : HeaderAt b p h) :
    BytesAt b p (wireHeader h) := by
  obtain ⟨h0, ⟨w, hw, h15, hop, h10, h9, h8, h7, hz, hrc⟩, h2, h3, h4, h5⟩ := hh
  have : packFlags (headerFlags h) = w :=
    packFlags_unpack (readFlags_of_fields h15 hop h10 h9 h8 h7 hz hrc)
  simp only [wireHeader, BytesAt.append, List.length_append, be16_length, this]
  exact ⟨⟨⟨⟨⟨be16_of_u16At h0, be16_of_u16At hw⟩, be16_of_u16At h2⟩, be16_of_u16At h3⟩,
    be16_of_u16At h4⟩, be16_of_u16At h5⟩

@[simp] theorem wireHeader_length (h : Header) : (wireHeader h).length = 12 := rfl

/-! ## Names -/

theorem validName_iff {n : Name} : validName n = true ↔
    n ≠ [] ∧ ∀ seg ∈ split dot n, 1 ≤ seg.length ∧ seg.length ≤ 63 := by
  simp [validName]

/-- A name is written where no segment is too long (43_writer.md R128). -/
theorem nameWritable_iff {n : Name} : nameWritable n = true ↔ ¬ TooLong n := by
  simp [nameWritable, TooLong]

/-- Segments of 1 to 63 codes on the wire are labels (43_writer.md R131). -/
theorem labelsAt_of_bytesAt {b : Buf} {p : Nat} {segs : List (List Byte)}
    (hs : ∀ seg ∈ segs, 1 ≤ seg.length ∧ seg.length ≤ 63)
    (hb : BytesAt b p (segs.flatMap wireSegment)) :
    LabelsAt b p segs (p + (segs.flatMap wireSegment).length) := by
  induction segs generalizing p with
  | nil => exact .nil p
  | cons seg rest ih =>
    obtain ⟨h1, h2⟩ := hs seg (by simp)
    simp only [List.flatMap_cons, wireSegment, List.cons_append, BytesAt, BytesAt.append] at hb
    obtain ⟨hlen, hseg, hrest⟩ := hb
    have hn : (BitVec.ofNat 8 seg.length).toNat = seg.length := by
      simp only [BitVec.toNat_ofNat]; omega
    have := ih (fun s hm => hs s (List.mem_cons_of_mem _ hm)) hrest
    have hq : p + ((seg :: rest).flatMap wireSegment).length =
        p + 1 + seg.length + (rest.flatMap wireSegment).length := by
      simp only [List.flatMap_cons, wireSegment, List.cons_append, List.length_cons,
        List.length_append]
      omega
    rw [hq]
    exact .cons p _ _ seg rest hlen (by omega) (by omega) hn.symm hseg this

theorem flatMap_wireSegment_length (n : Name) :
    ((split dot n).flatMap wireSegment).length = n.length + 1 := by
  have := wireName_length n
  simp only [wireName, List.length_append, List.length_cons, List.length_nil] at this
  omega

/-- A valid name's bytes are its labels and a terminator (43_writer.md R131). -/
theorem labels_of_wireName {b : Buf} {p : Nat} {n : Name} (hv : validName n = true)
    (hb : BytesAt b p (wireName n)) :
    LabelsAt b p (split dot n) (p + n.length + 1) ∧ ByteAt b (p + n.length + 1) 0x00#8 := by
  obtain ⟨h1, h2⟩ := BytesAt.append.1 hb
  have h1 := labelsAt_of_bytesAt (validName_iff.1 hv).2 h1
  rw [flatMap_wireSegment_length] at h1 h2
  exact ⟨h1, h2.1⟩

theorem nameAt_of_wireName {b : Buf} {p : Nat} {n : Name} (hv : validName n = true)
    (hb : BytesAt b p (wireName n)) : NameAt b 0 p (split dot n) (p + (wireName n).length) := by
  obtain ⟨h1, h2⟩ := labels_of_wireName hv hb
  have := NameAt.ends 0 p _ _ h1 h2
  rwa [wireName_length]

/-- A valid name can be written. -/
theorem nameWritable_of_valid {n : Name} (hv : validName n = true) : nameWritable n = true := by
  simp only [nameWritable, List.all_eq_true, decide_eq_true_eq]
  intro seg hs
  have := ((validName_iff.1 hv).2 seg hs).2
  omega

/-! ## Entries -/

theorem questionAt_of_bytesAt {b : Buf} {p : Nat} {q : Question} (hv : validName q.qname = true)
    (hb : BytesAt b p (wireQuestion q)) : QuestionAt b p q (p + (wireQuestion q).length) := by
  simp only [wireQuestion, BytesAt.append, List.length_append, be16_length] at hb ⊢
  obtain ⟨⟨h0, h1⟩, h2⟩ := hb
  refine ⟨split dot q.qname, _, nameAt_of_wireName hv h0, (join_split dot q.qname).symm,
    u16At_of_be16 h1, u16At_of_be16 ?_, by omega⟩
  exact h2

theorem recordAt_of_bytesAt {b : Buf} {p : Nat} {r : Record} (hw : r.wf = true)
    (hv : validName r.name = true) (hb : BytesAt b p (wireRecord r)) :
    RecordAt b p r (p + (wireRecord r).length) := by
  simp only [wireRecord, BytesAt.append, List.length_append, be16_length, be32_length] at hb ⊢
  obtain ⟨⟨⟨⟨⟨h0, h1⟩, h2⟩, h3⟩, h4⟩, h5⟩ := hb
  have hl : r.rdata.length = r.rdlength.toNat := by
    simpa [Record.wf] using (of_decide_eq_true hw).symm
  refine ⟨split dot r.name, _, nameAt_of_wireName hv h0, (join_split dot r.name).symm,
    u16At_of_be16 h1, u16At_of_be16 h2, u32At_of_be32 ?_, u16At_of_be16 ?_, hl, ?_, by omega⟩
  · exact h3
  · exact h4
  · exact h5

theorem entriesAt_of_bytesAt {α : Type} {entry : Nat → α → Nat → Prop} {enc : α → List Byte} {b : Buf}
    {as : List α} (he : ∀ a ∈ as, ∀ {p : Nat}, BytesAt b p (enc a) → entry p a (p + (enc a).length))
    {p : Nat} (hb : BytesAt b p (as.flatMap enc)) :
    EntriesAt entry p as (p + (as.flatMap enc).length) := by
  induction as generalizing p with
  | nil => exact .nil p
  | cons a rest ih =>
    rw [List.flatMap_cons, BytesAt.append] at hb
    have h1 := he a (by simp) hb.1
    have h2 := ih (fun a ha => he a (List.mem_cons_of_mem _ ha)) hb.2
    rw [List.flatMap_cons, List.length_append, ← Nat.add_assoc]
    exact .cons _ _ _ _ _ h1 h2

/-! ## Messages -/

theorem Message.wf_iff {m : Message} : m.wf = true ↔
    m.hdr.qdcount.toNat = m.qd.length ∧ m.hdr.ancount.toNat = m.an.length ∧
    m.hdr.nscount.toNat = m.ns.length ∧ m.hdr.arcount.toNat = m.ar.length ∧
    (∀ r ∈ m.an, r.wf = true) ∧ (∀ r ∈ m.ns, r.wf = true) ∧ (∀ r ∈ m.ar, r.wf = true) := by
  simp only [Message.wf, Bool.and_eq_true, beq_iff_eq, List.all_eq_true, and_assoc]

theorem roundTrippable_iff {m : Message} : m.roundTrippable = true ↔ m.wf = true ∧
    (∀ q ∈ m.qd, validName q.qname = true) ∧ (∀ r ∈ m.an, validName r.name = true) ∧
    (∀ r ∈ m.ns, validName r.name = true) ∧ (∀ r ∈ m.ar, validName r.name = true) := by
  simp only [Message.roundTrippable, Bool.and_eq_true, List.all_eq_true, and_assoc]

theorem messageAt_of_bytesAt {b : Buf} {p : Nat} {m : Message} (hm : m.roundTrippable = true)
    (hb : BytesAt b p (wireMessage m)) : MessageAt b p m (p + (wireMessage m).length) := by
  obtain ⟨hw, vq, va, vn, vx⟩ := roundTrippable_iff.1 hm
  obtain ⟨c1, c2, c3, c4, wa, wn, wx⟩ := Message.wf_iff.1 hw
  simp only [wireMessage, BytesAt.append, List.length_append, wireHeader_length] at hb ⊢
  obtain ⟨⟨⟨⟨h0, h1⟩, h2⟩, h3⟩, h4⟩ := hb
  have e1 := entriesAt_of_bytesAt (entry := QuestionAt b)
    (fun q hq _ h => questionAt_of_bytesAt (vq q hq) h) h1
  have e2 := entriesAt_of_bytesAt (entry := RecordAt b)
    (fun r hr _ h => recordAt_of_bytesAt (wa r hr) (va r hr) h) h2
  have e3 := entriesAt_of_bytesAt (entry := RecordAt b)
    (fun r hr _ h => recordAt_of_bytesAt (wn r hr) (vn r hr) h) h3
  have e4 := entriesAt_of_bytesAt (entry := RecordAt b)
    (fun r hr _ h => recordAt_of_bytesAt (wx r hr) (vx r hr) h) h4
  simp only [Nat.add_assoc] at e1 e2 e3 e4 ⊢
  exact ⟨headerAt_of_bytesAt h0, c1.symm, c2.symm, c3.symm, c4.symm, _, _, _, e1, e2, e3, e4⟩

/-- What LOAD_RX installs stands in the buffer (10_state.md R20). -/
theorem bytesAt_loaded (s : State) (data : List Byte) (t : State) (hc : t.rx = (s.loaded data).rx)
    (hz : t.size = data.length) : BytesAt t.buf 0 data := by
  have key : ∀ (n : Nat) (xs : List Byte), data.drop n = xs → n ≤ data.length → BytesAt t.buf n xs := by
    intro n xs
    induction xs generalizing n with
    | nil => intro _ hn; exact le_of_le_of_eq hn hz.symm
    | cons x xs ih =>
      intro hd hn
      have hlt : n < data.length := by
        rcases Nat.lt_or_ge n data.length with h | h
        · exact h
        · rw [List.drop_eq_nil_of_le h] at hd; cases hd
      rw [List.drop_eq_getElem_cons hlt] at hd
      obtain ⟨rfl, h2⟩ := List.cons.inj hd
      refine ⟨⟨lt_of_lt_of_eq hlt hz.symm, ?_⟩, ih (n + 1) h2 hlt⟩
      have := Memory.read_writeBytes data s.rx 0 n
      rw [Nat.zero_add, if_pos hlt, List.getElem?_eq_getElem hlt] at this
      rw [State.buf_cells, hc, State.loaded_rx]
      exact this
  exact key 0 data rfl (Nat.zero_le _)

end Sys2Proof.Machine
end

