-- ==== Sys2Proof/Tests/Slice0.lean ====
section
/-! SUPPORT. Tests. Words are written out from the spec's encodings and expected results from
spec/95_test_vectors.md, whose id stands beside each; the last part shows for every statement with
hypotheses a state that meets them. -/

namespace Sys2Proof.Tests

open Sys2Proof.Machine

/-- A state that has loaded `bs` and moved the cursor to `p`. -/
def at_ (bs : List Byte) (p : Nat) : State := { State.reset.loaded bs with rpos := p }

/-- What a vector states of a step: the answer, RPOS, whether the read side is faulted, TX. -/
def seen (o : Host.Outcome State Fault Refusal) : Option (Option Response × Nat × RStatus × List Byte) :=
  match o with
  | .next t => some (t.answer, t.rpos, t.rstatus, t.tx)
  | .fault _ => none
  | .refused _ => none

/-- A read-side operation completed with the cursor at `p`. -/
def readDone (p : Nat) (r : Result) : Option (Option Response × Nat × RStatus × List Byte) :=
  some (some (.done r), p, .ok, [])

/-- A read-side operation faulted with the cursor at `p`. -/
def readFault (p : Nat) (f : FaultInfo) : Option (Option Response × Nat × RStatus × List Byte) :=
  some (some (.fault f), p, .fault f, [])

/-- From reset, an operation answered `r` and left TX as `w`. -/
def answers (r : Response) (w : List Byte) : Option (Option Response × Nat × RStatus × List Byte) :=
  some (some r, 0, .ok, w)

/-- Each transaction decodes to the instruction beside it. -/
def decodes (rows : List (Transaction × Instr)) : Bool :=
  rows.all fun row => (decode row.1).toOption == some row.2

/-! ## Well-formedness: a label of length 0 is not a label (30_encoding.md R58) -/

theorem test_label_zero_refused : (Instr.wireNameLabel 0).wf = false := by decide

theorem test_label_max_accepted : (Instr.wireNameLabel 63).wf = true := by decide

theorem test_record_length_refused :
    (Record.mk [0x61#8] .a .inet 1 4 [1, 2, 3]).wf = false := by decide

theorem test_message_count_refused :
    (Message.mk ⟨0, false, .query, false, false, false, false, 0, .noerror, 1, 0, 0, 0⟩ [] [] [] []).wf =
      false := by decide

theorem test_empty_name_refused : validName [] = false := by decide

theorem test_empty_segment_refused : validName [0x61#8, dot] = false := by decide

theorem test_long_segment_refused : validName (List.replicate 64 0x78#8) = false := by decide

/-! ## Decoding: one word for every constructor -/

/-- A header with every field at a value of its own. -/
def hdr1 : Header :=
  { id := 0x1234, qr := true, opcode := .status, aa := false, tc := true, rd := true, ra := false,
    z := 5, rcode := .nxdomain, qdcount := 1, ancount := 2, nscount := 3, arcount := 4 }

/-- Its operand carriage (log 1): numbers in wire order, a bit or a member's place in a byte. -/
def hdr1Bytes : List Byte :=
  [0x12#8, 0x34#8, 0x01#8, 0x02#8, 0x00#8, 0x01#8, 0x01#8, 0x00#8, 0x05#8, 0x03#8] ++
    [0x00#8, 0x01#8, 0x00#8, 0x02#8, 0x00#8, 0x03#8, 0x00#8, 0x04#8]

def q1 : Question := { qname := [0x61#8], qtype := .mx, qclass := .ch }

/-- Its operand carriage (log 1): 1 before each code and 0 after the last, then the members' places. -/
def q1Bytes : List Byte := [0x01#8, 0x61#8, 0x00#8, 0x0E#8, 0x02#8]

def r1 : Record :=
  { name := [0x62#8], type := .a, cls := .inet, ttl := 0x01020304, rdlength := 1, rdata := [0x7F#8] }

def r1Bytes : List Byte :=
  [0x01#8, 0x62#8, 0x00#8, 0x00#8, 0x00#8, 0x01#8, 0x02#8, 0x03#8, 0x04#8, 0x00#8, 0x01#8] ++
    [0x01#8, 0x7F#8, 0x00#8]

def m1 : Message := { hdr := hdr1, qd := [q1], an := [r1], ns := [], ar := [] }

def m1Bytes : List Byte :=
  hdr1Bytes ++ 0x01#8 :: q1Bytes ++ [0x00#8] ++ 0x01#8 :: r1Bytes ++ [0x00#8, 0x00#8, 0x00#8]

/-- The command codes of 30_encoding.md R52. -/
theorem test_decode_host_and_cursor : decodes
    [(⟨.command, [0x01#8]⟩, .reset),
     (⟨.command, [0x02#8, 0x01#8, 0xAB#8, 0x01#8, 0xCD#8, 0x00#8]⟩, .loadRx [0xAB#8, 0xCD#8]),
     (⟨.command, [0x03#8]⟩, .clearTx),
     (⟨.command, [0x10#8]⟩, .readU8),
     (⟨.command, [0x11#8]⟩, .readU16),
     (⟨.command, [0x12#8]⟩, .readU32),
     (⟨.command, [0x13#8, 0x01#8, 0x02#8]⟩, .readBytes 0x0102),
     (⟨.command, [0x14#8, 0x01#8, 0x02#8, 0x01#8, 0x01#8, 0x00#8]⟩, .setPosition 258),
     (⟨.command, [0x15#8]⟩, .readName)] = true := by decide

theorem test_decode_writer : decodes
    [(⟨.command, [0x20#8, 0x12#8, 0x34#8]⟩, .writeU16 0x1234),
     (⟨.command, [0x21#8, 0xDE#8, 0xAD#8, 0xBE#8, 0xEF#8]⟩, .writeU32 0xDEADBEEF),
     (⟨.command, [0x22#8, 0x01#8, 0x61#8, 0x00#8]⟩, .writeName [0x61#8])] = true := by decide

theorem test_decode_conversions : decodes
    [(⟨.command, [0x30#8, 0x0F#8]⟩, .opcodeFrom 15),
     (⟨.command, [0x31#8, 0x02#8]⟩, .opcodeTo .status),
     (⟨.command, [0x32#8, 0x06#8]⟩, .rcodeFrom 6),
     (⟨.command, [0x33#8, 0x05#8]⟩, .rcodeTo .refused),
     (⟨.command, [0x34#8, 0x01#8, 0x00#8]⟩, .typeFrom 256),
     (⟨.command, [0x35#8, 0x13#8]⟩, .typeTo .any),
     (⟨.command, [0x36#8, 0x00#8, 0x06#8]⟩, .classFrom 6),
     (⟨.command, [0x37#8, 0x03#8]⟩, .classTo .hs)] = true := by decide

theorem test_decode_codec : decodes
    [(⟨.command, 0x40#8 :: hdr1Bytes⟩, .hdrEnc hdr1),
     (⟨.command, [0x41#8]⟩, .hdrDec),
     (⟨.command, 0x50#8 :: q1Bytes⟩, .qEnc q1),
     (⟨.command, [0x51#8]⟩, .qDec),
     (⟨.command, 0x52#8 :: r1Bytes⟩, .rrEnc r1),
     (⟨.command, [0x53#8]⟩, .rrDec),
     (⟨.command, 0x60#8 :: m1Bytes⟩, .msgEnc m1),
     (⟨.command, [0x61#8]⟩, .msgDec),
     (⟨.command, 0x62#8 :: 0x12#8 :: 0x34#8 :: q1Bytes⟩, .buildRequest 0x1234 q1),
     (⟨.pseudo, 0x00#8 :: m1Bytes⟩, .serialize m1),
     (⟨.pseudo, [0x01#8, 0x01#8, 0xAB#8, 0x00#8]⟩, .deserialize [0xAB#8])] = true := by decide

/-- The words of 30_encoding.md R55, R58, R59, and the layouts of R53, R54, R62, R63. -/
theorem test_decode_wire : decodes
    [(⟨.flags, [0x81#8, 0x80#8]⟩, .wireFlags 0x8180),
     (⟨.nameElement, [0b00000000#8]⟩, .wireNameEnd),
     (⟨.nameElement, [0b00111111#8]⟩, .wireNameLabel 63),
     (⟨.nameElement, [0b11000001#8, 0b00000100#8]⟩, .wireNamePointer 260),
     (⟨.nameElement, [0b01000001#8]⟩, .wireNameInvalid01 1),
     (⟨.nameElement, [0b10111111#8]⟩, .wireNameInvalid10 63),
     (⟨.layout, 0x00#8 :: hdr1Bytes⟩, .wireHeader hdr1),
     (⟨.layout, 0x01#8 :: q1Bytes⟩, .wireQuestion q1),
     (⟨.layout, 0x02#8 :: r1Bytes⟩, .wireRecord r1),
     (⟨.layout, 0x03#8 :: m1Bytes⟩, .wireMessage m1)] = true := by decide

/-- The ordinals of 40_enums.md R81, R82 and the codes of 60_exceptions.md R186. -/
theorem test_decode_nibbles : decodes
    [(⟨.opcodeField, [0x00#8]⟩, .opcodeQuery), (⟨.opcodeField, [0x01#8]⟩, .opcodeIquery),
     (⟨.opcodeField, [0x02#8]⟩, .opcodeStatus), (⟨.rcodeField, [0x00#8]⟩, .rcodeNoerror),
     (⟨.rcodeField, [0x01#8]⟩, .rcodeFormerr), (⟨.rcodeField, [0x02#8]⟩, .rcodeServfail),
     (⟨.rcodeField, [0x03#8]⟩, .rcodeNxdomain), (⟨.rcodeField, [0x04#8]⟩, .rcodeNotimp),
     (⟨.rcodeField, [0x05#8]⟩, .rcodeRefused), (⟨.errorCode, [0x01#8]⟩, .errTruncatedMessage),
     (⟨.errorCode, [0x02#8]⟩, .errInvalidLabelEncoding),
     (⟨.errorCode, [0x03#8]⟩, .errPointerLimitExceeded),
     (⟨.errorCode, [0x04#8]⟩, .errUnknownEnumValue)] = true := by decide

/-- The ordinals of 40_enums.md R83, R84. -/
theorem test_decode_types : decodes
    [(⟨.typeField, [0x00#8, 0x01#8]⟩, .typeA), (⟨.typeField, [0x00#8, 0x02#8]⟩, .typeNs),
     (⟨.typeField, [0x00#8, 0x03#8]⟩, .typeMd), (⟨.typeField, [0x00#8, 0x04#8]⟩, .typeMf),
     (⟨.typeField, [0x00#8, 0x05#8]⟩, .typeCname), (⟨.typeField, [0x00#8, 0x06#8]⟩, .typeSoa),
     (⟨.typeField, [0x00#8, 0x07#8]⟩, .typeMb), (⟨.typeField, [0x00#8, 0x08#8]⟩, .typeMg),
     (⟨.typeField, [0x00#8, 0x09#8]⟩, .typeMr), (⟨.typeField, [0x00#8, 0x0A#8]⟩, .typeNull),
     (⟨.typeField, [0x00#8, 0x0B#8]⟩, .typeWks), (⟨.typeField, [0x00#8, 0x0C#8]⟩, .typePtr),
     (⟨.typeField, [0x00#8, 0x0D#8]⟩, .typeHinfo), (⟨.typeField, [0x00#8, 0x0E#8]⟩, .typeMinfo),
     (⟨.typeField, [0x00#8, 0x0F#8]⟩, .typeMx), (⟨.typeField, [0x00#8, 0x10#8]⟩, .typeTxt),
     (⟨.typeField, [0x00#8, 0xFC#8]⟩, .typeAxfr), (⟨.typeField, [0x00#8, 0xFD#8]⟩, .typeMailb),
     (⟨.typeField, [0x00#8, 0xFE#8]⟩, .typeMaila), (⟨.typeField, [0x00#8, 0xFF#8]⟩, .typeAny),
     (⟨.classField, [0x00#8, 0x01#8]⟩, .classIn), (⟨.classField, [0x00#8, 0x02#8]⟩, .classCs),
     (⟨.classField, [0x00#8, 0x03#8]⟩, .classCh), (⟨.classField, [0x00#8, 0x04#8]⟩, .classHs),
     (⟨.classField, [0x00#8, 0xFF#8]⟩, .classAny)] = true := by decide

/-- The transaction is not an instruction. -/
def rejects (ts : List Transaction) : Bool := ts.all fun t => (decode t).toOption == none

/-- Unassigned codes, no bytes, missing, illegal or left-over operand bytes, words that are no row. -/
theorem test_decode_rejects : rejects
    [⟨.command, [0x00#8]⟩, ⟨.command, [0x04#8]⟩, ⟨.command, [0x16#8]⟩, ⟨.command, [0x63#8]⟩,
     ⟨.command, []⟩, ⟨.command, [0x20#8, 0x12#8]⟩, ⟨.command, [0x10#8, 0x00#8]⟩,
     ⟨.command, [0x30#8, 0x10#8]⟩, ⟨.command, [0x31#8, 0x03#8]⟩, ⟨.nameElement, [0xC0#8]⟩,
     ⟨.typeField, [0x00#8, 0x11#8]⟩, ⟨.classField, [0x00#8, 0x06#8]⟩, ⟨.opcodeField, [0x03#8]⟩,
     ⟨.errorCode, [0x00#8]⟩] = true := by decide

/-! ## Steps -/

/-- The buffer of CU1 to CU7. -/
def cu : List Byte := [0x12#8, 0x34#8, 0x56#8, 0x78#8, 0x9A#8, 0xBC#8, 0xDE#8, 0xF0#8, 0xFF#8]

theorem test_readU8_CU1 :
    seen (exec .readU8 (at_ cu 0)) =
    readDone 1 (.u8 0x12) := by decide

theorem test_readU8_end :
    seen (exec .readU8 (at_ cu 9)) =
    readFault 9 .truncatedMessage := by decide

theorem test_readU16_CU2 :
    seen (exec .readU16 (at_ cu 1)) =
    readDone 3 (.u16 0x3456) := by decide

theorem test_readU16_CU13 :
    seen (exec .readU16 (at_ [0xFF#8] 0)) =
    readFault 1 .truncatedMessage := by decide

theorem test_readU32_CU3 :
    seen (exec .readU32 (at_ cu 3)) =
    readDone 7 (.u32 0x789ABCDE) := by decide

theorem test_readU32_CU11 :
    seen (exec .readU32 (at_ [1, 2, 3] 0)) =
    readFault 3 .truncatedMessage := by decide

theorem test_readBytes_CU5 :
    seen (exec (.readBytes 2) (at_ cu 7)) =
    readDone 9 (.bytes [0xF0#8, 0xFF#8]) := by decide

theorem test_readBytes_CU12 :
    seen (exec (.readBytes 5) (at_ [1, 2, 3] 0)) =
    readFault 3 .truncatedMessage := by decide

theorem test_setPosition_CU8 :
    seen (exec (.setPosition 5) (at_ [1, 2, 3, 4, 5] 0)) =
    readDone 5 .none := by decide

theorem test_setPosition_CU9 :
    seen (exec (.setPosition 6) (at_ [1, 2, 3, 4, 5] 0)) =
    readFault 0 .truncatedMessage := by decide

/-- NM10: labels, then a pointer to a name; the name begins at 25. -/
def nm10 : List Byte :=
  List.replicate 12 0x00#8 ++ [0x07, 0x65, 0x78, 0x61, 0x6D, 0x70, 0x6C, 0x65] ++
    [0x03, 0x63, 0x6F, 0x6D, 0x00, 0x03, 0x77, 0x77, 0x77, 0xC0, 0x0C, 0xFF]

/-- NM10, and NM24: the sixth pointer is over the limit whatever its target. -/
theorem test_readName :
    seen (exec .readName (at_ nm10 25)) =
      readDone 31 (.name [0x77, 0x77, 0x77, 0x2E, 0x65, 0x78, 0x61, 0x6D, 0x70, 0x6C, 0x65, 0x2E, 0x63, 0x6F,
      0x6D]) ∧
    seen (exec .readName (at_ [0xC0, 0x02, 0xC0, 0x04, 0xC0, 0x06, 0xC0, 0x08, 0xC0, 0x0A, 0xFF, 0xFF] 0)) =
      readFault 2 .pointerLimitExceeded := by decide +kernel

/-- P3: the gate answers with the recorded fault and nothing moves. -/
theorem test_gate_P3 : seen (exec (.setPosition 0)
    { at_ [0x00#8] 1 with rstatus := .fault .pointerLimitExceeded }) =
    readFault 1 .pointerLimitExceeded := by decide

theorem test_reset_P1 :
    seen (exec .reset { at_ cu 3 with tx := [1], rstatus := .fault .truncatedMessage }) =
    answers (.done .none) [] := by decide

theorem test_loadRx_P3 :
    seen (exec (.loadRx [0xAB#8, 0xCD#8]) { at_ cu 3 with tx := [1], rstatus := .fault .truncatedMessage }) =
    answers (.done .none) [1] :=
  congrArg seen (execLoadRx_of_le (Nat.le_trans (m := 512) (by decide) Config.bufCap_ge) _)

theorem test_clearTx_P1 :
    seen (exec .clearTx { State.reset with tx := [1, 2] }) =
    answers (.done .none) [] := by decide

theorem test_writeU16_WR1 :
    seen (exec (.writeU16 0x1234) { State.reset with tx := [7] }) =
    answers (.done .none) [7, 0x12#8, 0x34#8] := by decide

theorem test_writeU32_WR1 :
    seen (exec (.writeU32 0xDEADBEEF) State.reset) =
    answers (.done .none) [0xDE, 0xAD, 0xBE, 0xEF] := by decide

theorem test_writeName_WR8 :
    seen (exec (.writeName [0x61, 0x2E, 0x2E, 0x62]) State.reset) =
    answers (.done .none) [0x01, 0x61, 0x00, 0x01, 0x62, 0x00] := by decide

set_option maxRecDepth 4000 in
theorem test_writeName_WR13 :
    seen (exec (.writeName (List.replicate 256 0x79#8)) State.reset) =
    answers .refused [] := by decide

theorem test_opcodeFrom_EN2 :
    seen (exec (.opcodeFrom 2) State.reset) =
    answers (.done (.opcode .status)) [] := by decide

theorem test_opcodeFrom_EN3 :
    seen (exec (.opcodeFrom 3) State.reset) =
    answers (.fault (.unknownEnumValue .opcode 3)) [] := by decide

theorem test_opcodeTo_EN12 :
    seen (exec (.opcodeTo .status) State.reset) =
    answers (.done (.ordinal4 2)) [] := by decide

theorem test_rcodeFrom_EN11 :
    seen (exec (.rcodeFrom 5) State.reset) =
    answers (.done (.rcode .refused)) [] := by decide

theorem test_rcodeFrom_EN11b :
    seen (exec (.rcodeFrom 6) State.reset) =
    answers (.fault (.unknownEnumValue .rcode 6)) [] := by decide

theorem test_rcodeTo_EN12 :
    seen (exec (.rcodeTo .nxdomain) State.reset) =
    answers (.done (.ordinal4 3)) [] := by decide

theorem test_typeFrom_EN7 :
    seen (exec (.typeFrom 252) State.reset) =
    answers (.done (.type .axfr)) [] := by decide

theorem test_typeFrom_EN7b :
    seen (exec (.typeFrom 257) State.reset) =
    answers (.fault (.unknownEnumValue .type 257)) [] := by decide

theorem test_typeTo_EN12 :
    seen (exec (.typeTo .maila) State.reset) =
    answers (.done (.ordinal16 254)) [] := by decide

theorem test_classFrom_EN10 :
    seen (exec (.classFrom 255) State.reset) =
    answers (.done (.cls .any)) [] := by decide

theorem test_classFrom_EN9 :
    seen (exec (.classFrom 6) State.reset) =
    answers (.fault (.unknownEnumValue .cls 6)) [] := by decide

theorem test_classTo_EN12 :
    seen (exec (.classTo .hs) State.reset) =
    answers (.done (.ordinal16 4)) [] := by decide

/-- The fields of HD1. -/
def hd1 : Header :=
  { id := 0xBEEF, qr := true, opcode := .status, aa := true, tc := false, rd := true, ra := true,
    z := 5, rcode := .refused, qdcount := 1, ancount := 2, nscount := 3, arcount := 4 }

/-- The 12 bytes of HD1. -/
def hd1Bytes : List Byte := [0xBE, 0xEF, 0x95, 0xD5, 0x00, 0x01, 0x00, 0x02, 0x00, 0x03, 0x00, 0x04]

theorem test_hdrEnc_HD1 :
    seen (exec (.hdrEnc hd1) State.reset) =
    answers (.done .none) hd1Bytes := by decide

theorem test_hdrDec_HD1 :
    seen (exec .hdrDec (at_ hd1Bytes 0)) =
    readDone 12 (.header hd1) := by decide

theorem test_hdrDec_HD26 :
    seen (exec .hdrDec (at_ [0x00, 0x00, 0x99, 0x85, 0x00, 0x00, 0x00, 0x00, 0x00, 0x00, 0x00, 0x00] 0)) =
    readFault 4 (.unknownEnumValue .opcode 3) := by decide

theorem test_qEnc_QU2b :
    seen (exec (.qEnc ⟨[0x78, 0x2E, 0x79], .mx, .ch⟩) State.reset) =
    answers (.done .none) [0x01, 0x78, 0x01, 0x79, 0x00, 0x00, 0x0F, 0x00, 0x03] := by decide

theorem test_qDec_QU9 :
    seen (exec .qDec (at_ [0x00, 0x00, 0xFF, 0x00, 0xFF] 0)) =
    readDone 5 (.question ⟨[], .any, .any⟩) := by decide

theorem test_qDec_QU5 :
    seen (exec .qDec (at_ [0x01, 0x61, 0x00, 0x00, 0x00, 0x00, 0x06] 0)) =
    readFault 5 (.unknownEnumValue .type 0) := by decide

theorem test_rrEnc_RR3 :
    seen (exec (.rrEnc ⟨[0x61, 0x2E, 0x62], .null, .hs, 0x80000000, 3, [0x00, 0xC0, 0x0C]⟩) State.reset) =
    answers (.done .none) ([0x01, 0x61, 0x01, 0x62, 0x00, 0x00, 0x0A, 0x00, 0x04] ++
      [0x80, 0x00, 0x00, 0x00, 0x00, 0x03, 0x00, 0xC0, 0x0C]) := by decide

theorem test_rrEnc_RR4 :
    seen (exec (.rrEnc ⟨[0x61#8], .a, .inet, 1, 4, [1, 2, 3]⟩) State.reset) =
    answers .refused [] := by decide

theorem test_rrDec_RR12 :
    seen (exec .rrDec (at_ [0x00, 0x00, 0xFF, 0x00, 0xFF, 0x00, 0x00, 0x00, 0x01, 0x00, 0x01, 0xC0] 0)) =
    readDone 12 (.record ⟨[], .any, .any, 1, 1, [0xC0#8]⟩) := by decide +kernel

theorem test_rrDec_RR13 :
    seen (exec .rrDec (at_ [0x00, 0x00, 0x29, 0x10, 0x00, 0x00, 0x00, 0x00, 0x00, 0x00, 0x00] 0)) =
    readFault 3 (.unknownEnumValue .type 41) := by decide

/-- The name "example.com". -/
def exampleCom : Name := [0x65, 0x78, 0x61, 0x6D, 0x70, 0x6C, 0x65, 0x2E, 0x63, 0x6F, 0x6D]

/-- The question of P1. -/
def p1q : Question := ⟨exampleCom, .a, .inet⟩

/-- The message of P1. -/
def p1m : Message :=
  { hdr := { id := 0x1234, qr := false, opcode := .query, aa := false, tc := false, rd := true,
             ra := false, z := 0, rcode := .noerror, qdcount := 1, ancount := 0, nscount := 0,
             arcount := 0 }
    qd := [p1q], an := [], ns := [], ar := [] }

/-- The 29 bytes of P1. -/
def p1 : List Byte :=
  [0x12, 0x34, 0x01, 0x00, 0x00, 0x01, 0x00, 0x00, 0x00, 0x00, 0x00, 0x00] ++
  [0x07, 0x65, 0x78, 0x61, 0x6D, 0x70, 0x6C, 0x65, 0x03, 0x63, 0x6F, 0x6D, 0x00] ++ [0x00, 0x01, 0x00, 0x01]

theorem test_buildRequest_P1 :
    seen (exec (.buildRequest 0x1234 p1q) State.reset) =
    answers (.done (.message p1m)) [] := by decide

theorem test_msgEnc_P1 :
    seen (exec (.msgEnc p1m) State.reset) =
    answers (.done .none) p1 := by decide

/-- P1, and MS10: a question name that is a pointer to itself. -/
theorem test_msgDec :
    seen (exec .msgDec (at_ p1 0)) =
      readDone 29 (.message p1m) ∧
    seen (exec .msgDec (at_ ([0x00, 0x01, 0x01, 0x00, 0x00, 0x01, 0x00, 0x00, 0x00, 0x00, 0x00, 0x00] ++
      [0xC0, 0x0C, 0x00, 0x01, 0x00, 0x01]) 0)) =
      readFault 14 .pointerLimitExceeded := by decide +kernel

theorem test_serialize_P1 :
    seen (exec (.serialize p1m) { State.reset with tx := [1, 2] }) =
    answers (.done (.bytes p1)) p1 := by decide

/-- MS3: bytes after the message are not looked at; MS5: a prefix is truncated. -/
theorem test_deserialize :
    seen (exec (.deserialize (p1 ++ [0xDE#8, 0xAD#8])) State.reset) =
      readDone 29 (.message p1m) ∧
    seen (exec (.deserialize (p1.take 28)) State.reset) =
      readFault 28 .truncatedMessage := by decide +kernel

/-- HD16's flags word, 0x8180: QR, RD, RA. -/
theorem test_wireFlags_HD16 : seen (exec (.wireFlags 0x8180) State.reset) =
    answers (.done (.flags ⟨true, .query, false, false, true, true, 0, .noerror⟩)) [] := by decide

/-- NM26: the six bits of a pointer are the high part of its offset. -/
theorem test_pointer_NM26 : seen (exec (.wireNamePointer 0x0104) State.reset) =
    answers (.done (.element (.pointer 260))) [] := by decide

/-- Rows of each kind: members, an error code, name elements, a layout (HD1). -/
theorem test_rows :
    seen (exec .opcodeStatus State.reset) = answers (.done (.opcode .status)) [] ∧
    seen (exec .rcodeNxdomain State.reset) = answers (.done (.rcode .nxdomain)) [] ∧
    seen (exec .typeMaila State.reset) = answers (.done (.type .maila)) [] ∧
    seen (exec .classAny State.reset) = answers (.done (.cls .any)) [] ∧
    seen (exec .errUnknownEnumValue State.reset) = answers (.done (.kind .unknownEnumValue)) [] ∧
    seen (exec (.wireNameLabel 63) State.reset) = answers (.done (.element (.label 63))) [] ∧
    seen (exec (.wireNameInvalid01 1) State.reset) = answers (.fault .invalidLabelEncoding) [] ∧
    seen (exec (.wireNameInvalid10 63) State.reset) = answers (.fault .invalidLabelEncoding) [] ∧
    seen (exec (.wireHeader hd1) State.reset) = answers (.done (.bytes hd1Bytes)) [] :=
  ⟨rfl, rfl, rfl, rfl, rfl, rfl, rfl, rfl, rfl⟩

/-- A code outside 30_encoding.md R52 is refused (R51). -/
theorem test_step_unassigned :
    seen (step { State.reset with host := [⟨.command, [0x04#8, 0x00#8]⟩] }) = answers .refused [] := by
  decide

/-- An opcode-table word runs as the first instruction after reset. -/
theorem test_step_word : seen (step (State.reset.withFetchWord 8 0x20)) =
    answers (.done .none) [0x00#8, 0x00#8] := by decide

theorem test_table_words : decodeTableWord 8 0x15 = some .readName ∧
    decodeTableWord 16 0xC000 = some (.wireNamePointer 0) ∧
    decodeTableWord 8 0x80 = some (.wireNameInvalid10 0) := by decide
/-! ## Witnesses: states that meet the statements' hypotheses

Each is named after its statement. A clause with a bound has its witness at the bound. -/

/-- What a test has seen of a step is a next state with that answer. -/
theorem seen_next {o : Host.Outcome State Fault Refusal} {a : Option Response}
    {rest : Nat × RStatus × List Byte} (h : seen o = some (a, rest)) :
    ∃ t, o = .next t ∧ t.answer = a := by
  cases o with
  | next t => exact ⟨t, rfl, congrArg Prod.fst (Option.some.inj h)⟩
  | fault f => cases f
  | refused r => cases h

theorem inv_at {bs : List Byte} {p : Nat} (h : bs.length ≤ 512) (hp : p ≤ bs.length) :
    (at_ bs p).Inv where
  pos := hp
  cap := h.trans Config.bufCap_ge
  hops := rfl
  saved := rfl
  wf := ⟨Memory.wf_writeBytes bs rfl 0,
    Memory.all_writeBytes bs (m := []) rfl
      (((Nat.zero_add _).trans_le h).trans Config.bufCap_ge)⟩
  filled := fun a ha => by
    have ha : a < bs.length := ha
    have := Memory.read_writeBytes bs [] 0 a
    simp only [Nat.zero_add, if_pos ha] at this
    show (Memory.read (Memory.writeBytes [] 0 bs) a).isSome
    simp [this, ha]
  status := trivial

/-- The bytes `w` stand in `bs` at `p`, as a check. -/
def stands (bs : List Byte) (p : Nat) (w : List Byte) : Bool :=
  bs == bs.take p ++ (w ++ bs.drop (p + w.length)) && (bs.take p).length == p

theorem bytes_at {bs : List Byte} {p : Nat} {w : List Byte} (q : Nat) (h : stands bs p w = true) :
    BytesAt (at_ bs q).buf p w := by
  simp only [stands, Bool.and_eq_true, beq_iff_eq] at h
  have hb := bytesAt_loaded State.reset bs (at_ bs q) rfl rfl
  generalize (at_ bs q).buf = b at hb ⊢
  rw [h.1, BytesAt.append, BytesAt.append, Nat.zero_add, h.2] at hb
  exact hb.2.1

theorem byte_at {bs : List Byte} {p : Nat} {v : Byte} (q : Nat) (h : stands bs p [v] = true) :
    ByteAt (at_ bs q).buf p v := (bytes_at q h).1

theorem u16_at {bs : List Byte} {p : Nat} (v : Word16) (q : Nat) (h : stands bs p (be16 v) = true) :
    U16At (at_ bs q).buf p v := u16At_of_be16 (bytes_at q h)

theorem u32_at {bs : List Byte} {p : Nat} (v : Word32) (q : Nat) (h : stands bs p (be32 v) = true) :
    U32At (at_ bs q).buf p v := u32At_of_be32 (bytes_at q h)

/-- A state that stands ready: it meets the invariants and its read side is not faulted. -/
def Ready (s : State) : Prop := s.Inv ∧ s.rstatus = .ok

theorem ready_at {bs : List Byte} {p : Nat} (h : bs.length ≤ 512) (hp : p ≤ bs.length) :
    Ready (at_ bs p) := ⟨inv_at h hp, rfl⟩

theorem witness_ResetOperationSetsTheStatedRegisters :
    CommandCode .reset 0x01#8 ∧ ∃ t, exec .reset (at_ cu 3) = .next t := ⟨⟨[], rfl⟩, _, rfl⟩

theorem witness_AfterResetEveryReadFaultsAndTheRestWorks :
    (readSideOp .readU8 = true ∧ Instr.readU8 ≠ .readBytes 0 ∧ Instr.readU8 ≠ .setPosition 0) ∧
    (readSideOp (.readBytes 1) = true ∧ Instr.readBytes 1 ≠ .readBytes 0) ∧
    (readSideOp (.setPosition 1) = true ∧ Instr.setPosition 1 ≠ .setPosition 0) ∧
    (writeSideOp (.writeU16 0) = true ∧ ¬ Refusable (.writeU16 0)) ∧
    pureOp (.opcodeFrom 3) = true :=
  ⟨⟨rfl, nofun, nofun⟩, ⟨rfl, fun h => absurd (Instr.readBytes.inj h) (by decide)⟩,
    ⟨rfl, fun h => absurd (Instr.setPosition.inj h) (by decide)⟩, ⟨rfl, id⟩, rfl⟩

theorem witness_EveryStepKeepsTheInvariants : ∃ s t : State, s.Inv ∧ step s = .next t ∧ t.rpos = 9 :=
  ⟨{ at_ cu 8 with host := [⟨.command, [0x10#8]⟩] }, _, (inv_at (by decide) (by decide)).withHost _,
    rfl, rfl⟩

theorem witness_LoadRxInstallsTheBufferOrIsRefused :
    Config.bufCap < (List.replicate (Config.bufCap + 1) (0#8)).length ∧
    (List.replicate Config.bufCap (0#8)).length ≤ Config.bufCap ∧
    (List.replicate 512 (0#8)).length ≤ Config.bufCap := by
  simp only [List.length_replicate]
  exact ⟨Nat.lt_add_one _, Nat.le_refl _, Config.bufCap_ge⟩

theorem witness_BytesBeyondSizeAreHidden : ∃ s s' : State, SameBelowSize s s' ∧ s ≠ s' := by
  refine ⟨at_ [1#8] 0, { at_ [1#8] 0 with rx := [(0, 1#8), (1, 9#8)] }, ⟨?_, rfl⟩,
    fun h => absurd (congrArg State.rx h) (by decide)⟩
  intro a ha
  obtain rfl : a = 0 := Nat.lt_one_iff.1 ha
  rfl

theorem witness_OnlyLoadsChangeRxAndOnlyWritesChangeTx :
    Instr.readU8 ≠ .reset ∧ (∀ data, Instr.readU8 ≠ .loadRx data) ∧
    (∀ data, Instr.readU8 ≠ .deserialize data) ∧ writeSideOp .readU8 = false ∧
    Instr.readU8 ≠ .clearTx ∧ ∀ m, Instr.readU8 ≠ .serialize m :=
  have no : ∀ i, readSideOp i = false → Instr.readU8 ≠ i := fun i h e => by rw [← e] at h; cases h
  ⟨no _ rfl, fun _ => no _ rfl, fun _ => no _ rfl, rfl, no _ rfl, fun _ => no _ rfl⟩

theorem witness_ReadSideGateAnswersOrRecords : readSideOp .msgDec = true ∧ Ready (at_ cu 9) ∧
    { at_ cu 9 with rstatus := .fault .truncatedMessage }.rstatus = .fault .truncatedMessage :=
  ⟨rfl, ready_at (by decide) (by decide), rfl⟩

theorem witness_FaultRecordIsStickyForReadsOnly :
    { at_ cu 9 with rstatus := .fault .truncatedMessage }.rstatus = .fault .truncatedMessage ∧
    Instr.readName ≠ .reset ∧ (∀ data, Instr.readName ≠ .loadRx data) ∧
    (∀ data, Instr.readName ≠ .deserialize data) ∧ readSideOp .readName = true ∧
    writeSideOp (.writeU16 0) = true ∧ pureOp (.typeFrom 1) = true :=
  have no : ∀ i, readSideOp i = false → Instr.readName ≠ i := fun i h e => by rw [← e] at h; cases h
  ⟨rfl, no _ rfl, fun _ => no _ rfl, fun _ => no _ rfl, rfl, rfl, rfl⟩

theorem witness_ReadU8TakesTheNextByte : (Ready (at_ cu 8) ∧ (at_ cu 8).rpos < (at_ cu 8).size) ∧
    Ready (at_ cu 9) ∧ (at_ cu 9).rpos = (at_ cu 9).size :=
  ⟨⟨ready_at (by decide) (by decide), by decide⟩, ready_at (by decide) (by decide), rfl⟩

theorem witness_ReadU16IsBigEndian : (Ready (at_ cu 7) ∧ (at_ cu 7).rpos + 2 = (at_ cu 7).size) ∧
    Ready (at_ cu 8) ∧ (at_ cu 8).size < (at_ cu 8).rpos + 2 :=
  ⟨⟨ready_at (by decide) (by decide), rfl⟩, ready_at (by decide) (by decide), by decide⟩

theorem witness_ReadU32IsBigEndian : (Ready (at_ cu 5) ∧ (at_ cu 5).rpos + 4 = (at_ cu 5).size) ∧
    Ready (at_ cu 6) ∧ (at_ cu 6).size < (at_ cu 6).rpos + 4 :=
  ⟨⟨ready_at (by decide) (by decide), rfl⟩, ready_at (by decide) (by decide), by decide⟩

theorem witness_ReadBytesIsAllOrNothing : Ready (at_ cu 7) ∧
    (2#16).toNat = (at_ cu 7).size - (at_ cu 7).rpos ∧
    (at_ cu 7).size - (at_ cu 7).rpos < (3#16).toNat :=
  ⟨ready_at (by decide) (by decide), by decide, by decide⟩

theorem witness_SetPositionIsBoundedBySize :
    (at_ cu 0).rstatus = .ok ∧ 9 ≤ (at_ cu 0).size ∧ (at_ cu 0).size < 10 := by decide

theorem nm10_labels : LabelsAt (at_ nm10 25).buf 25 [[0x77#8, 0x77#8, 0x77#8]] 29 :=
  .cons 25 29 0x03#8 _ [] (byte_at 25 (by decide)) (by decide) (by decide) rfl
    (bytes_at 25 (by decide)) (.nil 29)

theorem nm10_pointer : PointerAt (at_ nm10 25).buf 29 12 :=
  ⟨0xC0#8, 0x0C#8, byte_at 25 (by decide), byte_at 25 (by decide), by decide, rfl⟩

theorem nm10_target : LabelsAt (at_ nm10 25).buf 12
    [[0x65#8, 0x78#8, 0x61#8, 0x6D#8, 0x70#8, 0x6C#8, 0x65#8], [0x63#8, 0x6F#8, 0x6D#8]] 24 :=
  .cons 12 24 0x07#8 _ _ (byte_at 25 (by decide)) (by decide) (by decide) rfl
    (bytes_at 25 (by decide))
    (.cons 20 24 0x03#8 _ [] (byte_at 25 (by decide)) (by decide) (by decide) rfl
      (bytes_at 25 (by decide)) (.nil 24))

theorem nm10_name : NameAt (at_ nm10 25).buf 0 25
    [[0x77#8, 0x77#8, 0x77#8], [0x65#8, 0x78#8, 0x61#8, 0x6D#8, 0x70#8, 0x6C#8, 0x65#8],
      [0x63#8, 0x6F#8, 0x6D#8]] 31 :=
  .points 0 25 29 12 25 _ _ nm10_labels nm10_pointer (by decide) (by decide)
    (.ends 1 12 24 _ nm10_target (byte_at 25 (by decide)))

theorem witness_ReadNameDecodesExactlyWhatStands : Ready (at_ nm10 25) ∧
    (∃ labels e, NameAt (at_ nm10 25).buf 0 25 labels e) ∧
    ∃ t r, exec .readName (at_ [0x00#8] 0) = .next t ∧ t.answer = some (.done r) :=
  ⟨ready_at (by decide) (by decide), ⟨_, _, nm10_name⟩, _, _, rfl, rfl⟩

theorem witness_PointerRestoresTheCursorOnEveryPath : Ready (at_ nm10 25) ∧
    ∃ labels q off, LabelsAt (at_ nm10 25).buf 25 labels q ∧ PointerAt (at_ nm10 25).buf q off :=
  ⟨ready_at (by decide) (by decide), _, _, _, nm10_labels, nm10_pointer⟩

/-- A chain of `n` pointers, each to the one after it, then `rest` at address `2 n`. -/
def chain (n : Nat) (rest : List Byte) : List Byte :=
  ((List.range n).flatMap fun k => [0xC0#8, BitVec.ofNat 8 (2 * k + 2)]) ++ rest

theorem chain_reaches (x y : Byte) : Reaches (at_ (chain 5 [x, y]) 0).buf 0 5 10 := by
  have hp : ∀ k, k < 5 → PointerAt (at_ (chain 5 [x, y]) 0).buf (2 * k) (2 * k + 2) := by
    intro k hk
    interval_cases k <;>
      exact ⟨0xC0#8, _, ⟨Nat.lt_of_sub_eq_succ rfl, rfl⟩, ⟨Nat.lt_of_sub_eq_succ rfl, rfl⟩, by decide, rfl⟩
  have hj : ∀ p h r, PointerAt (at_ (chain 5 [x, y]) 0).buf p (p + 2) → p + 2 ≤ 12 →
      Reaches (at_ (chain 5 [x, y]) 0).buf (p + 2) h r →
      Reaches (at_ (chain 5 [x, y]) 0).buf p (h + 1) r :=
    fun p h r hp hs hr => .jump p p (p + 2) h r [] (.nil p) hp hs hr
  exact hj 0 4 10 (hp 0 (by decide)) (by decide) (hj 2 3 10 (hp 1 (by decide)) (by decide)
    (hj 4 2 10 (hp 2 (by decide)) (by decide) (hj 6 1 10 (hp 3 (by decide)) (by decide)
      (hj 8 0 10 (hp 4 (by decide)) (by decide) (.here 10 10 [] (.nil 10))))))

/-- NM24: the sixth pointer of a chain. -/
theorem witness_SixthPointerExceedsTheLimit : Ready (at_ (chain 5 [0xFF#8, 0xFF#8]) 0) ∧
    ∃ q off, Reaches (at_ (chain 5 [0xFF#8, 0xFF#8]) 0).buf 0 5 q ∧
      PointerAt (at_ (chain 5 [0xFF#8, 0xFF#8]) 0).buf q off :=
  ⟨ready_at (by decide) (by decide), 10, _, chain_reaches _ _, 0xFF#8, 0xFF#8,
    ⟨by decide, rfl⟩, ⟨by decide, rfl⟩, by decide, rfl⟩

theorem witness_UndefinedLengthByteIsInvalid :
    (Ready (at_ (chain 5 [0xBF#8, 0x00#8]) 0) ∧ Reaches (at_ (chain 5 [0xBF#8, 0x00#8]) 0).buf 0 5 10 ∧
      ByteAt (at_ (chain 5 [0xBF#8, 0x00#8]) 0).buf 10 0xBF#8 ∧ (0xBF#8).toNat = 191) ∧
    Ready (at_ [0x40#8] 0) ∧ Reaches (at_ [0x40#8] 0).buf 0 0 0 ∧ ByteAt (at_ [0x40#8] 0).buf 0 0x40#8 ∧
      (0x40#8).toNat = 64 :=
  ⟨⟨ready_at (by decide) (by decide), chain_reaches _ _, ⟨by decide, rfl⟩, rfl⟩,
    ready_at (by decide) (by decide), .here 0 0 [] (.nil 0), ⟨by decide, rfl⟩, rfl⟩

/-- A label cut off after five pointers, a bare end of the buffer, a pointer's second byte missing
(NM8), and a pointer one above SIZE (NM16). -/
theorem witness_CutOffNameIsTruncated :
    (Ready (at_ (chain 5 [0x02#8, 0x61#8]) 0) ∧ Reaches (at_ (chain 5 [0x02#8, 0x61#8]) 0).buf 0 5 10 ∧
      CutOffAt (at_ (chain 5 [0x02#8, 0x61#8]) 0).buf 10) ∧
    (Ready (at_ [] 0) ∧ Reaches (at_ [] 0).buf 0 0 0 ∧ CutOffAt (at_ [] 0).buf 0) ∧
    (Ready (at_ [0xC0#8] 0) ∧ Reaches (at_ [0xC0#8] 0).buf 0 0 0 ∧ CutOffAt (at_ [0xC0#8] 0).buf 0) ∧
    Ready (at_ [0xC0#8, 0x03#8] 0) ∧ Reaches (at_ [0xC0#8, 0x03#8] 0).buf 0 0 0 ∧
      PointerAt (at_ [0xC0#8, 0x03#8] 0).buf 0 3 ∧ (at_ [0xC0#8, 0x03#8] 0).size < 3 := by
  refine ⟨⟨ready_at (by decide) (by decide), chain_reaches _ _, .inr (.inl ?_)⟩,
    ⟨ready_at (by decide) (by decide), .here 0 0 [] (.nil 0), .inl (by decide)⟩,
    ⟨ready_at (by decide) (by decide), .here 0 0 [] (.nil 0), .inr (.inr ?_)⟩,
    ready_at (by decide) (by decide), .here 0 0 [] (.nil 0), ?_, by decide⟩
  · exact ⟨0x02#8, ⟨by decide, rfl⟩, by decide, by decide, by decide⟩
  · exact ⟨0xC0#8, ⟨by decide, rfl⟩, by decide, by decide⟩
  · exact ⟨0xC0#8, 0x03#8, ⟨by decide, rfl⟩, ⟨by decide, rfl⟩, by decide, rfl⟩

theorem witness_DecodedNameIsBounded : Ready (at_ nm10 25) ∧
    ∃ t n, exec .readName (at_ nm10 25) = .next t ∧ t.answer = some (.done (.name n)) :=
  ⟨ready_at (by decide) (by decide), (seen_next test_readName.1).imp fun _ h => ⟨_, h⟩⟩

/-- S3. -/
theorem witness_PointerToExampleReadsExample :
    let bs := List.replicate 12 0x00#8 ++
      [0x07#8, 0x65#8, 0x78#8, 0x61#8, 0x6D#8, 0x70#8, 0x6C#8, 0x65#8, 0x00#8, 0xC0#8, 0x0C#8]
    Ready (at_ bs 21) ∧ PointerAt (at_ bs 21).buf 21 12 ∧ BytesAt (at_ bs 21).buf 12
      [0x07#8, 0x65#8, 0x78#8, 0x61#8, 0x6D#8, 0x70#8, 0x6C#8, 0x65#8, 0x00#8] :=
  ⟨ready_at (by decide) (by decide), ⟨0xC0#8, 0x0C#8, byte_at 21 (by decide), byte_at 21 (by decide),
    by decide, rfl⟩, bytes_at 21 (by decide)⟩

theorem witness_WriteSideAppendsAllOrNothing :
    writeSideOp (.msgEnc p1m) = true ∧ readSideOp .readName = true := ⟨rfl, rfl⟩

theorem split_replicate (n : Nat) : split dot (List.replicate n 0x79#8) = [List.replicate n 0x79#8] := by
  induction n with
  | zero => rfl
  | succ n ih => rw [List.replicate_succ, split, if_neg (by decide), ih]

theorem tooLong_256 : TooLong (List.replicate 256 0x79#8) :=
  ⟨_, by rw [split_replicate]; exact List.mem_singleton.2 rfl, by rw [List.length_replicate]; decide⟩

theorem not_tooLong_255 : ¬ TooLong (List.replicate 255 0x79#8) := by
  rintro ⟨seg, hs, hl⟩
  rw [split_replicate] at hs
  rw [List.mem_singleton.1 hs, List.length_replicate] at hl
  exact absurd hl (by decide)

theorem witness_WriteNameAppendsItsSegments :
    (∃ n, TooLong n ∧ n.length = 256) ∧ ∃ n, ¬ TooLong n ∧ n.length = 255 :=
  ⟨⟨_, tooLong_256, List.length_replicate⟩, _, not_tooLong_255, List.length_replicate⟩

/-- `a..b`, whose segments before the empty one are `a`; 63 codes before it; and the table's rows. -/
theorem witness_EmptySegmentsReadBackAsTheEnd :
    (split dot [0x61#8, dot, dot, 0x62#8] = [[0x61#8]] ++ [] :: [[0x62#8]] ∧
      (∀ seg ∈ [[0x61#8]], 1 ≤ seg.length ∧ seg.length ≤ 63) ∧ ¬ TooLong [0x61#8, dot, dot, 0x62#8]) ∧
    (∀ seg ∈ [List.replicate 63 0x79#8], 1 ≤ seg.length ∧ seg.length ≤ 63) ∧
    ∀ w ∈ [[0x00#8, 0x00#8], [0x01#8, 0x61#8, 0x00#8, 0x00#8], [0x00#8, 0x01#8, 0x61#8, 0x00#8],
        [0x01#8, 0x61#8, 0x00#8, 0x01#8, 0x62#8, 0x00#8]],
      Ready (at_ w 0) ∧ BytesAt (at_ w 0).buf 0 w := by
  refine ⟨⟨by decide, by decide, nameWritable_iff.1 (by decide)⟩, by decide, fun w hw => ?_⟩
  have hl : w.length ≤ 512 := by
    revert w; decide
  exact ⟨ready_at hl (Nat.zero_le _), bytesAt_loaded State.reset w _ rfl rfl⟩

theorem witness_ValidNameRoundTrips : validName (List.replicate 63 0x78#8) = true ∧
    Ready (at_ ([0x01#8, 0x78#8, 0x00#8]) 0) ∧ validName [0x78#8] = true ∧
    Appends (.writeName [0x78#8]) [0x01#8, 0x78#8, 0x00#8] ∧
    BytesAt (at_ ([0x01#8, 0x78#8, 0x00#8]) 0).buf 0 [0x01#8, 0x78#8, 0x00#8] :=
  ⟨by decide, ready_at (by decide) (by decide), by decide, fun _ => rfl, bytes_at 0 (by decide)⟩

theorem witness_ConversionsFollowTheTables :
    (3#4).toNat = 3 ∧ (6#4).toNat = 6 ∧ (0#16).toNat = 0 ∧ 17 = (17#16).toNat ∧ (251#16).toNat = 251 ∧
    256 = (256#16).toNat ∧ 5 = (5#16).toNat ∧ (254#16).toNat = 254 := by decide

theorem witness_ConversionsInvertEachOther :
    (∀ m, m ∈ RClass.all) ∧ (∀ m m', classTab m = classTab m' → m = m') ∧
    enumFrom RClass.all classTab 255 = some .any ∧
    exec (.classTo .any) State.reset = .next (State.reset.answered (.done (.ordinal16 255))) := by
  refine ⟨fun m => by cases m <;> decide, fun m m' => ?_, by decide, rfl⟩
  cases m <;> cases m' <;> decide

/-- Sizes 3, 4, 11 and 12 beyond the cursor, and the first bad ordinals 3 and 6. -/
theorem witness_HeaderDecodeChecksInOrder :
    (Ready (at_ [0, 0, 0] 0) ∧ (at_ [0, 0, 0] 0).size < 0 + 4) ∧
    (Ready (at_ [0, 0, 0x18#8, 0] 0) ∧ U16At (at_ [0, 0, 0x18#8, 0] 0).buf 2 0x1800#16 ∧
      ((0x1800#16).extractLsb' 11 4).toNat = 3) ∧
    (Ready (at_ [0, 0, 0, 0x06#8] 0) ∧ U16At (at_ [0, 0, 0, 0x06#8] 0).buf 2 0x0006#16 ∧
      ((0x0006#16).extractLsb' 11 4).toNat < 3 ∧ ((0x0006#16).extractLsb' 0 4).toNat = 6) ∧
    (Ready (at_ (List.replicate 11 0) 0) ∧ (at_ (List.replicate 11 0) 0).size < 0 + 12 ∧
      U16At (at_ (List.replicate 11 0) 0).buf 2 0 ∧ ((0#16).extractLsb' 0 4).toNat < 6) ∧
    Ready (at_ hd1Bytes 0) ∧ 0 + 12 = (at_ hd1Bytes 0).size :=
  ⟨⟨ready_at (by decide) (by decide), by decide⟩,
    ⟨ready_at (by decide) (by decide), u16_at _ 0 (by decide), by decide⟩,
    ⟨ready_at (by decide) (by decide), u16_at _ 0 (by decide), by decide, by decide⟩,
    ⟨ready_at (by decide) (by decide), by decide, u16_at _ 0 (by decide), by decide⟩,
    ready_at (by decide) (by decide), by decide⟩

theorem witness_HeaderRoundTripsBothWays : Ready (at_ hd1Bytes 0) ∧ Appends (.hdrEnc hd1) hd1Bytes ∧
    BytesAt (at_ hd1Bytes 0).buf 0 hd1Bytes ∧ hd1Bytes.length = 12 ∧
    ∃ t h, exec .hdrDec (at_ hd1Bytes 0) = .next t ∧ t.answer = some (.done (.header h)) :=
  ⟨ready_at (by decide) (by decide), fun s => congrArg (fun w => Host.Outcome.next (s.wrote w))
    (by decide : wireHeader hd1 = hd1Bytes), bytes_at 0 (by decide), rfl, _, _, rfl, rfl⟩

theorem witness_QuestionEncodesItsParts : (∃ q : Question, TooLong q.qname) ∧
    ∃ q : Question, ¬ TooLong q.qname :=
  ⟨⟨⟨_, .a, .inet⟩, tooLong_256⟩, ⟨_, .a, .inet⟩, not_tooLong_255⟩

/-- The name of a buffer that begins with the root's terminator. -/
theorem root_name (rest : List Byte) : NameAt (at_ (0x00#8 :: rest) 0).buf 0 0 [] 1 :=
  .ends 0 0 0 [] (.nil 0) (byte_at 0 (by simp [stands]))

/-- QU14, and the root's name followed by: 1 byte, type 0, 3 bytes, class 6, a whole question. -/
theorem witness_QuestionDecodesInOrder :
    (∃ p f, exec .readName (at_ [0x40#8] 0) = .next ((at_ [0x40#8] 0).faultAt p f)) ∧
    (NameAt (at_ [0x00#8, 0x00#8] 0).buf 0 0 [] 1 ∧ (at_ [0x00#8, 0x00#8] 0).size < 1 + 2) ∧
    (U16At (at_ [0x00#8, 0x00#8, 0x00#8] 0).buf 1 0 ∧ ∀ ty, typeTab ty ≠ 0) ∧
    (U16At (at_ [0x00#8, 0x00#8, 0x01#8, 0x00#8] 0).buf 1 (typeTab .a) ∧
      (at_ [0x00#8, 0x00#8, 0x01#8, 0x00#8] 0).size < 1 + 4) ∧
    (U16At (at_ [0x00#8, 0x00#8, 0x01#8, 0x00#8, 0x06#8] 0).buf 3 6 ∧ ∀ cl, classTab cl ≠ 6) ∧
    Ready (at_ [0x00#8, 0x00#8, 0x01#8, 0x00#8, 0x01#8] 0) ∧
      NameAt (at_ [0x00#8, 0x00#8, 0x01#8, 0x00#8, 0x01#8] 0).buf 0 0 [] 1 ∧
      U16At (at_ [0x00#8, 0x00#8, 0x01#8, 0x00#8, 0x01#8] 0).buf 1 (typeTab .a) ∧
      U16At (at_ [0x00#8, 0x00#8, 0x01#8, 0x00#8, 0x01#8] 0).buf 3 (classTab .inet) :=
  ⟨⟨1, .invalidLabelEncoding, rfl⟩, ⟨root_name _, by decide⟩,
    ⟨u16_at _ 0 (by decide), fun ty => by cases ty <;> decide⟩, ⟨u16_at _ 0 (by decide), by decide⟩,
    ⟨u16_at _ 0 (by decide), fun cl => by cases cl <;> decide⟩, ready_at (by decide) (by decide),
    root_name _, u16_at _ 0 (by decide), u16_at _ 0 (by decide)⟩

theorem witness_RecordEncodesItsPartsOrIsRefused :
    (∃ r : Record, r.rdlength.toNat ≠ r.rdata.length) ∧ (∃ r : Record, TooLong r.name) ∧
    ∃ r : Record, r.rdlength.toNat = r.rdata.length ∧ ¬ TooLong r.name :=
  ⟨⟨⟨[], .a, .inet, 0, 1, []⟩, by decide⟩, ⟨⟨_, .a, .inet, 0, 0, []⟩, tooLong_256⟩,
    ⟨_, .a, .inet, 0, 1, [0]⟩, rfl, not_tooLong_255⟩

/-- A record of the root's name, type A, class IN, time-to-live 1 and one payload byte `c0`. -/
def root : List Byte :=
  [0x00#8, 0x00#8, 0x01#8, 0x00#8, 0x01#8, 0x00#8, 0x00#8, 0x00#8, 0x01#8, 0x00#8, 0x01#8, 0xC0#8]

/-- Up to the class as for a question; then cut off in the length, and one payload byte short. -/
theorem witness_RecordDecodesInOrder :
    (NameAt (at_ (root.take 10) 0).buf 0 0 [] 1 ∧ U16At (at_ (root.take 10) 0).buf 1 (typeTab .a) ∧
      U16At (at_ (root.take 10) 0).buf 3 (classTab .inet) ∧ (at_ (root.take 10) 0).size < 1 + 10) ∧
    (U32At (at_ (root.take 11) 0).buf 5 1 ∧ U16At (at_ (root.take 11) 0).buf 9 1 ∧
      (at_ (root.take 11) 0).size < 1 + 10 + (1#16).toNat) ∧
    Ready (at_ root 0) ∧ NameAt (at_ root 0).buf 0 0 [] 1 ∧ U16At (at_ root 0).buf 1 (typeTab .a) ∧
      U16At (at_ root 0).buf 3 (classTab .inet) ∧ U32At (at_ root 0).buf 5 1 ∧
      U16At (at_ root 0).buf 9 1 ∧ BytesAt (at_ root 0).buf 11 [0xC0#8] :=
  ⟨⟨root_name _, u16_at _ 0 (by decide), u16_at _ 0 (by decide), by decide⟩,
    ⟨u32_at _ 0 (by decide), u16_at _ 0 (by decide), by decide⟩, ready_at (by decide) (by decide),
    root_name _, u16_at _ 0 (by decide), u16_at _ 0 (by decide), u32_at _ 0 (by decide),
    u16_at _ 0 (by decide), bytes_at 0 (by decide)⟩

theorem witness_EntriesRoundTrip : validName q1.qname = true ∧ r1.wf = true ∧
    validName r1.name = true ∧ Appends (.qEnc q1) (wireQuestion q1) ∧ Appends (.rrEnc r1) (wireRecord r1) ∧
    Ready (at_ (wireRecord r1) 0) ∧ BytesAt (at_ (wireRecord r1) 0).buf 0 (wireRecord r1) :=
  ⟨by decide, by decide, by decide, fun _ => rfl, fun _ => rfl, ready_at (by decide) (by decide),
    bytesAt_loaded State.reset _ _ rfl rfl⟩

theorem witness_MessageEncodesItsPartsOrIsRefused :
    (Message.mk hdr1 [] [] [] []).wf = false ∧ p1m.wf = true ∧ ∀ n ∈ messageNames p1m, ¬ TooLong n := by
  refine ⟨by decide, by decide, fun n hn => ?_⟩
  have : n = exampleCom := by simpa [messageNames, p1m, p1q] using hn
  rw [this]
  rintro ⟨seg, hs, hl⟩
  revert seg; decide

theorem witness_MessageDecodeIsItsSequenceOfOperations : Ready (at_ hd1Bytes 0) ∧
    (∃ p h, exec .hdrDec (at_ hd1Bytes 0) = .next ((at_ hd1Bytes 0).readTo p (.header h))) ∧
    Ready (at_ [0, 0, 0] 0) ∧
    ∃ p f, exec .hdrDec (at_ [0, 0, 0] 0) = .next ((at_ [0, 0, 0] 0).faultAt p f) :=
  ⟨ready_at (by decide) (by decide), ⟨12, hd1, rfl⟩, ready_at (by decide) (by decide), 3,
    .truncatedMessage, rfl⟩

theorem witness_MessageDecodesExactlyWhatStands : Ready (at_ (wireMessage p1m) 0) ∧
    (∃ m e, MessageAt (at_ (wireMessage p1m) 0).buf 0 m e) ∧
    ∃ t r, exec .msgDec (at_ p1 0) = .next t ∧ t.answer = some (.done r) :=
  ⟨ready_at (by decide) (by decide), ⟨p1m, _, messageAt_of_bytesAt (by decide)
    (bytesAt_loaded State.reset _ _ rfl rfl)⟩, (seen_next test_msgDec.1).imp fun _ h => ⟨_, h⟩⟩

theorem witness_DecodedMessagesAreWellFormed : ∃ t m,
    exec .msgDec (at_ p1 0) = .next t ∧ t.answer = some (.done (.message m)) :=
  (seen_next test_msgDec.1).imp fun _ h => ⟨_, h⟩

theorem witness_DeserializeIsLoadThenDecode :
    Config.bufCap < (List.replicate (Config.bufCap + 1) (0#8)).length ∧
    (List.replicate Config.bufCap (0#8)).length ≤ Config.bufCap ∧
    (List.replicate 512 (0#8)).length ≤ Config.bufCap := by
  simp only [List.length_replicate]
  exact ⟨Nat.lt_add_one _, Nat.le_refl _, Config.bufCap_ge⟩

theorem witness_SerializeIsClearThenEncode : (p1m.wf = true) ∧
    (∃ u, exec (.msgEnc p1m) State.reset = .next u ∧ u.answer = some (.done .none)) ∧
    ∃ u, exec (.msgEnc ⟨hdr1, [], [], [], []⟩) State.reset = .next u ∧ u.answer = some .refused :=
  ⟨by decide, ⟨_, rfl, rfl⟩, _, rfl, rfl⟩

theorem witness_MessageRoundTrips : p1m.roundTrippable = true ∧ State.Inv (at_ cu 9) ∧
    (wireMessage p1m).length ≤ Config.bufCap :=
  ⟨by decide, inv_at (by decide) (by decide), Nat.le_trans (m := 512) (by decide) Config.bufCap_ge⟩

theorem witness_EveryProperPrefixIsTruncated : State.Inv (at_ cu 9) ∧ p1m.roundTrippable = true ∧
    Appends (.msgEnc p1m) (wireMessage p1m) ∧ (wireMessage p1m).length ≤ Config.bufCap ∧
    28 < (wireMessage p1m).length :=
  ⟨inv_at (by decide) (by decide), by decide, fun _ => rfl,
    Nat.le_trans (m := 512) (by decide) Config.bufCap_ge, by decide⟩

theorem witness_OperationsRaiseOnlyTheirFaults : (at_ [0x40#8] 0).rstatus = .ok ∧
    ∃ t, exec .qDec (at_ [0x40#8] 0) = .next t ∧ t.answer = some (.fault .invalidLabelEncoding) :=
  ⟨rfl, _, rfl, rfl⟩

theorem witness_RefusalsAreExactlyTheList :
    ((encode (.writeName (List.replicate 256 0x79#8))).format = .command ∧
      Refusable (.writeName (List.replicate 256 0x79#8))) ∧
    ((encode (.writeName (List.replicate 255 0x79#8))).format = .command ∧
      ¬ Refusable (.writeName (List.replicate 255 0x79#8))) ∧
    { State.reset with host := [⟨.command, [0x04#8]⟩] }.host = ⟨.command, 0x04#8 :: []⟩ :: [] :=
  ⟨⟨rfl, tooLong_256⟩, ⟨rfl, not_tooLong_255⟩, rfl⟩

theorem witness_FormatRowsAnswerWhatTheCodecDoes :
    (0x97F5#16).extractLsb' 11 4 = opcodeTab .status ∧ (0x97F5#16).extractLsb' 0 4 = rcodeTab .refused ∧
    (1#6 ≠ 0 ∧ 63#6 ≠ 0) ∧ r1.rdlength.toNat = r1.rdata.length := by decide

theorem witness_DecodeUndoesEncode :
    (Instr.wireNameLabel 1).wf = true ∧ (Instr.msgEnc m1).wf = true := by decide

theorem witness_StepRunsTheDecodedInstruction :
    decode ⟨.command, [0x10#8]⟩ = .ok .readU8 ∧
    decode ⟨.command, [0x20#8]⟩ = .error .badOperands ∧ (∀ code, DecodeReject.badOperands ≠ .unassignedCode code) ∧
    decodeTableWord 8 0x15 = some .readName := ⟨rfl, rfl, nofun, by decide⟩

theorem witness_HostProgramRunsToItsEnd : (∀ i ∈ [Instr.clearTx, .writeU16 1], i.wf = true) ∧
    { State.reset with host := [⟨.command, [0x03#8]⟩, ⟨.command, [0x20#8, 0x00#8, 0x01#8]⟩] }.host =
      [Instr.clearTx, .writeU16 1].map encode ∧
    (∀ r ∈ [Response.done .none, .done .none], r.wrong = false) := by decide

end Sys2Proof.Tests
end

section
/-! PROOFS. What an instruction and a step can do to the state, said once, and that each keeps the
invariants of 10_state.md R19. -/

namespace Sys2Proof.Machine

/-! ## What an instruction and a step can do -/

/-- SERIALIZE replaces TX and answers, the same in every state (46_message.md R178). -/
theorem execSerialize_replaces (m : Message) :
    ∃ w r, ∀ s, execSerialize m s = .next (State.answered { s with tx := w } r) := by
  cases hm : messageOutput m with
  | some bs => exact ⟨bs, .done (.bytes bs), fun s => by rw [execSerialize, hm]; rfl⟩
  | none => exact ⟨[], .refused, fun s => by rw [execSerialize, hm]; rfl⟩

/-- The next states of an instruction, by what it does. A refusal is one of the mere answers. -/
inductive Effect (i : Instr) (s : State) : State → Prop where
  | gate (body : Body Result) (t : State) : body.Safe → body.Raises faultLegal →
      readSide body s = .next t → Effect i s t
  | append (w : List Byte) : writeSideOp i = true → Effect i s (s.wrote w)
  | answer (r : Response) : Effect i s (s.answered r)
  | reset : i = .reset → Effect i s (State.answered { State.reset with host := s.host } (.done .none))
  | load (data : List Byte) : i = .loadRx data → data.length ≤ Config.bufCap →
      Effect i s ((s.loaded data).answered (.done .none))
  | clear : i = .clearTx → Effect i s (State.answered { s with tx := [] } (.done .none))
  | serialize (m : Message) (w : List Byte) (r : Response) : i = .serialize m →
      Effect i s (State.answered { s with tx := w } r)
  | deserialize (data : List Byte) (t : State) : i = .deserialize data →
      data.length ≤ Config.bufCap → readSide (decodeMessage.map .message) (s.loaded data) = .next t →
      Effect i s t

/-- Every next state of an instruction is one of its effects. -/
theorem exec_effect {i : Instr} {s t : State} (h : exec i s = .next t) : Effect i s t := by
  obtain ⟨-, body, hsafe, hlegal, he⟩ | ⟨output, hw, he⟩ | ⟨r, -, he⟩ | rfl | ⟨data, rfl⟩ | rfl |
    ⟨m, rfl⟩ | ⟨data, rfl⟩ := exec_side i
  · exact .gate body t hsafe hlegal (he s ▸ h)
  · obtain ⟨w, -, rfl⟩ | ⟨-, rfl⟩ := writeSide_cases (he s ▸ h)
    · exact .append w hw
    · exact .answer .refused
  · cases (he s).symm.trans h
    exact .answer r
  · cases h
    exact .reset rfl
  · rcases Nat.lt_or_ge Config.bufCap data.length with hlt | hle
    · cases (execLoadRx_of_lt hlt s).symm.trans h
      exact .answer .refused
    · cases (execLoadRx_of_le hle s).symm.trans h
      exact .load data rfl hle
  · cases h
    exact .clear rfl
  · obtain ⟨w, r, he⟩ := execSerialize_replaces m
    cases (he s).symm.trans h
    exact .serialize m w r rfl
  · rcases Nat.lt_or_ge Config.bufCap data.length with hlt | hle
    · cases (execDeserialize_of_lt hlt s).symm.trans h
      exact .answer .refused
    · exact .deserialize data t rfl hle ((execDeserialize_of_le hle s).symm.trans h)

/-- Everything a step can do: nothing, an instruction with its transaction issued, or the refusal of
an unassigned command code. -/
theorem step_cases {s t : State} (h : step s = .next t) :
    t = s ∨ (∃ i rest, exec i { s with host := rest } = .next t) ∨
    ∃ rest, t = State.refuse { s with host := rest } := by
  simp only [step, issue] at h
  cases hs : s.host with
  | nil =>
    simp only [hs] at h
    cases h
    exact .inl rfl
  | cons tr rest =>
    simp only [hs] at h
    cases hd : decode tr with
    | ok i =>
      simp only [hd] at h
      exact .inr (.inl ⟨i, rest, h⟩)
    | error r =>
      simp only [hd] at h
      cases r <;> cases h
      exact .inr (.inr ⟨rest, rfl⟩)

/-- What RX reads as after a load: the data below its length, what was there above. -/
theorem State.read_loaded (s : State) (data : List Byte) (a : Nat) :
    Memory.read (s.loaded data).rx a =
      if a < data.length then data[a]? else Memory.read s.rx a := by
  simpa using Memory.read_writeBytes data s.rx 0 a

/-! ## The invariants (R19) -/

theorem State.reset_inv : State.reset.Inv where
  pos := Nat.le_refl 0
  cap := Nat.zero_le _
  hops := rfl
  saved := rfl
  wf := ⟨rfl, rfl⟩
  filled := fun a ha => absurd ha (Nat.not_lt_zero a)
  status := trivial

/-- Every instruction keeps the invariants. -/
theorem exec_inv {i : Instr} {s t : State} (hs : s.Inv) (h : exec i s = .next t) : t.Inv := by
  cases exec_effect h with
  | gate body _ hsafe hlegal hr => exact readSide_inv hsafe hlegal hs hr
  | append w => exact (hs.appendTx w).respond _
  | answer r => exact hs.respond r
  | reset => exact (State.reset_inv.withHost s.host).respond _
  | load data _ hle => exact (hs.loaded hle).respond _
  | clear => exact (hs.withTx []).respond _
  | serialize m w r => exact (hs.withTx w).respond r
  | deserialize data _ _ hle hr =>
    exact readSide_inv (decodeMessage_safe.map _) (decodeMessage_legal.map _) (hs.loaded hle) hr

/-- Every step keeps the invariants. -/
theorem step_inv {s t : State} (hs : s.Inv) (h : step s = .next t) : t.Inv := by
  obtain rfl | ⟨i, rest, he⟩ | ⟨rest, rfl⟩ := step_cases h
  · exact hs
  · exact exec_inv (hs.withHost rest) he
  · exact (hs.withHost rest).respond .refused

end Sys2Proof.Machine
end

section
/-! PROOFS. Bytes of RX at and beyond SIZE are not observable (10_state.md R18): a body reads a byte
only below SIZE, so it ends alike over two buffers that agree there, and so does every instruction. -/

namespace Sys2Proof.Machine

/-! ## Bodies -/

/-- Two buffers of one size that hold the same bytes below it. -/
def Buf.SameBelowSize (b b' : Buf) : Prop :=
  b'.size = b.size ∧ ∀ a, a < b.size → Memory.read b'.cells a = Memory.read b.cells a

/-- A body that ends alike over buffers that differ at or beyond SIZE only. -/
def Body.IgnoresHidden {α : Type} (x : Body α) : Prop :=
  ∀ b b' : Buf, b.SameBelowSize b' → ∀ c, x b' c = x b c

theorem Body.IgnoresHidden.pure {α : Type} (a : α) : (Body.pure a).IgnoresHidden := fun _ _ _ _ => rfl

theorem Body.IgnoresHidden.raise {α : Type} (f : FaultInfo) :
    (Body.raise f : Body α).IgnoresHidden := fun _ _ _ _ => rfl

theorem Body.IgnoresHidden.ofExcept {α : Type} (v : Except FaultInfo α) :
    (Body.ofExcept v).IgnoresHidden := by
  cases v with
  | ok a => exact .pure a
  | error f => exact .raise f

theorem Body.IgnoresHidden.bind {α β : Type} {x : Body α} {f : α → Body β} (hx : x.IgnoresHidden)
    (hf : ∀ a, (f a).IgnoresHidden) : (Body.bind x f).IgnoresHidden := by
  intro b b' h c
  cases hr : x b c with
  | ok a c1 => rw [Body.bind_ok hr, Body.bind_ok ((hx b b' h c).trans hr), hf a b b' h c1]
  | raised e c1 => rw [Body.bind_raised hr, Body.bind_raised ((hx b b' h c).trans hr)]

theorem Body.IgnoresHidden.map {α β : Type} {x : Body α} (hx : x.IgnoresHidden) (f : α → β) :
    (Body.map f x).IgnoresHidden := hx.bind fun a => .pure (f a)

theorem Body.IgnoresHidden.times {α : Type} {x : Body α} (hx : x.IgnoresHidden) (n : Nat) :
    (Body.times x n).IgnoresHidden := by
  induction n with
  | zero => exact .pure []
  | succ n ih => exact hx.bind fun a => ih.bind fun as => .pure (a :: as)

/-- The one place a byte of RX is read: below SIZE (20_memory.md R36). -/
theorem readU8_ignoresHidden : readU8.IgnoresHidden := by
  rintro b b' ⟨hsize, hread⟩ c
  by_cases hc : c.rpos < b.size
  · simp [readU8, hsize, hc, hread c.rpos hc]
  · simp [readU8, hsize, hc]

theorem readU16_ignoresHidden : readU16.IgnoresHidden :=
  readU8_ignoresHidden.bind fun _ => readU8_ignoresHidden.bind fun _ => .pure _

theorem readU32_ignoresHidden : readU32.IgnoresHidden :=
  readU8_ignoresHidden.bind fun _ => readU8_ignoresHidden.bind fun _ =>
  readU8_ignoresHidden.bind fun _ => readU8_ignoresHidden.bind fun _ => .pure _

theorem readBytes_ignoresHidden (n : Nat) : (readBytes n).IgnoresHidden :=
  readU8_ignoresHidden.times n

theorem setPosition_ignoresHidden (p : Nat) : (setPosition p).IgnoresHidden := by
  intro b b' h c
  simp only [setPosition, h.1]

theorem nameElements_ignoresHidden (n : Nat) : (nameElements n).IgnoresHidden := by
  induction n with
  | zero => exact .raise _
  | succ n ih =>
    refine readU8_ignoresHidden.bind fun b => ?_
    cases firstByte b with
    | terminator => exact .pure _
    | label len => exact (readBytes_ignoresHidden _).bind fun _ => ih.bind fun _ => .pure _
    | pointer high => exact readU8_ignoresHidden.bind fun _ => .pure _
    | invalid01 x => exact .raise _
    | invalid10 x => exact .raise _

theorem followPointer_ignoresHidden {off : BitVec 14} {target : Body (List (List Byte))}
    (ht : target.IgnoresHidden) : (followPointer off target).IgnoresHidden := by
  intro b b' h c
  simp only [followPointer, setPosition_ignoresHidden off.toNat b b' h, ht b b' h]

theorem nameAtDepth_ignoresHidden (n : Nat) : (nameAtDepth n).IgnoresHidden := by
  induction n with
  | zero => exact .raise _
  | succ n ih =>
    intro b b' h c
    simp only [nameAtDepth, h.1]
    refine (nameElements_ignoresHidden _).bind (fun level => ?_) b b' h c
    cases level.2 with
    | none => exact .pure _
    | some off => exact (followPointer_ignoresHidden ih).bind fun _ => .pure _

theorem readName_ignoresHidden : readName.IgnoresHidden := fun b b' h _ =>
  ((nameAtDepth_ignoresHidden _).map (join dot)) b b' h _

theorem decodeHeader_ignoresHidden : decodeHeader.IgnoresHidden :=
  readU16_ignoresHidden.bind fun _ => readU16_ignoresHidden.bind fun _ =>
  (Body.IgnoresHidden.ofExcept _).bind fun _ => readU16_ignoresHidden.bind fun _ =>
  readU16_ignoresHidden.bind fun _ => readU16_ignoresHidden.bind fun _ =>
  readU16_ignoresHidden.bind fun _ => .pure _

theorem readType_ignoresHidden : readType.IgnoresHidden :=
  readU16_ignoresHidden.bind fun _ => .ofExcept _

theorem readClass_ignoresHidden : readClass.IgnoresHidden :=
  readU16_ignoresHidden.bind fun _ => .ofExcept _

theorem decodeQuestion_ignoresHidden : decodeQuestion.IgnoresHidden :=
  readName_ignoresHidden.bind fun _ => readType_ignoresHidden.bind fun _ =>
  readClass_ignoresHidden.bind fun _ => .pure _

theorem decodeRecord_ignoresHidden : decodeRecord.IgnoresHidden :=
  readName_ignoresHidden.bind fun _ => readType_ignoresHidden.bind fun _ =>
  readClass_ignoresHidden.bind fun _ => readU32_ignoresHidden.bind fun _ =>
  readU16_ignoresHidden.bind fun _ => (readBytes_ignoresHidden _).bind fun _ => .pure _

theorem decodeMessage_ignoresHidden : decodeMessage.IgnoresHidden :=
  decodeHeader_ignoresHidden.bind fun _ => (decodeQuestion_ignoresHidden.times _).bind fun _ =>
  (decodeRecord_ignoresHidden.times _).bind fun _ => (decodeRecord_ignoresHidden.times _).bind fun _ =>
  (decodeRecord_ignoresHidden.times _).bind fun _ => .pure _

/-! ## State operations keep two states alike -/

theorem SameBelowSize.buf {s s' : State} (h : SameBelowSize s s') :
    s.buf.SameBelowSize s'.buf := ⟨by rw [h.2]; rfl, h.1⟩

theorem SameBelowSize.cursor {s s' : State} (h : SameBelowSize s s') : s'.cursor = s.cursor := by
  rw [h.2]; rfl

theorem SameBelowSize.rstatus {s s' : State} (h : SameBelowSize s s') : s'.rstatus = s.rstatus := by
  rw [h.2]

theorem SameBelowSize.host {s s' : State} (h : SameBelowSize s s') : s'.host = s.host := by
  rw [h.2]

theorem SameBelowSize.respond {s s' : State} (h : SameBelowSize s s') (r : Response) :
    SameBelowSize (s.respond r) (s'.respond r) := ⟨h.1, congrArg (State.respond · r) h.2⟩

theorem SameBelowSize.withCursor {s s' : State} (h : SameBelowSize s s') (c : Cursor) :
    SameBelowSize (s.withCursor c) (s'.withCursor c) := ⟨h.1, congrArg (State.withCursor · c) h.2⟩

theorem SameBelowSize.takeFault {s s' : State} (h : SameBelowSize s s') (f : FaultInfo) :
    SameBelowSize (s.takeFault f) (s'.takeFault f) := ⟨h.1, congrArg (State.takeFault · f) h.2⟩

theorem SameBelowSize.appendTx {s s' : State} (h : SameBelowSize s s') (bs : List Byte) :
    SameBelowSize (s.appendTx bs) (s'.appendTx bs) := ⟨h.1, congrArg (State.appendTx · bs) h.2⟩

theorem SameBelowSize.withTx {s s' : State} (h : SameBelowSize s s') (bs : List Byte) :
    SameBelowSize { s with tx := bs } { s' with tx := bs } :=
  ⟨h.1, congrArg (fun u : State => { u with tx := bs }) h.2⟩

/-- After a load every byte below the new SIZE is the data's, whatever stood there before. -/
theorem SameBelowSize.loaded {s s' : State} (h : SameBelowSize s s') (data : List Byte) :
    SameBelowSize (s.loaded data) (s'.loaded data) := by
  refine ⟨fun a (ha : a < data.length) => ?_, ?_⟩
  · rw [State.read_loaded, State.read_loaded, if_pos ha, if_pos ha]
  · rw [h.2]; rfl

/-! ## Instructions -/

/-- Both outcomes are next states, alike but for the hidden bytes. -/
def SameOutcome (o o' : Host.Outcome State Fault Refusal) : Prop :=
  ∃ t t', o = .next t ∧ o' = .next t' ∧ SameBelowSize t t'

theorem SameBelowSize.next {t t' : State} (h : SameBelowSize t t') :
    SameOutcome (.next t) (.next t') := ⟨t, t', rfl, rfl, h⟩

theorem readSide_sameOutcome {body : Body Result} (hb : body.IgnoresHidden) {s s' : State}
    (h : SameBelowSize s s') : SameOutcome (readSide body s) (readSide body s') := by
  have hbody : body s'.buf s'.cursor = body s.buf s.cursor :=
    h.cursor ▸ hb s.buf s'.buf h.buf s'.cursor
  cases hs : s.rstatus with
  | fault f =>
    rw [readSide_sticky hs, readSide_sticky (h.rstatus.trans hs)]
    exact (h.respond _).next
  | ok =>
    cases hr : body s.buf s.cursor with
    | ok r c =>
      rw [readSide_done hs hr, readSide_done (h.rstatus.trans hs) (hbody.trans hr)]
      exact ((h.withCursor c).respond _).next
    | raised f c =>
      rw [readSide_fault hs hr, readSide_fault (h.rstatus.trans hs) (hbody.trans hr)]
      exact ((h.withCursor c).takeFault f).next

/-- Every read-side operation is the gate around a body that ignores the hidden bytes. -/
theorem readSideOp_ignoresHidden {i : Instr} (h : readSideOp i = true) :
    ∃ body : Body Result, body.IgnoresHidden ∧ ∀ s, exec i s = readSide body s := by
  cases i
  case readU8 => exact ⟨_, readU8_ignoresHidden.map .u8, fun _ => rfl⟩
  case readU16 => exact ⟨_, readU16_ignoresHidden.map .u16, fun _ => rfl⟩
  case readU32 => exact ⟨_, readU32_ignoresHidden.map .u32, fun _ => rfl⟩
  case readBytes n => exact ⟨_, (readBytes_ignoresHidden n.toNat).map .bytes, fun _ => rfl⟩
  case setPosition p => exact ⟨_, (setPosition_ignoresHidden p).map fun _ => .none, fun _ => rfl⟩
  case readName => exact ⟨_, readName_ignoresHidden.map .name, fun _ => rfl⟩
  case hdrDec => exact ⟨_, decodeHeader_ignoresHidden.map .header, fun _ => rfl⟩
  case qDec => exact ⟨_, decodeQuestion_ignoresHidden.map .question, fun _ => rfl⟩
  case rrDec => exact ⟨_, decodeRecord_ignoresHidden.map .record, fun _ => rfl⟩
  case msgDec => exact ⟨_, decodeMessage_ignoresHidden.map .message, fun _ => rfl⟩
  all_goals exact absurd h Bool.false_ne_true

theorem execReset_sameOutcome {s s' : State} (h : SameBelowSize s s') :
    SameOutcome (execReset s) (execReset s') := by
  rw [execReset, execReset, h.host]
  exact SameBelowSize.next ⟨fun _ _ => rfl, rfl⟩

theorem execLoadRx_sameOutcome (data : List Byte) {s s' : State} (h : SameBelowSize s s') :
    SameOutcome (execLoadRx data s) (execLoadRx data s') := by
  rcases Nat.lt_or_ge Config.bufCap data.length with hlt | hle
  · rw [execLoadRx_of_lt hlt, execLoadRx_of_lt hlt]
    exact (h.respond _).next
  · rw [execLoadRx_of_le hle, execLoadRx_of_le hle]
    exact ((h.loaded data).respond _).next

theorem execSerialize_sameOutcome (m : Message) {s s' : State} (h : SameBelowSize s s') :
    SameOutcome (execSerialize m s) (execSerialize m s') := by
  obtain ⟨w, r, he⟩ := execSerialize_replaces m
  rw [he, he]
  exact ((h.withTx w).respond r).next

theorem execDeserialize_sameOutcome (data : List Byte) {s s' : State} (h : SameBelowSize s s') :
    SameOutcome (execDeserialize data s) (execDeserialize data s') := by
  rcases Nat.lt_or_ge Config.bufCap data.length with hlt | hle
  · rw [execDeserialize_of_lt hlt, execDeserialize_of_lt hlt]
    exact (h.respond _).next
  · rw [execDeserialize_of_le hle, execDeserialize_of_le hle]
    exact readSide_sameOutcome (decodeMessage_ignoresHidden.map _) (h.loaded data)

/-- Every instruction, from two states alike but for the hidden bytes, ends in two such states. -/
theorem exec_sameOutcome (i : Instr) {s s' : State} (h : SameBelowSize s s') :
    SameOutcome (exec i s) (exec i s') := by
  obtain ⟨hread, -⟩ | ⟨output, -, he⟩ | ⟨r, -, he⟩ | rfl | ⟨data, rfl⟩ | rfl | ⟨m, rfl⟩ |
    ⟨data, rfl⟩ := exec_side i
  · obtain ⟨body, hbody, he⟩ := readSideOp_ignoresHidden hread
    rw [he, he]
    exact readSide_sameOutcome hbody h
  · rw [he, he]
    cases output with
    | some bs => exact ((h.appendTx bs).respond _).next
    | none => exact (h.respond _).next
  · rw [he, he]
    exact (h.respond r).next
  · exact execReset_sameOutcome h
  · exact execLoadRx_sameOutcome data h
  · exact ((h.withTx []).respond _).next
  · exact execSerialize_sameOutcome m h
  · exact execDeserialize_sameOutcome data h

end Sys2Proof.Machine
end

section
/-! PROOFS. The statements of 10_state.md. -/

namespace Sys2Proof.Machine

/-- Settles O5, by the effects of an instruction: each keeps the invariants. -/
theorem everyStepKeepsTheInvariants : Obligations.EveryStepKeepsTheInvariants :=
  fun _ _ => step_inv

/-- Settles O8, by what each side of the instruction set reads: a body behind the gate ignores the
hidden bytes, a load writes every byte below the new SIZE, and nothing else looks at RX. -/
theorem bytesBeyondSizeAreHidden : Obligations.BytesBeyondSizeAreHidden :=
  fun i _ _ => exec_sameOutcome i

/-- Settles O6: whether a load is refused turns on the capacity alone, and `State.read_loaded` says
what an accepted one leaves in RX. -/
theorem loadRxInstallsTheBufferOrIsRefused : Obligations.LoadRxInstallsTheBufferOrIsRefused := by
  refine ⟨Config.bufCap_ge, fun data => ⟨⟨encBytes data, rfl⟩, execLoadRx_of_lt, fun hle s => ?_⟩⟩
  refine ⟨_, execLoadRx_of_le hle s, rfl, fun i hi => ?_, fun i hi => ?_⟩
  · exact (s.read_loaded data i).trans (if_pos hi)
  · exact (s.read_loaded data i).trans (if_neg (Nat.not_lt.2 hi))

/-- Settles O9: of the effects of an instruction, only a reset and the two loads touch RX and SIZE,
and only an append, a reset, CLEAR_TX and SERIALIZE touch TX. -/
theorem onlyLoadsChangeRxAndOnlyWritesChangeTx :
    Obligations.OnlyLoadsChangeRxAndOnlyWritesChangeTx := by
  intro i s
  obtain ⟨t, h⟩ := exec_next i s
  refine ⟨t, h, ?_⟩
  cases exec_effect h with
  | gate body _ _ _ hr =>
    obtain ⟨hrx, hsize, htx, hhost⟩ := readSide_frame hr
    exact ⟨hhost, fun _ _ _ => ⟨hrx, hsize⟩, fun _ _ _ _ => htx⟩
  | append w hw =>
    exact ⟨rfl, fun _ _ _ => ⟨rfl, rfl⟩, fun hn => absurd hw (by simp [hn])⟩
  | answer r => exact ⟨rfl, fun _ _ _ => ⟨rfl, rfl⟩, fun _ _ _ _ => rfl⟩
  | reset hi => exact ⟨rfl, fun hn => absurd hi hn, fun _ _ hn => absurd hi hn⟩
  | load data hi => exact ⟨rfl, fun _ hn => absurd hi (hn data), fun _ _ _ _ => rfl⟩
  | clear hi => exact ⟨rfl, fun _ _ _ => ⟨rfl, rfl⟩, fun _ hn => absurd hi hn⟩
  | serialize m w r hi =>
    exact ⟨rfl, fun _ _ _ => ⟨rfl, rfl⟩, fun _ _ _ hn => absurd hi (hn m)⟩
  | deserialize data _ hi _ hr =>
    obtain ⟨-, -, htx, hhost⟩ := readSide_frame hr
    exact ⟨hhost, fun _ _ hn => absurd hi (hn data), fun _ _ _ _ => htx⟩

/-- Settles O1: RESET is the reset state with the host program kept. -/
theorem resetOperationSetsTheStatedRegisters : Obligations.ResetOperationSetsTheStatedRegisters :=
  ⟨⟨[], rfl⟩, fun _ => ⟨_, rfl, rfl⟩⟩

/-- Settles O4: after reset SIZE and RPOS are 0 and RX lists no byte. -/
theorem resetStateMeetsTheInvariants : Obligations.ResetStateMeetsTheInvariants := State.reset_inv

/-- Settles O7: CLEAR_TX is an update of TX and the answer alone. -/
theorem clearTxEmptiesTheOutput : Obligations.ClearTxEmptiesTheOutput := ⟨⟨[], rfl⟩, fun _ => rfl⟩

end Sys2Proof.Machine
end

section
/-! PROOFS. A decoder over the whole of a wire form completes, and over any proper prefix of it that ends
the buffer consumes all of it and raises TruncatedMessage (20_memory.md R36): one rule per combinator,
then one lemma per decoder. -/

namespace Sys2Proof.Machine

/-! ## Combinators -/

/-- Over the bytes `w` the body completes with `a`; where the buffer ends inside them it takes what is
there and raises TruncatedMessage. -/
structure Body.Decodes {α : Type} (x : Body α) (w : List Byte) (a : α) : Prop where
  whole : ∀ {b : Buf} {c : Cursor}, c.Idle → BytesAt b c.rpos w →
    x b c = .ok a { c with rpos := c.rpos + w.length }
  cut : ∀ {b : Buf} {c : Cursor} {n : Nat}, c.Idle → n < w.length → BytesAt b c.rpos (w.take n) →
    c.rpos + n = b.size → x b c = .raised .truncatedMessage { c with rpos := b.size }

theorem Body.Decodes.pure {α : Type} (a : α) : (Body.pure a).Decodes [] a where
  whole _ _ := rfl
  cut _ hn := absurd hn (Nat.not_lt_zero _)

theorem Body.Decodes.ofExcept {α : Type} {v : Except FaultInfo α} {a : α} (h : v = .ok a) :
    (Body.ofExcept v).Decodes [] a := h ▸ .pure a

/-- A prefix of two wire forms cuts the first, or is the first and a prefix of the second. -/
theorem Body.Decodes.bind {α β : Type} {x : Body α} {f : α → Body β} {w w' : List Byte} {a : α} {v : β}
    (hx : x.Decodes w a) (hf : (f a).Decodes w' v) : (Body.bind x f).Decodes (w ++ w') v where
  whole := by
    intro b c hi hb
    obtain ⟨h1, h2⟩ := BytesAt.append.1 hb
    rw [Body.bind_ok (hx.whole hi h1),
      hf.whole (c := { c with rpos := c.rpos + w.length }) hi h2, List.length_append, Nat.add_assoc]
  cut := by
    intro b c n hi hn hb he
    rw [List.length_append] at hn
    rw [List.take_append] at hb
    rcases Nat.lt_or_ge n w.length with hlt | hge
    · exact Body.bind_raised (hx.cut hi hlt (BytesAt.append.1 hb).1 he)
    · rw [List.take_of_length_le hge] at hb
      obtain ⟨h1, h2⟩ := BytesAt.append.1 hb
      rw [Body.bind_ok (hx.whole hi h1)]
      exact hf.cut (c := { c with rpos := c.rpos + w.length }) hi (by omega) h2
        (by simp only; omega)

/-- What follows reads nothing. -/
theorem Body.Decodes.bind_nil {α β : Type} {x : Body α} {f : α → Body β} {w : List Byte} {a : α} {v : β}
    (hx : x.Decodes w a) (hf : (f a).Decodes [] v) : (Body.bind x f).Decodes w v := by
  simpa using hx.bind hf

theorem Body.Decodes.times {α : Type} {x : Body α} {enc : α → List Byte} {as : List α}
    (hx : ∀ a ∈ as, x.Decodes (enc a) a) : (Body.times x as.length).Decodes (as.flatMap enc) as := by
  induction as with
  | nil => exact .pure []
  | cons a rest ih =>
    exact (hx a (by simp)).bind
      ((ih fun a ha => hx a (List.mem_cons_of_mem _ ha)).bind_nil (.pure (a :: rest)))

/-! ## Cursor reads -/

theorem readU8_decodes (v : Byte) : readU8.Decodes [v] v where
  whole _ hb := readU8_of_byteAt hb.1
  cut _ hn _ he := by
    simp only [List.length_singleton] at hn
    rw [readU8_at_end (by omega), ← he, Nat.lt_one_iff.1 hn]
    rfl

theorem readU16_decodes (v : Word16) : readU16.Decodes (be16 v) v := by
  have h : readU16.Decodes (be16 v) (word16 (v.extractLsb' 8 8) (v.extractLsb' 0 8)) :=
    (readU8_decodes _).bind ((readU8_decodes _).bind_nil (.pure _))
  rwa [word16_be16] at h

theorem readU32_decodes (v : Word32) : readU32.Decodes (be32 v) v := by
  have h : readU32.Decodes (be32 v) (word32 (v.extractLsb' 24 8) (v.extractLsb' 16 8)
      (v.extractLsb' 8 8) (v.extractLsb' 0 8)) :=
    (readU8_decodes _).bind <| (readU8_decodes _).bind <| (readU8_decodes _).bind <|
    (readU8_decodes _).bind_nil (.pure _)
  rwa [word32_be32] at h

theorem readBytes_decodes (bs : List Byte) : (readBytes bs.length).Decodes bs bs where
  whole _ hb := readBytes_of_bytesAt hb
  cut _ hn _ he := readBytes_truncated (by omega) (by omega)

theorem readType_decodes (m : RType) : readType.Decodes (be16 (typeTab m)) m :=
  (readU16_decodes _).bind_nil (.ofExcept (typeFrom_ord m))

theorem readClass_decodes (m : RClass) : readClass.Decodes (be16 (classTab m)) m :=
  (readU16_decodes _).bind_nil (.ofExcept (classFrom_ord m))

/-! ## Names -/

/-- Where the buffer ends inside a name's bytes, labels lead up to the element it cuts off. -/
theorem cutOff_of_take_segments {b : Buf} {segs : List (List Byte)}
    (hs : ∀ seg ∈ segs, 1 ≤ seg.length ∧ seg.length ≤ 63) {p n : Nat}
    (hn : n < (segs.flatMap wireSegment ++ [0x00#8]).length)
    (hb : BytesAt b p ((segs.flatMap wireSegment ++ [0x00#8]).take n)) (he : p + n = b.size) :
    ∃ labels q, LabelsAt b p labels q ∧ CutOffAt b q := by
  induction segs generalizing p n with
  | nil => exact ⟨[], p, .nil p, .inl (by simp at hn; omega)⟩
  | cons seg rest ih =>
    obtain ⟨h1, h2⟩ := hs seg (by simp)
    have hlen : (BitVec.ofNat 8 seg.length).toNat = seg.length := by
      simp only [BitVec.toNat_ofNat]; omega
    simp only [List.flatMap_cons, wireSegment, List.cons_append, List.append_assoc] at hn hb
    cases n with
    | zero => exact ⟨[], p, .nil p, .inl (by omega)⟩
    | succ n =>
      rw [List.length_cons, List.length_append] at hn
      rw [List.take_succ_cons, List.take_append] at hb
      obtain ⟨hv, hb⟩ := hb
      rcases Nat.lt_or_ge n seg.length with hlt | hge
      · exact ⟨[], p, .nil p, .inr (.inl ⟨_, hv, by omega, by omega, by omega⟩)⟩
      · rw [List.take_of_length_le hge] at hb
        obtain ⟨hseg, hrest⟩ := BytesAt.append.1 hb
        obtain ⟨labels, q, hl, hc⟩ :=
          ih (fun s hm => hs s (List.mem_cons_of_mem _ hm)) (by omega) hrest (by omega)
        exact ⟨seg :: labels, q,
          .cons p q _ seg labels hv (by omega) (by omega) hlen.symm hseg hl, hc⟩

theorem readName_decodes {n : Name} (hv : validName n = true) : readName.Decodes (wireName n) n where
  whole hi hb := by
    have h := readName_of_nameAt hi (by have := hb.le; omega) (nameAt_of_wireName hv hb)
    rwa [join_split] at h
  cut hi hn hb he := by
    obtain ⟨labels, q, hl, hc⟩ := cutOff_of_take_segments (validName_iff.1 hv).2 hn hb he
    obtain ⟨e, hr, hpos⟩ := readName_of_cut hi (by omega) (.here _ q labels hl) (Nat.zero_le _) hc
    rw [hr, hpos rfl]

/-! ## Headers, entries and messages -/

theorem readFlags_packFlags (h : Header) :
    readFlags (packFlags (headerFlags h)) = .ok (headerFlags h) := by
  obtain ⟨h15, hop, h10, h9, h8, h7, hz, hrc⟩ := packFlags_fields (headerFlags h)
  exact readFlags_of_fields h15 hop h10 h9 h8 h7 hz hrc

theorem decodeHeader_decodes (h : Header) : decodeHeader.Decodes (wireHeader h) h := by
  simp only [wireHeader, List.append_assoc]
  exact (readU16_decodes _).bind <| (readU16_decodes _).bind <|
    (Body.Decodes.ofExcept (readFlags_packFlags h)).bind <|
    (readU16_decodes _).bind <| (readU16_decodes _).bind <| (readU16_decodes _).bind <|
    (readU16_decodes _).bind_nil (.pure h)

theorem decodeQuestion_decodes {q : Question} (hv : validName q.qname = true) :
    decodeQuestion.Decodes (wireQuestion q) q := by
  simp only [wireQuestion, List.append_assoc]
  exact (readName_decodes hv).bind <| (readType_decodes _).bind <|
    (readClass_decodes _).bind_nil (.pure q)

theorem decodeRecord_decodes {r : Record} (hw : r.wf = true) (hv : validName r.name = true) :
    decodeRecord.Decodes (wireRecord r) r := by
  have hl : r.rdlength.toNat = r.rdata.length := by simpa [Record.wf] using hw
  have hdata := hl ▸ readBytes_decodes r.rdata
  simp only [wireRecord, List.append_assoc]
  exact (readName_decodes hv).bind <| (readType_decodes _).bind <| (readClass_decodes _).bind <|
    (readU32_decodes _).bind <| (readU16_decodes _).bind <| hdata.bind_nil (.pure r)

theorem decodeMessage_decodes {m : Message} (hm : m.roundTrippable = true) :
    decodeMessage.Decodes (wireMessage m) m := by
  obtain ⟨hw, vq, va, vn, vx⟩ := roundTrippable_iff.1 hm
  obtain ⟨c1, c2, c3, c4, wa, wn, wx⟩ := Message.wf_iff.1 hw
  have hqd := Body.Decodes.times fun q hq => decodeQuestion_decodes (vq q hq)
  have han := Body.Decodes.times fun r hr => decodeRecord_decodes (wa r hr) (va r hr)
  have hns := Body.Decodes.times fun r hr => decodeRecord_decodes (wn r hr) (vn r hr)
  have har := Body.Decodes.times fun r hr => decodeRecord_decodes (wx r hr) (vx r hr)
  rw [← c1] at hqd
  rw [← c2] at han
  rw [← c3] at hns
  rw [← c4] at har
  simp only [wireMessage, List.append_assoc]
  exact (decodeHeader_decodes m.hdr).bind <| hqd.bind <| han.bind <| hns.bind <|
    har.bind_nil (.pure m)

end Sys2Proof.Machine
end

section
/-! PROOFS. The statements of 20_memory.md. -/

namespace Sys2Proof.Machine

/-- What MSG_ENC appends is the message's wire form (46_message.md R171). -/
theorem eq_wireMessage_of_appends {m : Message} {bs : List Byte} (h : Appends (.msgEnc m) bs) :
    bs = wireMessage m := by
  obtain ⟨w, hw, he⟩ | ⟨-, he⟩ := writeSide_cases (h State.reset)
  · obtain ⟨-, rfl⟩ : _ ∧ wireMessage m = w := by simpa [messageOutput] using hw
    exact congrArg State.tx he
  · cases congrArg State.answer he

/-- Settles O51, by the rule of a cut wire form carried through the decoders: the prefix is what the load
installs, and MSG_DEC's body runs into its end. -/
theorem everyProperPrefixIsTruncated : Obligations.EveryProperPrefixIsTruncated := by
  intro m bs n s hs hm happ hcap hn
  obtain rfl := eq_wireMessage_of_appends happ
  have hlen : ((wireMessage m).take n).length = n := by rw [List.length_take]; omega
  have hinv : (s.loaded ((wireMessage m).take n)).Inv := hs.loaded (by omega)
  have hcut := (decodeMessage_decodes hm).cut hinv.cursorIdle hn
    (bytesAt_loaded s ((wireMessage m).take n) _ rfl rfl) ((Nat.zero_add n).trans hlen.symm)
  exact ⟨_, (execDeserialize_of_le (by omega) s).trans (readSide_map_faultAt rfl hcut),
    rfl, rfl, hlen, hlen, rfl⟩

end Sys2Proof.Machine
end

section
/-! PROOFS. The encoding side, said once: every row of the instruction set is read back, what the decoder
says of the next transaction fixes the step, and what a name element or a layout row answers. -/

namespace Sys2Proof.Laws.RoundTrip

/-- The case split over the rows of the instruction set: each has its lemma in Laws/PerInstr.lean. -/
theorem decode_encode : ∀ i : Instr, Statement i
  | .reset => reset | .loadRx data => loadRx data | .clearTx => clearTx
  | .readU8 => readU8 | .readU16 => readU16 | .readU32 => readU32
  | .readBytes n => readBytes n | .setPosition p => setPosition p | .readName => readName
  | .writeU16 v => writeU16 v | .writeU32 v => writeU32 v | .writeName s => writeName s
  | .opcodeFrom o => opcodeFrom o | .opcodeTo m => opcodeTo m
  | .rcodeFrom o => rcodeFrom o | .rcodeTo m => rcodeTo m
  | .typeFrom o => typeFrom o | .typeTo m => typeTo m
  | .classFrom o => classFrom o | .classTo m => classTo m
  | .hdrEnc h => hdrEnc h | .hdrDec => hdrDec | .qEnc q => qEnc q | .qDec => qDec
  | .rrEnc r => rrEnc r | .rrDec => rrDec | .msgEnc m => msgEnc m | .msgDec => msgDec
  | .buildRequest id q => buildRequest id q
  | .serialize m => serialize m | .deserialize data => deserialize data
  | .wireFlags f => wireFlags f | .wireNameEnd => wireNameEnd
  | .wireNameLabel len => wireNameLabel len | .wireNamePointer off => wireNamePointer off
  | .wireNameInvalid01 x => wireNameInvalid01 x | .wireNameInvalid10 x => wireNameInvalid10 x
  | .wireHeader h => wireHeader h | .wireQuestion q => wireQuestion q
  | .wireRecord r => wireRecord r | .wireMessage m => wireMessage m
  | .opcodeQuery => opcodeQuery | .opcodeIquery => opcodeIquery | .opcodeStatus => opcodeStatus
  | .rcodeNoerror => rcodeNoerror | .rcodeFormerr => rcodeFormerr
  | .rcodeServfail => rcodeServfail | .rcodeNxdomain => rcodeNxdomain
  | .rcodeNotimp => rcodeNotimp | .rcodeRefused => rcodeRefused
  | .typeA => typeA | .typeNs => typeNs | .typeMd => typeMd | .typeMf => typeMf
  | .typeCname => typeCname | .typeSoa => typeSoa | .typeMb => typeMb | .typeMg => typeMg
  | .typeMr => typeMr | .typeNull => typeNull | .typeWks => typeWks | .typePtr => typePtr
  | .typeHinfo => typeHinfo | .typeMinfo => typeMinfo | .typeMx => typeMx | .typeTxt => typeTxt
  | .typeAxfr => typeAxfr | .typeMailb => typeMailb | .typeMaila => typeMaila | .typeAny => typeAny
  | .classIn => classIn | .classCs => classCs | .classCh => classCh | .classHs => classHs
  | .classAny => classAny
  | .errTruncatedMessage => errTruncatedMessage
  | .errInvalidLabelEncoding => errInvalidLabelEncoding
  | .errPointerLimitExceeded => errPointerLimitExceeded
  | .errUnknownEnumValue => errUnknownEnumValue

end Sys2Proof.Laws.RoundTrip

namespace Sys2Proof.Machine

/-! ## Transactions -/

/-- The word of a well-formed instruction decodes to it. -/
theorem decode_word {t : Transaction} {i : Instr} (ht : encode i = t) (hi : i.wf = true) :
    decode t = .ok i := ht ▸ Laws.RoundTrip.decode_encode i hi

/-! ## Steps -/

theorem step_idle {s : State} (h : s.host = []) : step s = .next s := by
  rw [step, issue, h]

/-- A transaction that carries an instruction is issued, and the instruction performed. -/
theorem step_of_decode {s : State} {t : Transaction} {rest : List Transaction} {i : Instr}
    (h : s.host = t :: rest) (hd : decode t = .ok i) : step s = exec i { s with host := rest } := by
  simp only [step, issue, h, hd]

/-- A transaction that carries none stops the step, unless its command code is unassigned (log 12). -/
theorem step_of_malformed {s : State} {t : Transaction} {rest : List Transaction} {r : DecodeReject}
    (h : s.host = t :: rest) (hd : decode t = .error r) (hr : ∀ code, r ≠ .unassignedCode code) :
    step s = .refused .malformedTransaction := by
  simp only [step, issue, h, hd]
  cases r with
  | unassignedCode code => exact absurd rfl (hr code)
  | emptyTransaction | badOperands | noSuchRow => rfl

theorem decodeTableWord_eq_some {nbits w : Nat} {i : Instr} :
    decodeTableWord nbits w = some i ↔ decode (tableTransaction nbits w) = .ok i := by
  rw [decodeTableWord]
  cases decode (tableTransaction nbits w) <;> simp

/-! ## Name elements (R58, R59) -/

theorem elementOf_label {len : BitVec 6} (h : len ≠ 0) (second : Byte) :
    elementOf (elementByte 0b00#2 len) second = .ok (.label len) := by
  have hlen := len.isLt
  have h0 : len.toNat ≠ 0 := fun h0 => h (BitVec.eq_of_toNat_eq h0)
  have hb : (elementByte 0b00#2 len).toNat = len.toNat := by simp [elementByte_toNat]
  rw [elementOf, firstByte_label (by omega) (by omega), elementByte_low]

/-- A 14-bit offset is the six bits of the first byte before the eight of the second. -/
theorem pointerOffset_extract (off : BitVec 14) :
    pointerOffset (off.extractLsb' 8 6) (off.extractLsb' 0 8) = off := by
  have hoff := off.isLt
  apply BitVec.eq_of_toNat_eq
  rw [pointerOffset_toNat]
  simp only [BitVec.extractLsb'_toNat, Nat.shiftRight_eq_div_pow]
  omega

theorem elementOf_pointer (off : BitVec 14) :
    elementOf (elementByte 0b11#2 (off.extractLsb' 8 6)) (off.extractLsb' 0 8) =
      .ok (.pointer off) := by
  have hb : 192 ≤ (elementByte 0b11#2 (off.extractLsb' 8 6)).toNat := by simp [elementByte_toNat]
  simp only [elementOf, firstByte_pointer hb, elementByte_low, pointerOffset_extract]

theorem elementOf_invalid01 (x : BitVec 6) (second : Byte) :
    elementOf (elementByte 0b01#2 x) second = .error .invalidLabelEncoding := by
  have hx := x.isLt
  have hb : (elementByte 0b01#2 x).toNat = 64 + x.toNat := by simp [elementByte_toNat]
  rw [elementOf, firstByte_invalid01 (by omega) (by omega)]

theorem elementOf_invalid10 (x : BitVec 6) (second : Byte) :
    elementOf (elementByte 0b10#2 x) second = .error .invalidLabelEncoding := by
  have hx := x.isLt
  have hb : (elementByte 0b10#2 x).toNat = 128 + x.toNat := by simp [elementByte_toNat]
  rw [elementOf, firstByte_invalid10 (by omega) (by omega)]

/-! ## Outputs (R53, R54, R62, R63) -/

theorem questionOutput_of_writable {q : Question} (h : ¬ TooLong q.qname) :
    questionOutput q = some (wireQuestion q) := if_pos (nameWritable_iff.2 h)

theorem recordOutput_of_writable {r : Record} (hw : r.rdlength.toNat = r.rdata.length)
    (h : ¬ TooLong r.name) : recordOutput r = some (wireRecord r) := by
  simp [recordOutput, Record.wf, hw, nameWritable_iff.2 h]

/-- A message is writable where no name of it has too long a segment (46_message.md R171). -/
theorem messageWritable_iff {m : Message} :
    messageWritable m = true ↔ ∀ n ∈ messageNames m, ¬ TooLong n := by
  simp only [messageWritable, messageNames, Bool.and_eq_true, List.all_eq_true, nameWritable_iff,
    List.forall_mem_append, List.forall_mem_map, List.map_append, and_assoc]

theorem messageOutput_of_writable {m : Message} (hw : m.wf = true)
    (h : ∀ n ∈ messageNames m, ¬ TooLong n) : messageOutput m = some (wireMessage m) :=
  if_pos (by rw [hw, messageWritable_iff.2 h]; rfl)

/-- A layout row answers the bytes its writing operation appends (log 10). -/
theorem layoutRow_answers {row enc : Instr} {output : Option (List Byte)} {w : List Byte}
    (henc : ∀ s, exec enc s = writeSide output s)
    (hrow : ∀ s, exec row s = pureOrRefuse (output.map .bytes) s) (hout : output = some w)
    (s : State) : ∃ w, Appends enc w ∧ exec row s = .next (s.answered (.done (.bytes w))) := by
  subst hout
  exact ⟨w, henc, hrow s⟩

end Sys2Proof.Machine
end

section
/-! PROOFS. The statements of 30_encoding.md. -/

namespace Sys2Proof.Machine

/-- Settles O57, by the case split over the rows: each parser undoes its encoder, and no byte is left
over. -/
theorem decodeUndoesEncode : Obligations.DecodeUndoesEncode := Laws.RoundTrip.decode_encode

/-- Settles O55: the flags row by the ordinals of its two members, the name-element rows by the class of
the first byte, and the layout rows by the output they share with the writing operations. -/
theorem formatRowsAnswerWhatTheCodecDoes : Obligations.FormatRowsAnswerWhatTheCodecDoes := by
  refine fun s => ⟨fun w op rc hop hrc => ?flags, rfl, fun len hlen => ?label, fun off => ?pointer,
    fun x => ?invalid01, fun x => ?invalid10, fun h => ?header, fun q hq => ?question,
    fun r hw hn => ?record, fun m hw hn => ?message⟩
  case flags => exact congrArg (pureSide .flags · s) (readFlags_of_ords hop hrc)
  case label => exact congrArg (pureSide .element · s) (elementOf_label hlen _)
  case pointer => exact congrArg (pureSide .element · s) (elementOf_pointer off)
  case invalid01 => exact congrArg (pureSide .element · s) (elementOf_invalid01 x _)
  case invalid10 => exact congrArg (pureSide .element · s) (elementOf_invalid10 x _)
  case header => exact layoutRow_answers (fun _ => rfl) (fun _ => rfl) rfl s
  case question =>
    exact layoutRow_answers (fun _ => rfl) (fun _ => rfl) (questionOutput_of_writable hq) s
  case record =>
    exact layoutRow_answers (fun _ => rfl) (fun _ => rfl) (recordOutput_of_writable hw hn) s
  case message =>
    exact layoutRow_answers (fun _ => rfl) (fun _ => rfl) (messageOutput_of_writable hw hn) s

/-- Settles O58, by what the decoder says of the next transaction; an opcode-table word placed by
`withFetchWord` is the next transaction, and issuing it leaves the host program it was placed before. -/
theorem stepRunsTheDecodedInstruction : Obligations.StepRunsTheDecodedInstruction :=
  ⟨fun _ => step_idle,
    fun _ _ _ h => ⟨fun _ => step_of_decode h, fun _ => step_of_malformed h⟩,
    fun s nbits w _ hw =>
      step_of_decode (s := s.withFetchWord nbits w) rfl (decodeTableWord_eq_some.1 hw)⟩

/-- Settles O59: each word is the encoding of what it stands for, but for the unassigned code, which no
row of the command table has. -/
theorem writtenWordsDecode : Obligations.WrittenWordsDecode := by
  refine ⟨decode_word rfl rfl, decode_word (by decide) rfl, decode_word (by decide) rfl, ?unassigned,
    decode_word (by decide) (by decide), decode_word (by decide) rfl, decode_word (by decide) rfl,
    decode_word (by decide) rfl, decode_word (by decide) rfl, decode_word (by decide) rfl,
    decode_word (by decide) rfl⟩
  case unassigned =>
    have hcode : lookupCode commandTable 0x04#8 = none := rfl
    rw [decode, decodeHead, decodeCoded, hcode]

end Sys2Proof.Machine
end

section
/-! PROOFS. The conversions of an enumeration, said once over any table: what the two answer at a member
and its ordinal, when they answer each other's operands, which ordinals are unknown, and what a member row
answers. -/

namespace Sys2Proof.Machine

/-! ## Pure answers -/

/-- A pure operation answers DONE with the result of `a` exactly where its value is `a`. -/
theorem pureSide_eq_done_iff {α : Type} {result : α → Result}
    (hresult : Function.Injective result) {v : Except FaultInfo α} {a : α} {s : State} :
    pureSide result v s = .next (s.answered (.done (result a))) ↔ v = .ok a := by
  constructor
  · intro h
    obtain ⟨b, rfl, hb⟩ | ⟨f, rfl, hf⟩ := pureSide_cases h
    · rw [hresult (Response.done.inj (Option.some.inj (congrArg State.answer hb)))]
    · cases congrArg State.answer hf
  · rintro rfl
    rfl

/-! ## The two conversions over a table (R80) -/

section
variable {M : Type} {w : Nat} {tab : M → BitVec w} {convert : BitVec w → Except FaultInfo M}
  {result : M → Result} {ordinal : BitVec w → Result}

/-- At each row of a table the ordinal converts to the member and the member to the ordinal. -/
theorem conversions_follow_rows (hconvert : ∀ m, convert (tab m) = .ok m) {rows : List (M × BitVec w)}
    (hrows : ∀ row ∈ rows, tab row.1 = row.2) (s : State) : ∀ row ∈ rows,
    pureSide result (convert row.2) s = .next (s.answered (.done (result row.1))) ∧
    pureSide ordinal (.ok (tab row.1)) s = .next (s.answered (.done (ordinal row.2))) := by
  intro row hrow
  rw [← hrows row hrow, hconvert]
  exact ⟨rfl, rfl⟩

/-- Where a member's ordinal converts to the member, and an ordinal that converts is its member's, the two
conversions answer each other's operands. -/
theorem conversions_invert (hconvert : ∀ m, convert (tab m) = .ok m)
    (hord : ∀ {o m}, convert o = .ok m → tab m = o) (hordinal : Function.Injective ordinal)
    (hresult : Function.Injective result) (s : State) (o : BitVec w) (m : M) :
    pureSide ordinal (.ok (tab m)) s = .next (s.answered (.done (ordinal o))) ↔
      pureSide result (convert o) s = .next (s.answered (.done (result m))) := by
  rw [pureSide_eq_done_iff hordinal, pureSide_eq_done_iff hresult, Except.ok.injEq]
  exact ⟨fun h => h ▸ hconvert m, hord⟩

end

/-! ## The four enumerations (R81 to R84) -/

theorem opcodeTab_lt (m : Opcode) : (opcodeTab m).toNat < 3 := by cases m <;> decide

theorem rcodeTab_lt (m : Rcode) : (rcodeTab m).toNat < 6 := by cases m <;> decide

theorem typeTab_range (m : RType) :
    1 ≤ (typeTab m).toNat ∧ (typeTab m).toNat ≤ 16 ∨
    252 ≤ (typeTab m).toNat ∧ (typeTab m).toNat ≤ 255 := by cases m <;> decide

theorem classTab_range (m : RClass) :
    1 ≤ (classTab m).toNat ∧ (classTab m).toNat ≤ 4 ∨ (classTab m).toNat = 255 := by
  cases m <;> decide

theorem opcodeFrom_unknown {o : BitVec 4} (h : ∀ m, opcodeTab m ≠ o) :
    opcodeFrom o = .error (.unknownEnumValue .opcode (o.setWidth 16)) := by
  rw [opcodeFrom, opcodeOf, enumFrom_none h]; rfl

theorem rcodeFrom_unknown {o : BitVec 4} (h : ∀ m, rcodeTab m ≠ o) :
    rcodeFrom o = .error (.unknownEnumValue .rcode (o.setWidth 16)) := by
  rw [rcodeFrom, rcodeOf, enumFrom_none h]; rfl

/-! ## Member and error rows (R81 to R84, R186) -/

theorem exec_opcodeRow (m : Opcode) (s : State) :
    exec m.row s = .next (s.answered (.done (.opcode m))) := by
  have hrow : exec m.row s = pureSide .opcode (opcodeFrom (opcodeTab m)) s := by cases m <;> rfl
  rw [hrow, opcodeFrom_ord]; rfl

theorem exec_rcodeRow (m : Rcode) (s : State) :
    exec m.row s = .next (s.answered (.done (.rcode m))) := by
  have hrow : exec m.row s = pureSide .rcode (rcodeFrom (rcodeTab m)) s := by cases m <;> rfl
  rw [hrow, rcodeFrom_ord]; rfl

theorem exec_typeRow (m : RType) (s : State) :
    exec m.row s = .next (s.answered (.done (.type m))) := by
  have hrow : exec m.row s = pureSide .type (typeFrom (typeTab m)) s := by cases m <;> rfl
  rw [hrow, typeFrom_ord]; rfl

theorem exec_classRow (m : RClass) (s : State) :
    exec m.row s = .next (s.answered (.done (.cls m))) := by
  have hrow : exec m.row s = pureSide .cls (classFrom (classTab m)) s := by cases m <;> rfl
  rw [hrow, classFrom_ord]; rfl

theorem kindOfCode_code (k : FaultKind) : kindOfCode k.code = some k :=
  enumFrom_self (fun k => by cases k <;> decide) (fun k k' => by cases k <;> cases k' <;> decide) k

theorem exec_errorRow (k : FaultKind) (s : State) :
    exec k.row s = .next (s.answered (.done (.kind k))) := by
  have hrow : exec k.row s = pureOrRefuse ((kindOfCode k.code).map .kind) s := by cases k <;> rfl
  rw [hrow, kindOfCode_code]; rfl

/-- A list of rows answers as the rows of its members do. -/
theorem rows_answer {M : Type} {row : M → Instr} {result : M → Result} {s : State}
    (hrow : ∀ m, exec (row m) s = .next (s.answered (.done (result m)))) {rows : List (Instr × M)}
    (hrows : ∀ r ∈ rows, r.1 = row r.2) :
    ∀ r ∈ rows, exec r.1 s = .next (s.answered (.done (result r.2))) := by
  intro r hr
  rw [hrows r hr, hrow]

end Sys2Proof.Machine
end

section
/-! PROOFS. The statements of 40_enums.md. -/

namespace Sys2Proof.Machine

/-- Settles O34: over any table by the search for a member, for the four enumerations by which ordinals
convert to which member. -/
theorem conversionsInvertEachOther : Obligations.ConversionsInvertEachOther := by
  refine ⟨fun M w members ord hall hinj => ⟨enumFrom_self hall hinj, fun _ _ => enumFrom_ord⟩,
    fun s => ⟨?opcode, ?rcode, ?type, ?cls⟩⟩
  case opcode =>
    exact conversions_invert opcodeFrom_ord ord_of_opcodeFrom (fun _ _ => Result.ordinal4.inj)
      (fun _ _ => Result.opcode.inj) s
  case rcode =>
    exact conversions_invert rcodeFrom_ord ord_of_rcodeFrom (fun _ _ => Result.ordinal4.inj)
      (fun _ _ => Result.rcode.inj) s
  case type =>
    exact conversions_invert typeFrom_ord ord_of_typeFrom (fun _ _ => Result.ordinal16.inj)
      (fun _ _ => Result.type.inj) s
  case cls =>
    exact conversions_invert classFrom_ord ord_of_classFrom (fun _ _ => Result.ordinal16.inj)
      (fun _ _ => Result.cls.inj) s

/-- Settles O30: the rows are the table's, and no member's ordinal is 3 or more. -/
theorem opcodeConversionsFollowTheTable : Obligations.OpcodeConversionsFollowTheTable := by
  refine ⟨fun o => ⟨_, rfl⟩, fun m => ⟨_, rfl⟩, fun s =>
    ⟨conversions_follow_rows opcodeFrom_ord (by decide) s, fun o ho => ?unknown⟩⟩
  case unknown =>
    have hne : ∀ m, opcodeTab m ≠ o := by
      rintro m rfl
      exact absurd (opcodeTab_lt m) (Nat.not_lt.2 ho)
    exact congrArg (pureSide .opcode · s) (opcodeFrom_unknown hne)

/-- Settles O31: the rows are the table's, and no member's ordinal is 6 or more. -/
theorem rcodeConversionsFollowTheTable : Obligations.RcodeConversionsFollowTheTable := by
  refine ⟨fun o => ⟨_, rfl⟩, fun m => ⟨_, rfl⟩, fun s =>
    ⟨conversions_follow_rows rcodeFrom_ord (by decide) s, fun o ho => ?unknown⟩⟩
  case unknown =>
    have hne : ∀ m, rcodeTab m ≠ o := by
      rintro m rfl
      exact absurd (rcodeTab_lt m) (Nat.not_lt.2 ho)
    exact congrArg (pureSide .rcode · s) (rcodeFrom_unknown hne)

/-- Settles O32: the rows are the table's, and every member's ordinal is in 1 to 16 or 252 to 255. -/
theorem typeConversionsFollowTheTable : Obligations.TypeConversionsFollowTheTable := by
  refine ⟨fun o => ⟨_, rfl⟩, fun m => ⟨_, rfl⟩, fun s =>
    ⟨conversions_follow_rows typeFrom_ord (by decide) s, fun o ho => ?unknown⟩⟩
  case unknown =>
    have hne : ∀ m, typeTab m ≠ o := by
      rintro m rfl
      have := typeTab_range m
      omega
    exact congrArg (pureSide .type · s) (typeFrom_unknown hne)

/-- Settles O33: the rows are the table's, and every member's ordinal is in 1 to 4 or is 255. -/
theorem classConversionsFollowTheTable : Obligations.ClassConversionsFollowTheTable := by
  refine ⟨fun o => ⟨_, rfl⟩, fun m => ⟨_, rfl⟩, fun s =>
    ⟨conversions_follow_rows classFrom_ord (by decide) s, fun o ho => ?unknown⟩⟩
  case unknown =>
    have hne : ∀ m, classTab m ≠ o := by
      rintro m rfl
      have := classTab_range m
      omega
    exact congrArg (pureSide .cls · s) (classFrom_unknown hne)

/-- Settles O56: every listed row is the row of its member or kind, and such a row answers it. -/
theorem memberRowsAnswerTheirMember : Obligations.MemberRowsAnswerTheirMember := fun s =>
  ⟨rows_answer (exec_opcodeRow · s) (by decide), rows_answer (exec_rcodeRow · s) (by decide),
    rows_answer (exec_typeRow · s) (by decide), rows_answer (exec_classRow · s) (by decide),
    rows_answer (exec_errorRow · s) (by decide)⟩

end Sys2Proof.Machine
end

section
/-! PROOFS. The statements of 41_cursor_read.md. Below SIZE every address holds a byte, so a cursor read
completes exactly where its bytes fit, with the value that stands there. -/

namespace Sys2Proof.Machine

/-! ## SET_POSITION on either side of SIZE (R105) -/

theorem setPosition_of_le {p : Nat} {b : Buf} (h : p ≤ b.size) (c : Cursor) :
    setPosition p b c = .ok () { c with rpos := p } := if_neg (Nat.not_lt.2 h)

theorem setPosition_of_lt {p : Nat} {b : Buf} (h : b.size < p) (c : Cursor) :
    setPosition p b c = .raised .truncatedMessage c := if_pos h

/-! ## The statements -/

/-- Settles O10: a read-side operation is the gate around a safe body, and a safe body ends with only RPOS
moved. -/
theorem readSideGateAnswersOrRecords : Obligations.ReadSideGateAnswersOrRecords := by
  intro i s hi
  obtain ⟨body, hsafe, -, he⟩ := readSideOp_body hi
  rw [he]
  refine ⟨fun f hf => readSide_sticky hf, fun hs hok => ?_⟩
  obtain ⟨r, p, hr⟩ | ⟨f, p, hr⟩ := hsafe.ends hs
  · exact .inl ⟨p, r, readSide_readTo hok hr⟩
  · exact .inr ⟨p, f, readSide_faultAt hok hr⟩

/-- Settles O12: below SIZE a byte stands at RPOS; at SIZE none is readable. -/
theorem readU8TakesTheNextByte : Obligations.ReadU8TakesTheNextByte := by
  refine ⟨⟨[], rfl⟩, fun s hs hok => ⟨fun hlt => ?below, fun heq => ?atSize⟩⟩
  case below =>
    obtain ⟨v, hv⟩ := hs.bufFilled.byteAt hlt
    exact ⟨v, hv, readSide_map_readTo hok (readU8_of_byteAt hv)⟩
  case atSize => exact readSide_map_faultAt hok (readU8_at_end heq.ge)

/-- Settles O13: with room for two bytes a 16-bit value stands at RPOS; otherwise the read is cut off. -/
theorem readU16IsBigEndian : Obligations.ReadU16IsBigEndian := by
  refine ⟨⟨[], rfl⟩, fun s hs hok => ⟨fun hle => ?fits, fun hlt => ?cut⟩⟩
  case fits =>
    obtain ⟨v, hv⟩ := hs.bufFilled.u16At hle
    exact ⟨v, hv, readSide_map_readTo hok (readU16_of_u16At hv)⟩
  case cut =>
    exact readSide_map_faultAt hok (readU16_truncated hs.pos (Nat.sub_lt_left_of_lt_add hs.pos hlt))

/-- Settles O14: with room for four bytes a 32-bit value stands at RPOS; otherwise the read is cut off. -/
theorem readU32IsBigEndian : Obligations.ReadU32IsBigEndian := by
  refine ⟨⟨[], rfl⟩, fun s hs hok => ⟨fun hle => ?fits, fun hlt => ?cut⟩⟩
  case fits =>
    obtain ⟨v, hv⟩ := hs.bufFilled.u32At hle
    exact ⟨v, hv, readSide_map_readTo hok (readU32_of_u32At hv)⟩
  case cut => exact readSide_map_faultAt hok (readU32_truncated hs.bufFilled hs.pos hlt)

/-- Settles O15: where `n` bytes fit they stand at RPOS; otherwise the run is cut off. -/
theorem readBytesIsAllOrNothing : Obligations.ReadBytesIsAllOrNothing := by
  refine fun n => ⟨⟨be16 n, rfl⟩, fun s hs hok => ⟨fun hle => ?fits, fun hlt => ?cut⟩⟩
  case fits =>
    obtain ⟨bs, hl, hb⟩ := hs.bufFilled.bytesAt n.toNat s.rpos (Nat.add_le_of_le_sub' hs.pos hle)
    exact ⟨bs, hl, hb, readSide_map_readTo hok (hl ▸ readBytes_of_bytesAt hb)⟩
  case cut => exact readSide_map_faultAt hok (readBytes_truncated hs.pos hlt)

/-- Settles O16: whether the position is taken turns on SIZE alone. -/
theorem setPositionIsBoundedBySize : Obligations.SetPositionIsBoundedBySize := fun p =>
  ⟨⟨encNat p, rfl⟩, fun s hok =>
    ⟨fun hle => readSide_map_readTo hok (setPosition_of_le (b := s.buf) hle s.cursor),
      fun hlt => readSide_map_faultAt hok (setPosition_of_lt (b := s.buf) hlt s.cursor)⟩⟩

end Sys2Proof.Machine
end

section
/-! PROOFS. READ_NAME and the buffer (42_name_decode.md): where a name that ends in a pointer leaves the
cursor, which fault means a sixth pointer, how many codes a name can have, and a pointer to a written
name. -/

namespace Sys2Proof.Machine

/-! ## Ends of a read -/

theorem State.Inv.cursorLe {s : State} (h : s.Inv) : s.cursor.rpos ≤ s.buf.size := h.pos

/-- A read-side operation that answered a fault of its own raised it in its body. -/
theorem readSide_map_raised {α : Type} {x : Body α} {g : α → Result} {s t : State} {f : FaultInfo}
    (hok : s.rstatus = .ok) (h : readSide (x.map g) s = .next t) (ha : t.answer = some (.fault f)) :
    ∃ c, x s.buf s.cursor = .raised f c := by
  obtain ⟨f', hf, -⟩ | ⟨r, c, -, -, rfl⟩ | ⟨f', c, -, hb, rfl⟩ := readSide_cases h
  · cases hok.symm.trans hf
  · cases ha
  · cases ha
    exact ⟨c, Body.map_eq_raised.1 hb⟩

/-- A name that ends in a pointer ends with the cursor after it, however following it ends (R114). -/
theorem readName_of_pointer {b : Buf} {c : Cursor} {q off : Nat} {labels : List (List Byte)}
    (hi : c.Idle) (hp : c.rpos ≤ b.size) (hl : LabelsAt b c.rpos labels q) (ho : PointerAt b q off) :
    (∃ n, readName b c = .ok n { c with rpos := q + 2 }) ∨
    ∃ f, readName b c = .raised f { c with rpos := q + 2 } := by
  obtain ⟨o, -, hd⟩ := nameAtDepth_pointer Config.pointerLimit hp hl ho
  have hback := followPointer_cursor (off := o) (nameAtDepth_keeps Config.pointerLimit) b
    { c with rpos := q + 2 }
  rw [readName_run hi]
  cases hr : followPointer o (nameAtDepth Config.pointerLimit) b { c with rpos := q + 2 } with
  | ok rest c' =>
    obtain rfl : c' = { c with rpos := q + 2 } := by rwa [hr] at hback
    exact .inl ⟨_, Body.map_eq_ok.2 ⟨_, hd.trans (Body.bind_ok hr), rfl⟩⟩
  | raised f c' =>
    obtain rfl : c' = { c with rpos := q + 2 } := by rwa [hr] at hback
    exact .inr ⟨f, Body.map_eq_raised.2 (hd.trans (Body.bind_raised hr))⟩

/-- READ_NAME raises PointerLimitExceeded only where a sixth pointer is met (R115). -/
theorem reaches_sixth_of_readName {b : Buf} {c c' : Cursor} (hf : b.Filled) (hi : c.Idle)
    (hp : c.rpos ≤ b.size) (h : readName b c = .raised .pointerLimitExceeded c') :
    ∃ q off, Reaches b c.rpos Config.pointerLimit q ∧ PointerAt b q off := by
  cases nameEnds hf Config.pointerLimit 0 c.rpos rfl with
  | limit k q off hr hk ho =>
    obtain rfl : k = Config.pointerLimit := by omega
    exact ⟨q, off, hr, ho⟩
  | stands labels e hn => cases (readName_of_nameAt hi hp hn).symm.trans h
  | cut k q hr hk hc =>
    obtain ⟨e, he, -⟩ := readName_of_cut hi hp hr (by omega) hc
    cases he.symm.trans h
  | above k q off hr hk ho hs =>
    obtain ⟨e, he, -⟩ := readName_of_above hi hp hr (by omega) ho hs
    cases he.symm.trans h
  | invalid k q v hr hk hv h1 h2 =>
    obtain ⟨e, he, -⟩ := readName_of_invalid hi hp hr (by omega) hv h1 h2
    cases he.symm.trans h

/-! ## How many codes a name has (R119) -/

/-- Joining costs one code between segments where their wire form costs one before each. -/
theorem join_length_le (d : Byte) (segs : List (List Byte)) :
    (join d segs).length ≤ (segs.flatMap wireSegment).length := by
  induction segs with
  | nil => exact Nat.le_refl 0
  | cons seg rest ih =>
    cases rest with
    | nil => simp [join, wireSegment]
    | cons next rest =>
      rw [join, List.flatMap_cons, List.length_append, List.length_append, List.length_cons]
      simp only [wireSegment, List.length_cons] at ih ⊢
      omega

/-- Labels take as many bytes of the buffer as their wire form has. -/
theorem LabelsAt.end_eq {b : Buf} {p q : Nat} {labels : List (List Byte)} (h : LabelsAt b p labels q) :
    q = p + (labels.flatMap wireSegment).length := by
  induction h with
  | nil p => rfl
  | cons p q len lab rest _ _ _ _ _ _ ih =>
    rw [ih, List.flatMap_cons, List.length_append, wireSegment, List.length_cons]
    omega

/-- Each of the `n + 1` levels left takes its labels from one pass over the buffer, and the last one a
terminator besides. -/
theorem NameAt.wire_length_lt {b : Buf} {h p e : Nat} {labels : List (List Byte)}
    (hn : NameAt b h p labels e) : ∀ {n : Nat}, n + h = Config.pointerLimit →
      (labels.flatMap wireSegment).length < (n + 1) * b.size := by
  induction hn with
  | ends h p q labels hl hb =>
    intro n _
    have hq := hl.end_eq
    have hlt := hb.1
    calc (labels.flatMap wireSegment).length < b.size := by omega
      _ ≤ (n + 1) * b.size := Nat.le_mul_of_pos_left _ n.succ_pos
  | points h p q off e labels rest hl ho hlim _ _ ih =>
    intro n hk
    obtain ⟨m, rfl⟩ : ∃ m, n = m + 1 := ⟨n - 1, by omega⟩
    have hrest := ih (n := m) (by omega)
    have hq := hl.end_eq
    obtain ⟨b0, b1, hb0, -, -, -⟩ := ho
    have hlt := hb0.1
    rw [List.flatMap_append, List.length_append, Nat.succ_mul]
    omega

/-! ## A pointer to a written name -/

/-- A pointer to the bytes WRITE_NAME gives for a valid name is that name (R121). -/
theorem nameAt_of_pointer_to_wireName {b : Buf} {p x : Nat} {n : Name} (hv : validName n = true)
    (hb : BytesAt b x (wireName n)) (ho : PointerAt b p x) :
    NameAt b 0 p (split dot n) (p + 2) := by
  obtain ⟨hl, hend⟩ := labels_of_wireName hv hb
  have hx : x ≤ b.size := (Nat.le_add_right _ _).trans hb.le
  exact .points 0 p p x _ [] _ (.nil p) ho (by decide) hx (.ends 1 x _ _ hl hend)

end Sys2Proof.Machine
end

section
/-! PROOFS. The statements of 42_name_decode.md: what stands in the buffer decides how READ_NAME's body
ends, and the gate keeps that end. -/

namespace Sys2Proof.Machine

/-- Settles O17: a name that stands is decoded, and of the ways a name can end no other one completes. -/
theorem readNameDecodesExactlyWhatStands : Obligations.ReadNameDecodesExactlyWhatStands := by
  refine fun s hs hok => ⟨fun labels e hn => ?stands, fun t r h ha => ?completes⟩
  case stands => exact readSide_map_readTo hok (readName_of_nameAt hs.cursorIdle hs.cursorLe hn)
  case completes =>
    obtain ⟨-, n, c, hb, -, rfl⟩ := readSide_map_done h ha
    obtain ⟨labels, e, hn, rfl, rfl⟩ := nameAt_of_readName hs.bufFilled hs.cursorIdle hs.cursorLe hb
    exact ⟨labels, e, hn, rfl⟩

/-- Settles O18: following a pointer gives the cursor back, whatever stands at the target. -/
theorem pointerRestoresTheCursorOnEveryPath : Obligations.PointerRestoresTheCursorOnEveryPath := by
  intro s labels q off hs hok hl ho
  exact (readName_of_pointer hs.cursorIdle hs.cursorLe hl ho).imp
    (fun ⟨n, hn⟩ => ⟨n, readSide_map_readTo hok hn⟩)
    fun ⟨f, hf⟩ => ⟨f, readSide_map_faultAt hok hf⟩

/-- Settles O19: of the ways a name can end, the sixth pointer alone raises this fault. -/
theorem sixthPointerExceedsTheLimit : Obligations.SixthPointerExceedsTheLimit := by
  refine fun s hs hok => ⟨fun ⟨t, h, ha⟩ => ?met, fun ⟨q, off, hr, ho⟩ => ?raised⟩
  case met =>
    obtain ⟨c, hb⟩ := readSide_map_raised hok h ha
    exact reaches_sixth_of_readName hs.bufFilled hs.cursorIdle hs.cursorLe hb
  case raised =>
    obtain ⟨e, he⟩ := readName_of_limit hs.cursorIdle hs.cursorLe hr ho
    exact ⟨_, readSide_map_faultAt hok he, rfl⟩

/-- Settles O20: the fault of the level passes outward through the pointers followed. -/
theorem undefinedLengthByteIsInvalid : Obligations.UndefinedLengthByteIsInvalid := by
  intro s h q v hs hok hh hr hv h1 h2
  obtain ⟨e, he, hpos⟩ := readName_of_invalid hs.cursorIdle hs.cursorLe hr hh hv h1 h2
  exact ⟨e, readSide_map_faultAt hok he, hpos⟩

/-- Settles O21: both faults pass outward through the pointers followed. -/
theorem cutOffNameIsTruncated : Obligations.CutOffNameIsTruncated := by
  refine fun s h q hs hok hr => ⟨fun hh hc => ?cut, fun off hh ho hsize => ?above⟩
  case cut =>
    obtain ⟨e, he, hpos⟩ := readName_of_cut hs.cursorIdle hs.cursorLe hr hh hc
    exact ⟨e, readSide_map_faultAt hok he, hpos⟩
  case above =>
    obtain ⟨e, he, hpos⟩ := readName_of_above hs.cursorIdle hs.cursorLe hr hh ho hsize
    exact ⟨e, readSide_map_faultAt hok he, hpos⟩

/-- Settles O22: a decoded name stands in the buffer, and joining its labels gives no more codes than
their wire form has. -/
theorem decodedNameIsBounded : Obligations.DecodedNameIsBounded := by
  intro s t n hs hok h ha
  obtain ⟨labels, e, hn, rfl⟩ := (readNameDecodesExactlyWhatStands s hs hok).2 t _ h ha
  cases ha
  exact (join_length_le dot labels).trans_lt (hn.wire_length_lt rfl)

/-- Settles O23: the bytes at X are those WRITE_NAME gives for "example". -/
theorem pointerToExampleReadsExample : Obligations.PointerToExampleReadsExample := by
  intro s x hs hok hb ho
  have hn := nameAt_of_pointer_to_wireName
    (n := [0x65#8, 0x78#8, 0x61#8, 0x6D#8, 0x70#8, 0x6C#8, 0x65#8]) (by decide) hb ho
  exact (readNameDecodesExactlyWhatStands s hs hok).1 _ _ hn

end Sys2Proof.Machine
end

section
/-! PROOFS. The write side, said once (43_writer.md): what a writing operation's output makes of it, what
TX is to a read, the bytes of a word, and what READ_NAME makes of a written name. -/

namespace Sys2Proof

/-! ## The bytes of a word (R126, R127) -/

/-- The eight bits from `k` up are the quotient by `2 ^ k`, cut to a byte. -/
theorem byte_eq_div {w : Nat} (v : BitVec w) (k : Nat) :
    v.extractLsb' k 8 = BitVec.ofNat 8 (v.toNat / 2 ^ k) := by
  rw [BitVec.extractLsb', Nat.shiftRight_eq_div_pow]

theorem be16_eq_div (v : Word16) :
    be16 v = [BitVec.ofNat 8 (v.toNat / 2 ^ 8), BitVec.ofNat 8 v.toNat] := by
  simp only [be16, byte_eq_div, Nat.pow_zero, Nat.div_one]

theorem be32_eq_div (v : Word32) :
    be32 v = [BitVec.ofNat 8 (v.toNat / 2 ^ 24), BitVec.ofNat 8 (v.toNat / 2 ^ 16),
      BitVec.ofNat 8 (v.toNat / 2 ^ 8), BitVec.ofNat 8 v.toNat] := by
  simp only [be32, byte_eq_div, Nat.pow_zero, Nat.div_one]

end Sys2Proof

namespace Sys2Proof.Machine

/-! ## Outputs (R125, R128) -/

theorem appends_of_output {i : Instr} {output : Option (List Byte)} {w : List Byte}
    (hi : ∀ s, exec i s = writeSide output s) (hout : output = some w) : Appends i w := by
  subst hout
  exact hi

theorem refuses_of_output {i : Instr} {output : Option (List Byte)}
    (hi : ∀ s, exec i s = writeSide output s) (hout : output = none) : Refuses i := by
  subst hout
  exact hi

theorem writeName_appends {n : Name} (h : ¬ TooLong n) : Appends (.writeName n) (wireName n) :=
  appends_of_output (fun _ => rfl) (if_pos (nameWritable_iff.2 h))

theorem writeName_refuses {n : Name} (h : TooLong n) : Refuses (.writeName n) :=
  refuses_of_output (fun _ => rfl) (if_neg fun hw => nameWritable_iff.1 hw h)

/-! ## TX and the read side (10_state.md R15) -/

/-- The gate carries any TX through, whatever the body does. -/
theorem readSide_withTx {body : Body Result} {s t : State} (tx : List Byte)
    (h : readSide body s = .next t) : readSide body { s with tx := tx } = .next { t with tx := tx } := by
  obtain ⟨f, hf, rfl⟩ | ⟨r, c, hok, hb, rfl⟩ | ⟨f, c, hok, hb, rfl⟩ := readSide_cases h
  · exact readSide_sticky hf
  · exact readSide_done hok hb
  · exact readSide_fault hok hb

/-! ## Reading a written name (R129, R131) -/

/-- Segments of 1 to 63 codes and the first terminator after them are a name, whatever follows. -/
theorem nameAt_of_segments {b : Buf} {p : Nat} {segs : List (List Byte)}
    (hs : ∀ seg ∈ segs, 1 ≤ seg.length ∧ seg.length ≤ 63)
    (hb : BytesAt b p (segs.flatMap wireSegment ++ [0x00#8])) :
    NameAt b 0 p segs (p + (segs.flatMap wireSegment).length + 1) := by
  obtain ⟨hsegs, hend⟩ := BytesAt.append.1 hb
  exact .ends 0 p _ segs (labelsAt_of_bytesAt hs hsegs) hend.1

/-- A name's bytes around an empty segment, which is written as a terminator (R129). -/
theorem wireName_of_emptySegment {n : Name} {pre post : List (List Byte)}
    (hn : split dot n = pre ++ [] :: post) : wireName n =
      pre.flatMap wireSegment ++ 0x00#8 :: post.flatMap wireSegment ++ [0x00#8] := by
  rw [wireName, hn, List.flatMap_append, List.flatMap_cons]
  rfl

/-- Where the whole of such a name's bytes stand, so do those up to its first terminator. -/
theorem bytesAt_of_emptySegment {b : Buf} {p : Nat} {n : Name} {pre post : List (List Byte)}
    (hn : split dot n = pre ++ [] :: post) (hb : BytesAt b p (wireName n)) :
    BytesAt b p (pre.flatMap wireSegment ++ [0x00#8]) := by
  rw [wireName_of_emptySegment hn, List.append_assoc, List.cons_append, List.append_cons] at hb
  exact (BytesAt.append.1 hb).1

/-- READ_NAME over such bytes: the segments, joined, with the cursor just after the terminator. -/
theorem readName_of_segments {s : State} {pre : List (List Byte)} (hs : s.Inv) (hok : s.rstatus = .ok)
    (hpre : ∀ seg ∈ pre, 1 ≤ seg.length ∧ seg.length ≤ 63)
    (hb : BytesAt s.buf s.rpos (pre.flatMap wireSegment ++ [0x00#8])) :
    exec .readName s =
      .next (s.readTo (s.rpos + (pre.flatMap wireSegment).length + 1) (.name (join dot pre))) :=
  (readNameDecodesExactlyWhatStands s hs hok).1 _ _ (nameAt_of_segments hpre hb)

/-- A row of R129's table: what is written for a name with an empty segment, and what reads back. -/
theorem emptySegment_reads_back {n : Name} {pre post : List (List Byte)} (hn : split dot n = pre ++ [] :: post)
    (hpre : ∀ seg ∈ pre, 1 ≤ seg.length ∧ seg.length ≤ 63) (hw : nameWritable n = true) :
    Appends (.writeName n) (wireName n) ∧
    ∀ s : State, s.Inv → s.rstatus = .ok → BytesAt s.buf s.rpos (wireName n) →
      exec .readName s =
        .next (s.readTo (s.rpos + (pre.flatMap wireSegment).length + 1) (.name (join dot pre))) :=
  ⟨writeName_appends (nameWritable_iff.1 hw), fun _ hs hok hb =>
    readName_of_segments hs hok hpre (bytesAt_of_emptySegment hn hb)⟩

end Sys2Proof.Machine
end

section
/-! PROOFS. The statements of 43_writer.md. -/

namespace Sys2Proof.Machine

/-- Settles O29: a valid name's bytes are labels and a terminator, which READ_NAME decodes to the labels
joined, and joining the split gives the name back. -/
theorem validNameRoundTrips : Obligations.ValidNameRoundTrips := by
  intro n hv
  refine ⟨wireName n, writeName_appends (nameWritable_iff.1 (nameWritable_of_valid hv)),
    wireName_length n, fun s hs hok hb => ?_⟩
  obtain ⟨hlabels, hend⟩ := labels_of_wireName hv hb
  have hread := (readNameDecodesExactlyWhatStands s hs hok).1 _ _ (.ends 0 _ _ _ hlabels hend)
  rw [join_split] at hread
  exact ⟨hlabels, hend, hread⟩

/-- Settles O24: the output of a write-side operation does not depend on the state, and the gate of a
read-side operation carries TX through. -/
theorem writeSideAppendsAllOrNothing : Obligations.WriteSideAppendsAllOrNothing := by
  refine ⟨fun i hi => ?writes, fun i s tx hi => ?reads⟩
  case writes =>
    obtain ⟨output, he⟩ := writeSideOp_output hi
    cases hout : output with
    | some w => exact .inl ⟨w, appends_of_output he hout⟩
    | none => exact .inr (refuses_of_output he hout)
  case reads =>
    obtain ⟨body, -, -, he⟩ := readSideOp_body hi
    obtain ⟨t, ht⟩ := readSide_answers body s
    obtain ⟨-, -, htx, -⟩ := readSide_frame ht
    exact ⟨t, (he s).trans ht, htx, (he _).trans (readSide_withTx tx ht)⟩

/-- Settles O27: whether a name is refused turns on its longest segment, and otherwise its wire form is
the segments in order and a terminator. -/
theorem writeNameAppendsItsSegments : Obligations.WriteNameAppendsItsSegments := fun n =>
  ⟨⟨encBytes n, rfl⟩, writeName_refuses, fun h =>
    ⟨wireName n, writeName_appends h, wireName_length n, rfl⟩⟩

/-- Settles O28: an empty segment's length byte is the terminator that READ_NAME stops after. -/
theorem emptySegmentsReadBackAsTheEnd : Obligations.EmptySegmentsReadBackAsTheEnd := by
  refine ⟨fun n pre post hn hpre hw => ⟨?appends, fun s hs hok => readName_of_segments hs hok hpre⟩,
    fun row hrow => ?table⟩
  case appends => exact wireName_of_emptySegment hn ▸ writeName_appends hw
  case table =>
    simp only [List.mem_cons, List.not_mem_nil, or_false] at hrow
    obtain rfl | rfl | rfl | rfl := hrow
    · exact emptySegment_reads_back (pre := []) (post := []) rfl (by decide) rfl
    · exact emptySegment_reads_back (pre := [[0x61#8]]) (post := []) rfl (by decide) rfl
    · exact emptySegment_reads_back (pre := []) (post := [[0x61#8]]) rfl (by decide) rfl
    · exact emptySegment_reads_back (pre := [[0x61#8]]) (post := [[0x62#8]]) rfl (by decide) rfl

/-- Settles O25: the two bytes in wire order are the quotients of the operand. -/
theorem writeU16AppendsTwoBytes : Obligations.WriteU16AppendsTwoBytes := fun v =>
  ⟨⟨be16 v, rfl⟩, be16_eq_div v ▸ fun _ => rfl⟩

/-- Settles O26: the four bytes in wire order are the quotients of the operand. -/
theorem writeU32AppendsFourBytes : Obligations.WriteU32AppendsFourBytes := fun v =>
  ⟨⟨be32 v, rfl⟩, be32_eq_div v ▸ fun _ => rfl⟩

end Sys2Proof.Machine
end

section
/-! PROOFS. The header, said once (44_header.md): the bytes HDR_ENC appends, which ordinals of a flags word
have a member, and how HDR_DEC's body ends before and after its flags word. -/

namespace Sys2Proof.Machine

/-! ## What an instruction appends -/

/-- An instruction appends one list of bytes. -/
theorem Appends.unique {i : Instr} {w w' : List Byte} (h : Appends i w) (h' : Appends i w') : w = w' := by
  have hnext := (h State.reset).symm.trans (h' State.reset)
  exact congrArg State.tx (Host.Outcome.next.inj hnext)

theorem writeU16_appends (v : Word16) : Appends (.writeU16 v) (be16 v) := fun _ => rfl

theorem hdrEnc_appends (h : Header) : Appends (.hdrEnc h) (wireHeader h) := fun _ => rfl

/-! ## The flags word (R141, R142) -/

/-- The largest flags word has every bit field set and the largest ordinals. -/
theorem packFlags_le (f : FlagFields) : (packFlags f).toNat ≤ 0x97f5 := by
  have hq := Bool.toNat_le f.qr
  have ha := Bool.toNat_le f.aa
  have ht := Bool.toNat_le f.tc
  have hd := Bool.toNat_le f.rd
  have hr := Bool.toNat_le f.ra
  have hz := f.z.isLt
  have ho := opcodeTab_lt f.opcode
  have hc := rcodeTab_lt f.rcode
  rw [packFlags_toNat, flagSum]
  omega

theorem exists_opcode_of_lt : ∀ o : BitVec 4, o.toNat < 3 → ∃ m ∈ Opcode.all, opcodeTab m = o := by
  decide

theorem exists_rcode_of_lt : ∀ o : BitVec 4, o.toNat < 6 → ∃ m ∈ Rcode.all, rcodeTab m = o := by
  decide

theorem opcodeFrom_of_ge {o : BitVec 4} (h : 3 ≤ o.toNat) :
    opcodeFrom o = .error (.unknownEnumValue .opcode (o.setWidth 16)) :=
  opcodeFrom_unknown fun m hm => absurd (hm ▸ opcodeTab_lt m) (Nat.not_lt.2 h)

theorem rcodeFrom_of_ge {o : BitVec 4} (h : 6 ≤ o.toNat) :
    rcodeFrom o = .error (.unknownEnumValue .rcode (o.setWidth 16)) :=
  rcodeFrom_unknown fun m hm => absurd (hm ▸ rcodeTab_lt m) (Nat.not_lt.2 h)

/-- A bad opcode is reported whatever the response code is. -/
theorem readFlags_of_badOpcode {w : Word16} (h : 3 ≤ (opcodeBits w).toNat) :
    readFlags w = .error (.unknownEnumValue .opcode ((opcodeBits w).setWidth 16)) := by
  rw [readFlags, opcodeFrom_of_ge h]

theorem readFlags_of_badRcode {w : Word16} {op : Opcode} (hop : opcodeTab op = opcodeBits w)
    (h : 6 ≤ (rcodeBits w).toNat) :
    readFlags w = .error (.unknownEnumValue .rcode ((rcodeBits w).setWidth 16)) := by
  rw [readFlags, ← hop, opcodeFrom_ord, rcodeFrom_of_ge h]

/-! ## Bodies that are cut off -/

/-- With fewer than `n` bytes left the body takes them all and raises TruncatedMessage, whatever they
are. -/
def Body.Needs {α : Type} (x : Body α) (n : Nat) : Prop :=
  ∀ b c, b.Filled → c.rpos ≤ b.size → b.size < c.rpos + n →
    x b c = .raised .truncatedMessage { c with rpos := b.size }

theorem Body.Needs.zero {α : Type} (x : Body α) : x.Needs 0 :=
  fun _ _ _ hp hn => absurd hp (Nat.not_le.2 hn)

/-- A word in front is cut off itself, or is read and the rest is cut off. -/
theorem Body.Needs.bind_readU16 {α : Type} {f : Word16 → Body α} {n : Nat} (hf : ∀ v, (f v).Needs n) :
    (Body.bind readU16 f).Needs (n + 2) := by
  intro b c hb hp hn
  rcases Nat.lt_or_ge b.size (c.rpos + 2) with hlt | hle
  · exact Body.bind_raised (readU16_truncated hp (by omega))
  · obtain ⟨v, hv⟩ := hb.u16At hle
    rw [Body.bind_ok (readU16_of_u16At hv)]
    exact hf v b { c with rpos := c.rpos + 2 } hb hle (by simp only; omega)

/-! ## HDR_DEC's body around its flags word (R142) -/

/-- What HDR_DEC reads once the flags word has been accepted. -/
def decodeCounts (id : Word16) (f : FlagFields) : Body Header :=
  Body.bind readU16 fun qd => Body.bind readU16 fun an => Body.bind readU16 fun ns =>
  Body.bind readU16 fun ar => Body.pure (headerOf id f qd an ns ar)

theorem decodeHeader_eq : decodeHeader =
    Body.bind readU16 fun id => Body.bind readU16 fun w =>
      Body.bind (Body.ofExcept (readFlags w)) (decodeCounts id) := rfl

theorem decodeHeader_needs : decodeHeader.Needs 4 :=
  .bind_readU16 fun _ => .bind_readU16 fun _ => .zero _

theorem decodeCounts_needs (id : Word16) (f : FlagFields) : (decodeCounts id f).Needs 8 :=
  .bind_readU16 fun _ => .bind_readU16 fun _ => .bind_readU16 fun _ => .bind_readU16 fun _ => .zero _

section
variable {b : Buf} {c : Cursor} {id w : Word16}

/-- The identifier and the flags word take 4 bytes; what the flags word says decides the rest. -/
theorem decodeHeader_of_words (hid : U16At b c.rpos id) (hw : U16At b (c.rpos + 2) w) :
    decodeHeader b c =
      Body.bind (Body.ofExcept (readFlags w)) (decodeCounts id) b { c with rpos := c.rpos + 4 } := by
  rw [decodeHeader_eq, Body.bind_ok (readU16_of_u16At hid),
    Body.bind_ok (readU16_of_u16At (c := { c with rpos := c.rpos + 2 }) hw)]

theorem decodeHeader_of_badFlags (hid : U16At b c.rpos id) (hw : U16At b (c.rpos + 2) w)
    {f : FaultInfo} (h : readFlags w = .error f) :
    decodeHeader b c = .raised f { c with rpos := c.rpos + 4 } := by
  rw [decodeHeader_of_words hid hw, h]
  rfl

theorem decodeHeader_of_cutCounts (hb : b.Filled) (hid : U16At b c.rpos id)
    (hw : U16At b (c.rpos + 2) w) {f : FlagFields} (h : readFlags w = .ok f)
    (hn : b.size < c.rpos + 12) :
    decodeHeader b c = .raised .truncatedMessage { c with rpos := b.size } := by
  rw [decodeHeader_of_words hid hw, h]
  exact decodeCounts_needs id f b { c with rpos := c.rpos + 4 } hb hw.le hn

/-- Good ordinals and room for the four counts make a header. -/
theorem exists_headerAt (hb : b.Filled) {p : Nat} (hid : U16At b p id) (hw : U16At b (p + 2) w)
    {op : Opcode} {rc : Rcode} (hop : opcodeTab op = opcodeBits w) (hrc : rcodeTab rc = rcodeBits w)
    (hp : p + 12 ≤ b.size) : ∃ h, HeaderAt b p h := by
  obtain ⟨qd, hqd⟩ := hb.u16At (p := p + 4) (by omega)
  obtain ⟨an, han⟩ := hb.u16At (p := p + 6) (by omega)
  obtain ⟨ns, hns⟩ := hb.u16At (p := p + 8) (by omega)
  obtain ⟨ar, har⟩ := hb.u16At (p := p + 10) (by omega)
  exact ⟨headerOf id (unpackFlags w op rc) qd an ns ar, hid,
    ⟨w, hw, rfl, hop.symm, rfl, rfl, rfl, rfl, rfl, hrc.symm⟩, hqd, han, hns, har⟩

end

end Sys2Proof.Machine
end

section
/-! PROOFS. The statements of 44_header.md. -/

namespace Sys2Proof.Machine

/-- Settles O35: the wire form of a header is its six words, and the flags word is the sum of its
fields. -/
theorem headerEncodesAsSixWords : Obligations.HeaderEncodesAsSixWords := fun h =>
  ⟨⟨encHeader h, rfl⟩, packFlags (headerFlags h), _, _, _, _, _, _, packFlags_toNat (headerFlags h),
    packFlags_le (headerFlags h), writeU16_appends _, writeU16_appends _, writeU16_appends _,
    writeU16_appends _, writeU16_appends _, writeU16_appends _, hdrEnc_appends h, wireHeader_length h⟩

/-- Settles O36: with 4 bytes left an identifier and a flags word stand; the ordinals of the flags word
and then the room for the counts decide how the body ends. -/
theorem headerDecodeChecksInOrder : Obligations.HeaderDecodeChecksInOrder := by
  refine ⟨⟨[], rfl⟩, fun s hs hok => ⟨fun hlt => ?noFlags, fun hle => ?flags⟩⟩
  case noFlags => exact readSide_map_faultAt hok (decodeHeader_needs _ _ hs.bufFilled hs.pos hlt)
  case flags =>
    obtain ⟨id, hid⟩ := hs.bufFilled.u16At (p := s.rpos) (by simp only [State.buf_size]; omega)
    obtain ⟨F, hF⟩ := hs.bufFilled.u16At (p := s.rpos + 2) hle
    refine ⟨F, hF, fun ho => ?badOpcode, fun ho hr => ?badRcode, fun ho hr hn => ?cut,
      fun ho hr hn => ?whole⟩
    case badOpcode =>
      exact readSide_map_faultAt hok (decodeHeader_of_badFlags hid hF (readFlags_of_badOpcode ho))
    all_goals obtain ⟨op, -, hop⟩ := exists_opcode_of_lt _ ho
    case badRcode =>
      exact readSide_map_faultAt hok (decodeHeader_of_badFlags hid hF (readFlags_of_badRcode hop hr))
    all_goals obtain ⟨rc, -, hrc⟩ := exists_rcode_of_lt _ hr
    case cut =>
      have hflags := readFlags_of_ords hop.symm hrc.symm
      exact readSide_map_faultAt hok (decodeHeader_of_cutCounts hs.bufFilled hid hF hflags hn)
    case whole =>
      obtain ⟨h, hh⟩ := exists_headerAt hs.bufFilled hid hF hop hrc hn
      exact ⟨h, hh, readSide_map_readTo hok (decodeHeader_of_headerAt hh)⟩

/-- Settles O37: the bytes of a header's wire form are a header standing, and of 12 bytes where a header
stands that wire form is the only one. -/
theorem headerRoundTripsBothWays : Obligations.HeaderRoundTripsBothWays := by
  refine ⟨fun h w s hs hok happ hb => ?decodes, fun h w s t hs hok hl hb hex ha => ?encodes⟩
  case decodes =>
    obtain rfl := happ.unique (hdrEnc_appends h)
    exact readSide_map_readTo hok (decodeHeader_of_headerAt (headerAt_of_bytesAt hb))
  case encodes =>
    obtain ⟨-, a, c, hd, heq, -⟩ := readSide_map_done hex ha
    obtain rfl := Result.header.inj heq
    obtain ⟨hh, -⟩ := headerAt_of_decodeHeader hs.bufFilled hs.cursorLe hd
    obtain rfl := hb.unique (bytesAt_of_headerAt hh) hl
    exact hdrEnc_appends h

end Sys2Proof.Machine
end

section
/-! PROOFS. Questions and records, said once (45_question_record.md): what Q_ENC and RR_ENC append or
refuse, and the name, type and class that Q_DEC and RR_DEC both read first. -/

namespace Sys2Proof.Machine

/-! ## What Q_ENC and RR_ENC append (R151, R153) -/

theorem wireQuestion_length (q : Question) : (wireQuestion q).length = q.qname.length + 6 := by
  simp only [wireQuestion, List.length_append, wireName_length, be16_length]

theorem wireRecord_length (r : Record) :
    (wireRecord r).length = r.name.length + 12 + r.rdata.length := by
  simp only [wireRecord, List.length_append, wireName_length, be16_length, be32_length]

theorem writeU32_appends (v : Word32) : Appends (.writeU32 v) (be32 v) := fun _ => rfl

theorem qEnc_appends {q : Question} (h : ¬ TooLong q.qname) : Appends (.qEnc q) (wireQuestion q) :=
  appends_of_output (fun _ => rfl) (questionOutput_of_writable h)

theorem qEnc_refuses {q : Question} (h : TooLong q.qname) : Refuses (.qEnc q) :=
  refuses_of_output (output := questionOutput q) (fun _ => rfl)
    (if_neg fun hw => nameWritable_iff.1 hw h)

theorem Record.wf_iff {r : Record} : r.wf = true ↔ r.rdlength.toNat = r.rdata.length := beq_iff_eq

theorem rrEnc_appends {r : Record} (hw : r.rdlength.toNat = r.rdata.length) (h : ¬ TooLong r.name) :
    Appends (.rrEnc r) (wireRecord r) :=
  appends_of_output (fun _ => rfl) (recordOutput_of_writable hw h)

theorem rrEnc_refuses {r : Record} (h : r.rdlength.toNat ≠ r.rdata.length ∨ TooLong r.name) :
    Refuses (.rrEnc r) := by
  refine refuses_of_output (output := recordOutput r) (fun _ => rfl) (if_neg fun hw => ?_)
  obtain ⟨hwf, hname⟩ := Bool.and_eq_true_iff.1 hw
  exact h.elim (· (Record.wf_iff.1 hwf)) (nameWritable_iff.1 hname)

/-! ## A body that a faulted operation ran -/

/-- A read-side operation that recorded `f` with the cursor at `p` ran a body that raised so. -/
theorem raised_of_readSide_faultAt {α : Type} {x : Body α} {g : α → Result} {s : State} {p : Nat}
    {f : FaultInfo} (hx : x.Safe) (hs : s.Inv) (hok : s.rstatus = .ok)
    (h : readSide (x.map g) s = .next (s.faultAt p f)) :
    x s.buf s.cursor = .raised f { s.cursor with rpos := p } := by
  obtain ⟨a, e, ha⟩ | ⟨f', e, hf⟩ := hx.ends hs
  · have heq := Host.Outcome.next.inj ((readSide_map_readTo hok ha).symm.trans h)
    cases congrArg State.answer heq
  · have heq := Host.Outcome.next.inj ((readSide_map_faultAt hok hf).symm.trans h)
    cases congrArg State.rpos heq
    cases congrArg State.rstatus heq
    exact hf

/-! ## The fields that are cut off or hold no member's ordinal -/

theorem readType_needs : readType.Needs 2 := .bind_readU16 fun _ => .zero _

theorem readClass_needs : readClass.Needs 2 := .bind_readU16 fun _ => .zero _

theorem Body.Needs.bind_readU32 {α : Type} {f : Word32 → Body α} {n : Nat} (hf : ∀ v, (f v).Needs n) :
    (Body.bind readU32 f).Needs (n + 4) := by
  intro b c hb hp hn
  rcases Nat.lt_or_ge b.size (c.rpos + 4) with hlt | hle
  · exact Body.bind_raised (readU32_truncated hb hp hlt)
  · obtain ⟨v, hv⟩ := hb.u32At hle
    rw [Body.bind_ok (readU32_of_u32At hv)]
    exact hf v b { c with rpos := c.rpos + 4 } hb hle (by simp only; omega)

section
variable {b : Buf} {c : Cursor} {v : Word16}

theorem readType_of_unknown (hv : U16At b c.rpos v) (h : ∀ m, typeTab m ≠ v) :
    readType b c = .raised (.unknownEnumValue .type v) { c with rpos := c.rpos + 2 } := by
  rw [readType, Body.bind_ok (readU16_of_u16At hv), typeFrom_unknown h]
  rfl

theorem readClass_of_unknown (hv : U16At b c.rpos v) (h : ∀ m, classTab m ≠ v) :
    readClass b c = .raised (.unknownEnumValue .cls v) { c with rpos := c.rpos + 2 } := by
  rw [readClass, Body.bind_ok (readU16_of_u16At hv), classFrom_unknown h]
  rfl

end

/-! ## The body of an entry: name, type and class first (R152, R154) -/

/-- What Q_DEC and RR_DEC read: a name, a type, a class, and then `rest`. -/
def decodeEntry {α : Type} (rest : Name → RType → RClass → Body α) : Body α :=
  Body.bind readName fun n => Body.bind readType fun t => Body.bind readClass fun k => rest n t k

/-- What RR_DEC reads behind the class: time-to-live, length and payload. -/
def decodeRecordTail (n : Name) (t : RType) (k : RClass) : Body Record :=
  Body.bind readU32 fun ttl => Body.bind readU16 fun len => Body.bind (readBytes len.toNat) fun data =>
  Body.pure { name := n, type := t, cls := k, ttl := ttl, rdlength := len, rdata := data }

theorem decodeQuestion_eq :
    decodeQuestion = decodeEntry fun n t k => Body.pure { qname := n, qtype := t, qclass := k } := rfl

theorem decodeRecord_eq : decodeRecord = decodeEntry decodeRecordTail := rfl

theorem decodeRecordTail_needs (n : Name) (t : RType) (k : RClass) : (decodeRecordTail n t k).Needs 6 :=
  .bind_readU32 fun _ => .bind_readU16 fun _ => .zero _

/-- A payload longer than what remains takes all of it (41_cursor_read.md R104). -/
theorem decodeRecordTail_of_cutPayload {b : Buf} {c : Cursor} {n : Name} {t : RType} {k : RClass}
    {ttl : Word32} {len : Word16} (httl : U32At b c.rpos ttl) (hlen : U16At b (c.rpos + 4) len)
    (hlt : b.size < c.rpos + 6 + len.toNat) :
    decodeRecordTail n t k b c = .raised .truncatedMessage { c with rpos := b.size } := by
  have hle := hlen.le
  rw [decodeRecordTail, Body.bind_ok (readU32_of_u32At httl),
    Body.bind_ok (readU16_of_u16At (c := { c with rpos := c.rpos + 4 }) hlen)]
  exact Body.bind_raised (readBytes_truncated hle (by simp only; omega))

section
variable {α : Type} {rest : Name → RType → RClass → Body α} {b : Buf} {c : Cursor}
  {labels : List (List Byte)} {n : Nat} {ty : RType} {cl : RClass}

theorem decodeEntry_of_nameAt (hi : c.Idle) (hp : c.rpos ≤ b.size) (hn : NameAt b 0 c.rpos labels n) :
    decodeEntry rest b c = Body.bind readType (fun t => Body.bind readClass (rest (join dot labels) t)) b
      { c with rpos := n } :=
  Body.bind_ok (readName_of_nameAt hi hp hn)

theorem decodeEntry_of_typeAt (hi : c.Idle) (hp : c.rpos ≤ b.size) (hn : NameAt b 0 c.rpos labels n)
    (ht : U16At b n (typeTab ty)) :
    decodeEntry rest b c = Body.bind readClass (rest (join dot labels) ty) b { c with rpos := n + 2 } :=
  (decodeEntry_of_nameAt hi hp hn).trans
    (Body.bind_ok (readType_of_u16At (c := { c with rpos := n }) ht))

theorem decodeEntry_of_classAt (hi : c.Idle) (hp : c.rpos ≤ b.size) (hn : NameAt b 0 c.rpos labels n)
    (ht : U16At b n (typeTab ty)) (hc : U16At b (n + 2) (classTab cl)) :
    decodeEntry rest b c = rest (join dot labels) ty cl b { c with rpos := n + 4 } :=
  (decodeEntry_of_typeAt hi hp hn ht).trans
    (Body.bind_ok (readClass_of_u16At (c := { c with rpos := n + 2 }) hc))

end

/-! ## An operation that reads an entry (R152, R154) -/

section
variable {α : Type} {i : Instr} {g : α → Result} {rest : Name → RType → RClass → Body α} {s : State}

/-- A fault of READ_NAME is the operation's own, with RPOS where READ_NAME left it. -/
theorem entry_faults_as_readName (he : ∀ s, exec i s = readSide ((decodeEntry rest).map g) s)
    (hs : s.Inv) (hok : s.rstatus = .ok) {p : Nat} {f : FaultInfo}
    (h : exec .readName s = .next (s.faultAt p f)) : exec i s = .next (s.faultAt p f) :=
  (he s).trans (readSide_map_faultAt hok
    (Body.bind_raised (raised_of_readSide_faultAt readName_safe hs hok h)))

/-- Behind a name the type is read and checked, then the class; what holds behind both, `behind`, is left
to the operation. -/
theorem entry_checks_type_then_class (he : ∀ s, exec i s = readSide ((decodeEntry rest).map g) s)
    (hs : s.Inv) (hok : s.rstatus = .ok) {labels : List (List Byte)} {n : Nat}
    (hn : NameAt s.buf 0 s.rpos labels n) {behind : RType → RClass → Prop}
    (hbehind : ∀ ty cl, U16At s.buf n (typeTab ty) → U16At s.buf (n + 2) (classTab cl) → behind ty cl) :
    (s.size < n + 2 → exec i s = .next (s.faultAt s.size .truncatedMessage)) ∧
    (∀ v, U16At s.buf n v → (∀ ty, typeTab ty ≠ v) →
      exec i s = .next (s.faultAt (n + 2) (.unknownEnumValue .type v))) ∧
    ∀ ty, U16At s.buf n (typeTab ty) →
      (s.size < n + 4 → exec i s = .next (s.faultAt s.size .truncatedMessage)) ∧
      (∀ v, U16At s.buf (n + 2) v → (∀ cl, classTab cl ≠ v) →
        exec i s = .next (s.faultAt (n + 4) (.unknownEnumValue .cls v))) ∧
      ∀ cl, U16At s.buf (n + 2) (classTab cl) → behind ty cl := by
  have hname := decodeEntry_of_nameAt (rest := rest) hs.cursorIdle hs.cursorLe hn
  have faults {p : Nat} {f : FaultInfo}
      (h : decodeEntry rest s.buf s.cursor = .raised f { s.cursor with rpos := p }) :
      exec i s = .next (s.faultAt p f) := (he s).trans (readSide_map_faultAt hok h)
  refine ⟨fun hlt => faults ?cutType, fun v hv hun => faults ?unknownType, fun ty ht => ?known⟩
  case cutType => exact hname.trans (Body.bind_raised (readType_needs _ _ hs.bufFilled hn.le hlt))
  case unknownType =>
    exact hname.trans
      (Body.bind_raised (readType_of_unknown (c := { s.cursor with rpos := n }) hv hun))
  case known =>
    have htype := decodeEntry_of_typeAt (rest := rest) hs.cursorIdle hs.cursorLe hn ht
    refine ⟨fun hlt => faults ?cutClass, fun v hv hun => faults ?unknownClass,
      fun cl => hbehind ty cl ht⟩
    case cutClass => exact htype.trans (Body.bind_raised (readClass_needs _ _ hs.bufFilled ht.le hlt))
    case unknownClass =>
      exact htype.trans
        (Body.bind_raised (readClass_of_unknown (c := { s.cursor with rpos := n + 2 }) hv hun))

end

/-! ## Records that stand (R155) -/

theorem RecordAt.wf {b : Buf} {p e : Nat} {r : Record} (h : RecordAt b p r e) : r.wf = true := by
  obtain ⟨labels, n, -, -, -, -, -, -, hl, -, -⟩ := h
  exact Record.wf_iff.2 hl.symm

end Sys2Proof.Machine
end

section
/-! PROOFS. The statements of 45_question_record.md. -/

namespace Sys2Proof.Machine

/-- Settles O42: the decoder over the whole of an entry's wire form completes with the entry. -/
theorem entriesRoundTrip : Obligations.EntriesRoundTrip := by
  refine ⟨fun q hv => ⟨wireQuestion q, ?questionAppended, fun s hs hok hb => ?questionBack⟩,
    fun r hw hv => ⟨wireRecord r, ?recordAppended, fun s hs hok hb => ?recordBack⟩⟩
  case questionAppended => exact qEnc_appends (nameWritable_iff.1 (nameWritable_of_valid hv))
  case questionBack =>
    exact readSide_map_readTo hok ((decodeQuestion_decodes hv).whole hs.cursorIdle hb)
  case recordAppended =>
    exact rrEnc_appends (Record.wf_iff.1 hw) (nameWritable_iff.1 (nameWritable_of_valid hv))
  case recordBack =>
    exact readSide_map_readTo hok ((decodeRecord_decodes hw hv).whole hs.cursorIdle hb)

/-- Settles O38: the wire form of a question is the name's and the two ordinals'. -/
theorem questionEncodesItsParts : Obligations.QuestionEncodesItsParts := fun q =>
  ⟨⟨encQuestion q, rfl⟩, qEnc_refuses, fun h => ⟨_, _, _, writeName_appends h, writeU16_appends _,
    writeU16_appends _, qEnc_appends h, wireQuestion_length q⟩⟩

/-- Settles O40: the wire form of a record is that of its parts, and its payload as it is. -/
theorem recordEncodesItsPartsOrIsRefused : Obligations.RecordEncodesItsPartsOrIsRefused := fun r =>
  ⟨⟨encRecord r, rfl⟩, rrEnc_refuses, fun hw h => ⟨_, _, _, _, _, writeName_appends h,
    writeU16_appends _, writeU16_appends _, writeU32_appends _, writeU16_appends _, rrEnc_appends hw h,
    hw ▸ wireRecord_length r⟩⟩

/-- Settles O39: the fields are read and checked one after the other, and behind the class a question
stands. -/
theorem questionDecodesInOrder : Obligations.QuestionDecodesInOrder := by
  have he (s : State) : exec .qDec s = readSide (decodeQuestion.map .question) s := rfl
  rw [decodeQuestion_eq] at he
  refine ⟨⟨[], rfl⟩, fun s hs hok => ⟨fun p f => entry_faults_as_readName he hs hok, fun labels n hn =>
    entry_checks_type_then_class he hs hok hn fun ty cl ht hc => ?whole⟩⟩
  case whole =>
    exact readSide_map_readTo hok
      (decodeQuestion_of_questionAt hs.cursorIdle hs.cursorLe ⟨labels, n, hn, rfl, ht, hc, rfl⟩)

/-- Settles O41: the fields are read and checked one after the other; behind the class the room for
time-to-live and length, and then that for the payload, decides whether a record stands. -/
theorem recordDecodesInOrder : Obligations.RecordDecodesInOrder := by
  have he (s : State) : exec .rrDec s = readSide (decodeRecord.map .record) s := rfl
  rw [decodeRecord_eq] at he
  refine ⟨⟨[], rfl⟩, fun s hs hok => ⟨fun p f => entry_faults_as_readName he hs hok,
    fun t r h ha => ?wellFormed, fun labels n hn =>
    entry_checks_type_then_class he hs hok hn fun ty cl ht hc => ?behind⟩⟩
  case wellFormed =>
    obtain ⟨-, r', c, hd, heq, -⟩ := readSide_map_done h ha
    obtain rfl := Result.record.inj heq
    obtain ⟨e, hr, -⟩ := recordAt_of_decodeRecord hs.bufFilled hs.cursorIdle hs.cursorLe hd
    exact hr.wf
  case behind =>
    have hclass := decodeEntry_of_classAt (rest := decodeRecordTail) hs.cursorIdle hs.cursorLe hn ht hc
    refine ⟨fun hlt => ?cutFields, fun ttl len httl hlen => ⟨fun hlt => ?cutPayload,
      fun data hl hd => ?whole⟩⟩
    case cutFields =>
      exact readSide_map_faultAt hok
        (hclass.trans (decodeRecordTail_needs _ _ _ _ _ hs.bufFilled hc.le hlt))
    case cutPayload =>
      exact readSide_map_faultAt hok (hclass.trans
        (decodeRecordTail_of_cutPayload (c := { s.cursor with rpos := n + 4 }) httl hlen hlt))
    case whole =>
      exact readSide_map_readTo hok (decodeRecord_of_recordAt hs.cursorIdle hs.cursorLe
        ⟨labels, n, hn, rfl, ht, hc, httl, hlen, hl, hd, by rw [hl]⟩)

end Sys2Proof.Machine
end

section
/-! PROOFS. Messages, said once (46_message.md): what MSG_ENC and SERIALIZE make of a message, what every
decoded message is, and that the body of MSG_DEC behind the header is the issuing of its operations. -/

namespace Sys2Proof.Machine

/-! ## What MSG_ENC appends (R171) -/

theorem msgEnc_appends {m : Message} (hw : m.wf = true) (h : ∀ n ∈ messageNames m, ¬ TooLong n) :
    Appends (.msgEnc m) (wireMessage m) :=
  appends_of_output (fun _ => rfl) (messageOutput_of_writable hw h)

theorem msgEnc_refuses {m : Message} (h : m.wf = false ∨ ∃ n ∈ messageNames m, TooLong n) :
    Refuses (.msgEnc m) := by
  refine refuses_of_output (output := messageOutput m) (fun _ => rfl) (if_neg fun hw => ?_)
  obtain ⟨hwf, hnames⟩ := Bool.and_eq_true_iff.1 hw
  obtain hbad | ⟨n, hn, hlong⟩ := h
  · exact Bool.false_ne_true (hbad.symm.trans hwf)
  · exact messageWritable_iff.1 hnames n hn hlong

/-- The names of a message, section by section. -/
theorem forall_messageNames {m : Message} {P : Name → Prop} : (∀ n ∈ messageNames m, P n) ↔
    (∀ q ∈ m.qd, P q.qname) ∧ (∀ r ∈ m.an, P r.name) ∧ (∀ r ∈ m.ns, P r.name) ∧
    ∀ r ∈ m.ar, P r.name := by
  simp only [messageNames, List.map_append, List.forall_mem_append, List.forall_mem_map, and_assoc]

/-- Every name of a round-trippable message can be written. -/
theorem not_tooLong_of_roundTrippable {m : Message} (hm : m.roundTrippable = true) :
    ∀ n ∈ messageNames m, ¬ TooLong n := by
  have hvalid := (forall_messageNames (P := fun n => validName n = true)).2 (roundTrippable_iff.1 hm).2
  exact fun n hn => nameWritable_iff.1 (nameWritable_of_valid (hvalid n hn))

/-- The entries of a section, each appended by its own operation. -/
theorem forall₂_appends_map {α : Type} {op : α → Instr} {enc : α → List Byte} {as : List α}
    (h : ∀ a ∈ as, Appends (op a) (enc a)) :
    List.Forall₂ (fun a w => Appends (op a) w) as (as.map enc) :=
  List.forall₂_map_right_iff.2 (List.forall₂_same.2 h)

theorem flatMap_wireQuestion_length (qs : List Question) :
    (qs.flatMap wireQuestion).length = (qs.map fun q => q.qname.length + 6).sum := by
  simp only [List.length_flatMap, wireQuestion_length]

theorem flatMap_wireRecord_length {rs : List Record} (h : ∀ r ∈ rs, r.wf = true) :
    (rs.flatMap wireRecord).length = (rs.map fun r => r.name.length + 12 + r.rdlength.toNat).sum := by
  rw [List.length_flatMap]
  refine congrArg List.sum (List.map_congr_left fun r hr => ?_)
  rw [wireRecord_length, Record.wf_iff.1 (h r hr)]

theorem wireMessage_length {m : Message} (hw : m.wf = true) :
    (wireMessage m).length = 12 + (m.qd.map fun q => q.qname.length + 6).sum +
      ((m.an ++ m.ns ++ m.ar).map fun r => r.name.length + 12 + r.rdlength.toNat).sum := by
  obtain ⟨-, -, -, -, han, hns, har⟩ := Message.wf_iff.1 hw
  simp only [wireMessage, List.length_append, wireHeader_length, flatMap_wireQuestion_length,
    flatMap_wireRecord_length han, flatMap_wireRecord_length hns, flatMap_wireRecord_length har,
    List.map_append, List.sum_append, Nat.add_assoc]

/-! ## SERIALIZE (R178) -/

theorem serialize_of_some {m : Message} {w : List Byte} (h : messageOutput m = some w) (s : State) :
    exec (.serialize m) s = .next (State.answered { s with tx := w } (.done (.bytes w))) := by
  show execSerialize m s = _
  rw [execSerialize, h]
  rfl

theorem serialize_of_none {m : Message} (h : messageOutput m = none) (s : State) :
    exec (.serialize m) s = .next (State.answered { s with tx := [] } .refused) := by
  show execSerialize m s = _
  rw [execSerialize, h]
  rfl

/-! ## DESERIALIZE (R177) -/

/-- The last answer is nothing to a read-side operation. -/
theorem readSide_respond {body : Body Result} {s t : State} (r : Response)
    (h : readSide body s = .next t) : readSide body (s.respond r) = .next t := by
  obtain ⟨f, hf, rfl⟩ | ⟨v, c, hok, hb, rfl⟩ | ⟨f, c, hok, hb, rfl⟩ := readSide_cases h
  · exact readSide_sticky hf
  · exact readSide_done hok hb
  · exact readSide_fault hok hb

/-! ## What a body can return -/

/-- Every value the body completes with meets `P`, in any buffer. -/
def Body.Yields {α : Type} (P : α → Prop) (x : Body α) : Prop :=
  ∀ b c a c', x b c = .ok a c' → P a

theorem Body.Yields.pure {α : Type} {P : α → Prop} {a : α} (h : P a) : (Body.pure a).Yields P := by
  intro b c a' c' hr
  cases hr
  exact h

theorem Body.Yields.bind {α β : Type} {P : α → Prop} {Q : β → Prop} {x : Body α} {f : α → Body β}
    (hx : x.Yields P) (hf : ∀ a, P a → (f a).Yields Q) : (Body.bind x f).Yields Q := by
  intro b c v c' h
  obtain ⟨a, c1, h1, h2⟩ := Body.bind_eq_ok.1 h
  exact hf a (hx b c a c1 h1) b c1 v c' h2

theorem Body.yields_true {α : Type} (x : Body α) : x.Yields fun _ => True :=
  fun _ _ _ _ _ => True.intro

/-- Whatever the first part returns. -/
theorem Body.Yields.bind_any {α β : Type} {Q : β → Prop} {x : Body α} {f : α → Body β}
    (hf : ∀ a, (f a).Yields Q) : (Body.bind x f).Yields Q :=
  (Body.yields_true x).bind fun a _ => hf a

/-- A repetition returns as many values as it was asked for, each of them one of the body's. -/
theorem Body.Yields.times {α : Type} {P : α → Prop} {x : Body α} (hx : x.Yields P) (n : Nat) :
    (Body.times x n).Yields fun as => as.length = n ∧ ∀ a ∈ as, P a := by
  induction n with
  | zero => exact .pure ⟨rfl, by simp⟩
  | succ n ih =>
    exact hx.bind fun a ha => ih.bind fun as ⟨hl, has⟩ =>
      .pure ⟨by rw [List.length_cons, hl], List.forall_mem_cons.2 ⟨ha, has⟩⟩

/-- RR_DEC reads a payload as long as the length it has read (45_question_record.md R155). -/
theorem decodeRecord_yields : decodeRecord.Yields fun r => r.wf = true :=
  .bind_any fun _ => .bind_any fun _ => .bind_any fun _ => .bind_any fun _ => .bind_any fun len =>
  ((Body.yields_true readU8).times len.toNat).bind fun _ ⟨hl, _⟩ => .pure (Record.wf_iff.2 hl.symm)

/-- Every section is read as often as its count says (R174). -/
theorem decodeMessage_yields : decodeMessage.Yields fun m => m.wf = true :=
  .bind_any fun _ =>
  ((Body.yields_true decodeQuestion).times _).bind fun _ ⟨lqd, _⟩ =>
  (decodeRecord_yields.times _).bind fun _ ⟨lan, han⟩ =>
  (decodeRecord_yields.times _).bind fun _ ⟨lns, hns⟩ =>
  (decodeRecord_yields.times _).bind fun _ ⟨lar, har⟩ =>
  .pure (Message.wf_iff.2 ⟨lqd.symm, lan.symm, lns.symm, lar.symm, han, hns, har⟩)

/-! ## A body as the issuing of operations (R172) -/

/-- A body that ends as the read-side operations `is`, issued one after the other, end: it completes in
their last state, and `P` says its value and their answers; or it raises the fault they end with. -/
structure Body.Issues {α : Type} (x : Body α) (is : List Instr) (P : α → List Response → Prop) :
    Prop where
  reads : ∀ i ∈ is, readSideOp i = true
  ends : ∀ s : State, s.Inv → s.rstatus = .ok →
    (∃ a e rs u, x s.buf s.cursor = .ok a { s.cursor with rpos := e } ∧ P a rs ∧ Runs is s rs u ∧
      u.Inv ∧ u = { s with rpos := e, answer := u.answer }) ∨
    ∃ f e rs, x s.buf s.cursor = .raised f { s.cursor with rpos := e } ∧ Runs is s rs (s.faultAt e f)

theorem Body.Issues.pure {α : Type} {P : α → List Response → Prop} {a : α} (h : P a []) :
    (Body.pure a).Issues [] P where
  reads := by simp
  ends s hs _ := .inl ⟨a, s.rpos, [], s, rfl, h, .nil s, hs, rfl⟩

/-- Operations behind a fault are answered with it, and change nothing (60_exceptions.md R191). -/
theorem Runs.append_sticky {is js : List Instr} {s t : State} {rs : List Response} {e : Nat}
    {f : FaultInfo} (h : Runs is s rs (t.faultAt e f)) (hj : ∀ j ∈ js, readSideOp j = true) :
    ∃ rs, Runs (is ++ js) s rs (t.faultAt e f) := by
  obtain ⟨qs, hq⟩ := Runs.sticky hj (s := t.faultAt e f) rfl rfl
  exact ⟨_, h.append hq⟩

/-- Two bodies in order are their operations in order. -/
theorem Body.Issues.bind {α β : Type} {x : Body α} {f : α → Body β} {is js : List Instr}
    {P : α → List Response → Prop} {Q : β → List Response → Prop} (hx : x.Issues is P)
    (hj : ∀ j ∈ js, readSideOp j = true)
    (hf : ∀ a rs, P a rs → (f a).Issues js fun b qs => Q b (rs ++ qs)) :
    (Body.bind x f).Issues (is ++ js) Q where
  reads := List.forall_mem_append.2 ⟨hx.reads, hj⟩
  ends := by
    intro s hs hok
    obtain ⟨a, p, rs, t, hb, hP, hr, ht, hts⟩ | ⟨e, p, rs, hb, hr⟩ := hx.ends s hs hok
    · have hbuf : t.buf = s.buf := by rw [hts]; rfl
      have hcur : t.cursor = { s.cursor with rpos := p } := by rw [hts]; rfl
      have hrun : Body.bind x f s.buf s.cursor = f a t.buf t.cursor := by
        rw [Body.bind_ok hb, hbuf, hcur]
      obtain ⟨b, e, qs, u, hb', hQ, hr', hu, hut⟩ | ⟨k, e, qs, hb', hr'⟩ :=
        (hf a rs hP).ends t ht (by rw [hts]; exact hok)
      · exact .inl ⟨b, e, rs ++ qs, u, by rw [hrun, hb', hcur], hQ, hr.append hr', hu,
          by rw [hut, hts]⟩
      · have hfault : t.faultAt e k = s.faultAt e k := by rw [hts]; rfl
        exact .inr ⟨k, e, rs ++ qs, by rw [hrun, hb', hcur], hfault ▸ hr.append hr'⟩
    · obtain ⟨qs, hq⟩ := hr.append_sticky hj
      exact .inr ⟨e, p, qs, Body.bind_raised hb, hq⟩

/-- What follows reads nothing. -/
theorem Body.Issues.bind_pure {α β : Type} {x : Body α} {g : α → β} {is : List Instr}
    {P : α → List Response → Prop} {Q : β → List Response → Prop} (hx : x.Issues is P)
    (h : ∀ a rs, P a rs → Q (g a) rs) : (Body.bind x fun a => Body.pure (g a)).Issues is Q := by
  have hbind := hx.bind (js := []) (by simp) (Q := Q) fun a rs hP =>
    .pure (a := g a) (by rw [List.append_nil]; exact h a rs hP)
  rwa [List.append_nil] at hbind

/-- A repeated body is its operation issued as often. -/
theorem Body.Issues.times {α : Type} {x : Body α} {g : α → Result} {i : Instr} (hx : x.Safe)
    (hl : x.Raises faultLegal) (he : ∀ s, exec i s = readSide (x.map g) s)
    (hi : readSideOp i = true) (n : Nat) : (Body.times x n).Issues (List.replicate n i)
      fun as rs => as.length = n ∧ rs = as.map fun a => .done (g a) where
  reads j hj := by rw [List.eq_of_mem_replicate hj]; exact hi
  ends s hs hok := by
    obtain ⟨as, e, u, hb, hn, hr, hu, hus⟩ | hraised := Runs.of_times hx hl he hi n s hs hok
    · exact .inl ⟨as, e, _, u, hb, ⟨hn, rfl⟩, hr, hu, hus⟩
    · exact .inr hraised

theorem decodeQuestion_issues (n : Nat) : (Body.times decodeQuestion n).Issues
    (List.replicate n .qDec) fun qs rs => qs.length = n ∧ rs = qs.map fun q => .done (.question q) :=
  .times decodeQuestion_safe decodeQuestion_legal (fun _ => rfl) rfl n

theorem decodeRecord_issues (n : Nat) : (Body.times decodeRecord n).Issues
    (List.replicate n .rrDec) fun rrs rs => rrs.length = n ∧ rs = rrs.map fun r => .done (.record r) :=
  .times decodeRecord_safe decodeRecord_legal (fun _ => rfl) rfl n

/-! ## MSG_DEC behind its header (R172) -/

/-- What MSG_DEC reads once it has the header. -/
def decodeSections (h : Header) : Body Message :=
  Body.bind (Body.times decodeQuestion h.qdcount.toNat) fun qd =>
  Body.bind (Body.times decodeRecord h.ancount.toNat) fun an =>
  Body.bind (Body.times decodeRecord h.nscount.toNat) fun ns =>
  Body.bind (Body.times decodeRecord h.arcount.toNat) fun ar =>
  Body.pure { hdr := h, qd := qd, an := an, ns := ns, ar := ar }

theorem decodeMessage_eq : decodeMessage = Body.bind decodeHeader decodeSections := rfl

/-- The message is made of the answers to the operations behind its header. -/
def MadeOf (h : Header) (m : Message) (rs : List Response) : Prop :=
  m.hdr = h ∧
  rs = (m.qd.map fun q => .done (.question q)) ++
    ((m.an ++ m.ns ++ m.ar).map fun r => .done (.record r)) ∧
  m.qd.length = h.qdcount.toNat ∧ m.an.length = h.ancount.toNat ∧
  m.ns.length = h.nscount.toNat ∧ m.ar.length = h.arcount.toNat

theorem decodeSections_issues (h : Header) :
    (decodeSections h).Issues (messageOps h) (MadeOf h) := by
  have records (n : Nat) := (decodeRecord_issues n).reads
  rw [messageOps, List.append_assoc, List.append_assoc]
  refine (decodeQuestion_issues _).bind
    (List.forall_mem_append.2 ⟨records _, List.forall_mem_append.2 ⟨records _, records _⟩⟩) ?_
  rintro qd _ ⟨lqd, rfl⟩
  refine (decodeRecord_issues _).bind (List.forall_mem_append.2 ⟨records _, records _⟩) ?_
  rintro an _ ⟨lan, rfl⟩
  refine (decodeRecord_issues _).bind (records _) ?_
  rintro ns _ ⟨lns, rfl⟩
  refine (decodeRecord_issues _).bind_pure ?_
  rintro ar _ ⟨lar, rfl⟩
  exact ⟨rfl, by simp only [List.map_append, List.append_assoc], lqd, lan, lns, lar⟩

/-- A read-side operation that completed at `p` ran a body that did. -/
theorem ok_of_readSide_readTo {α : Type} {x : Body α} {g : α → Result} {s : State} {p : Nat}
    {r : Result} (h : readSide (x.map g) s = .next (s.readTo p r)) :
    ∃ a, r = g a ∧ x s.buf s.cursor = .ok a { s.cursor with rpos := p } := by
  obtain ⟨-, a, c, hb, hr, ht⟩ := readSide_map_done h rfl
  have hc : { s.cursor with rpos := p } = c := congrArg State.cursor ht
  exact ⟨a, hr, hc ▸ hb⟩

end Sys2Proof.Machine
end

section
/-! PROOFS. The statements of 46_message.md. -/

namespace Sys2Proof.Machine

/-- Settles O50: what SERIALIZE answers is the message's wire form, and the decoder over the whole of it
completes with the message. -/
theorem messageRoundTrips : Obligations.MessageRoundTrips := by
  intro m s s' hm
  have hout := messageOutput_of_writable (roundTrippable_iff.1 hm).1
    (not_tooLong_of_roundTrippable hm)
  refine ⟨wireMessage m, serialize_of_some hout s, fun hs hcap => ?_⟩
  have hdecode := (decodeMessage_decodes hm).whole (hs.loaded hcap).cursorIdle
    (bytesAt_loaded s' (wireMessage m) _ rfl rfl)
  exact ⟨_, (execDeserialize_of_le hcap s').trans (readSide_map_readTo rfl hdecode), rfl,
    Nat.zero_add _, rfl, rfl, rfl⟩

/-- Settles O43: the wire form of a message is that of its parts in order. -/
theorem messageEncodesItsPartsOrIsRefused : Obligations.MessageEncodesItsPartsOrIsRefused := by
  intro m
  refine ⟨⟨encMessage m, rfl⟩, msgEnc_refuses, fun hw h => ?_⟩
  obtain ⟨-, -, -, -, wan, wns, war⟩ := Message.wf_iff.1 hw
  obtain ⟨nqd, nan, nns, nar⟩ := forall_messageNames.1 h
  have records {rs : List Record} (hwf : ∀ r ∈ rs, r.wf = true) (hn : ∀ r ∈ rs, ¬ TooLong r.name) :=
    forall₂_appends_map (op := .rrEnc) (enc := wireRecord) fun r hr =>
      rrEnc_appends (Record.wf_iff.1 (hwf r hr)) (hn r hr)
  exact ⟨wireHeader m.hdr, _, _, _, _, hdrEnc_appends m.hdr,
    forall₂_appends_map fun q hq => qEnc_appends (nqd q hq),
    records wan nan, records wns nns, records war nar, msgEnc_appends hw h, wireMessage_length hw⟩

/-- Settles O44: behind the header MSG_DEC's body is the issuing of the operations its counts ask for. -/
theorem messageDecodeIsItsSequenceOfOperations :
    Obligations.MessageDecodeIsItsSequenceOfOperations := by
  refine ⟨⟨[], rfl⟩, fun s hs hok => ?_⟩
  obtain ⟨t, ht⟩ := exec_next .msgDec s
  refine ⟨t, ht, fun p f hf => ?badHeader, fun p h hh => ?header⟩
  case badHeader =>
    have hraised := raised_of_readSide_faultAt decodeHeader_safe hs hok hf
    exact Host.Outcome.next.inj
      (ht.symm.trans (readSide_map_faultAt hok (Body.bind_raised hraised)))
  case header =>
    obtain ⟨h', heq, hread⟩ := ok_of_readSide_readTo hh
    obtain rfl := Result.header.inj heq
    have hbody : decodeMessage s.buf s.cursor =
        decodeSections h s.buf { s.cursor with rpos := p } := by
      rw [decodeMessage_eq, Body.bind_ok hread]
    obtain ⟨m, e, rs, u, hb, ⟨hhdr, hrs, hlens⟩, hr, -, hu⟩ | ⟨f, e, rs, hb, hr⟩ :=
      (decodeSections_issues h).ends _ (exec_inv hs hh) hok
    · have htm := Host.Outcome.next.inj
        (ht.symm.trans (readSide_map_readTo hok (hbody.trans hb)))
      exact ⟨rs, u, hr, .inr ⟨m, by rw [htm, hu]; rfl, by rw [hu]; exact hok, hhdr, hrs, hlens⟩⟩
    · have htf := Host.Outcome.next.inj
        (ht.symm.trans (readSide_map_faultAt hok (hbody.trans hb)))
      exact ⟨rs, _, hr, .inl ⟨f, by rw [htf]; rfl, htf.symm⟩⟩

/-- Settles O45: MSG_DEC's body completes exactly where a message stands. -/
theorem messageDecodesExactlyWhatStands : Obligations.MessageDecodesExactlyWhatStands := by
  refine fun s hs hok => ⟨fun m e hm => ?stands, fun t r ht ha => ?completes⟩
  case stands => exact readSide_map_readTo hok (decodeMessage_of_messageAt hs.cursorIdle hm)
  case completes =>
    obtain ⟨-, m, c, hb, -, rfl⟩ := readSide_map_done ht ha
    obtain ⟨e, hm, rfl⟩ := messageAt_of_decodeMessage hs.bufFilled hs.cursorIdle hs.cursorLe hb
    exact ⟨m, e, hm, rfl⟩

/-- Settles O46: the counts say how often each section is read, and a record's length how many bytes. -/
theorem decodedMessagesAreWellFormed : Obligations.DecodedMessagesAreWellFormed := by
  intro s t m ht ha
  obtain ⟨-, m', c, hb, heq, -⟩ := readSide_map_done ht ha
  obtain rfl := Result.message.inj heq
  exact decodeMessage_yields _ _ _ _ hb

/-- Settles O47: the answer is the request message, the same in every state. -/
theorem buildRequestWrapsTheQuestion : Obligations.BuildRequestWrapsTheQuestion := fun id q =>
  ⟨⟨be16 id ++ encQuestion q, rfl⟩, requestMessage id q, rfl, rfl, rfl, rfl, rfl, rfl, fun _ => rfl⟩

/-- Settles O48: a load answers and MSG_DEC does not look at the answer. -/
theorem deserializeIsLoadThenDecode : Obligations.DeserializeIsLoadThenDecode := by
  refine fun data => ⟨fun hlt s => execDeserialize_of_lt hlt s, fun hle s => ?_⟩
  obtain ⟨u, hu⟩ := readSide_answers (decodeMessage.map .message) (s.loaded data)
  exact ⟨_, u, execLoadRx_of_le hle s, readSide_respond (.done .none) hu,
    (execDeserialize_of_le hle s).trans hu⟩

/-- Settles O49: CLEAR_TX leaves TX empty, so that what MSG_ENC appends to it is all of it. -/
theorem serializeIsClearThenEncode : Obligations.SerializeIsClearThenEncode := by
  refine fun m => ⟨fun hw h => ⟨wireMessage m, msgEnc_appends hw h,
    serialize_of_some (messageOutput_of_writable hw h)⟩, fun s => ?_⟩
  cases hout : messageOutput m with
  | some w =>
    have happ : Appends (.msgEnc m) w := appends_of_output (fun _ => rfl) hout
    exact ⟨_, _, rfl, happ _, nofun, fun _ => serialize_of_some hout s⟩
  | none =>
    have href : Refuses (.msgEnc m) := refuses_of_output (fun _ => rfl) hout
    exact ⟨_, _, rfl, href _, fun _ => serialize_of_none hout s, nofun⟩

end Sys2Proof.Machine
end

section
/-! PROOFS. Faults and refusals, said once (60_exceptions.md): what is answered once a fault is recorded,
which faults each side of the instruction set answers with, and which commands are refused. -/

namespace Sys2Proof.Machine

/-! ## A recorded fault (R191) -/

/-- Of the effects of an instruction, only RESET, LOAD_RX and DESERIALIZE replace a recorded fault. -/
theorem exec_keeps_fault {i : Instr} {s t : State} {f : FaultInfo} (hs : s.rstatus = .fault f)
    (hreset : i ≠ .reset) (hload : ∀ data, i ≠ .loadRx data) (hdeser : ∀ data, i ≠ .deserialize data)
    (h : exec i s = .next t) : t.rstatus = .fault f := by
  cases exec_effect h with
  | gate body _ _ _ hr =>
    cases (readSide_sticky hs).symm.trans hr
    exact hs
  | append w => exact hs
  | answer r => exact hs
  | reset hi => exact absurd hi hreset
  | load data hi => exact absurd hi (hload data)
  | clear => exact hs
  | serialize m w r => exact hs
  | deserialize data _ hi => exact absurd hi (hdeser data)

/-! ## Which faults an operation is answered with (R187) -/

theorem readFlags_error {w : Word16} {f : FaultInfo} (h : readFlags w = .error f) :
    (∃ v, f = .unknownEnumValue .opcode v) ∨ ∃ v, f = .unknownEnumValue .rcode v := by
  cases hop : opcodeFrom (opcodeBits w) with
  | error e =>
    simp only [readFlags, hop, Except.error.injEq] at h
    exact .inl ⟨_, h ▸ (memberOrFault_error hop).2⟩
  | ok op =>
    cases hrc : rcodeFrom (rcodeBits w) with
    | error e =>
      simp only [readFlags, hop, hrc, Except.error.injEq] at h
      exact .inr ⟨_, h ▸ (memberOrFault_error hrc).2⟩
    | ok rc => simp only [readFlags, hop, hrc, reduceCtorEq] at h

section
variable {P : FaultInfo → Prop}

theorem Body.Raises.of_truncated {α : Type} {x : Body α} (hx : x.Raises isTruncated)
    (hP : P .truncatedMessage) : x.Raises P := hx.mono fun _ hf => hf ▸ hP

theorem forall_isNameFault (htrunc : P .truncatedMessage) (hlabel : P .invalidLabelEncoding)
    (hlimit : P .pointerLimitExceeded) : ∀ f, isNameFault f → P f := by
  rintro _ (rfl | rfl | rfl) <;> assumption

theorem decodeHeader_raises (htrunc : P .truncatedMessage) (hop : ∀ v, P (.unknownEnumValue .opcode v))
    (hrc : ∀ v, P (.unknownEnumValue .rcode v)) : decodeHeader.Raises P := by
  have h16 : readU16.Raises P := readU16_raises.of_truncated htrunc
  refine h16.bind fun _ => h16.bind fun w => (Body.Raises.ofExcept fun f hf => ?flags).bind fun _ =>
    h16.bind fun _ => h16.bind fun _ => h16.bind fun _ => h16.bind fun _ => .pure _
  case flags =>
    obtain ⟨v, rfl⟩ | ⟨v, rfl⟩ := readFlags_error hf
    · exact hop v
    · exact hrc v

/-- Behind its name an entry raises for its two enumerations, and then what follows them. -/
theorem decodeEntry_raises {α : Type} {rest : Name → RType → RClass → Body α}
    (hname : ∀ f, isNameFault f → P f) (htype : ∀ v, P (.unknownEnumValue .type v))
    (hcls : ∀ v, P (.unknownEnumValue .cls v)) (hrest : ∀ n t k, (rest n t k).Raises P) :
    (decodeEntry rest).Raises P := by
  have h16 : readU16.Raises P := readU16_raises.of_truncated (hname _ (.inl rfl))
  refine (readName_raises.mono hname).bind fun n =>
    (h16.bind fun t => .ofExcept fun f hf => ?type).bind fun t =>
    (h16.bind fun k => .ofExcept fun f hf => ?cls).bind fun k => hrest n t k
  case type => exact (memberOrFault_error hf).2 ▸ htype _
  case cls => exact (memberOrFault_error hf).2 ▸ hcls _

theorem decodeRecordTail_raises (htrunc : P .truncatedMessage) (n : Name) (t : RType) (k : RClass) :
    (decodeRecordTail n t k).Raises P :=
  (readU32_raises.of_truncated htrunc).bind fun _ => (readU16_raises.of_truncated htrunc).bind fun _ =>
  ((readBytes_raises _).of_truncated htrunc).bind fun _ => .pure _

end

/-- The instruction is the gate around a body that raises only what the table gives it. -/
def RaisesByTable (i : Instr) : Prop := ∃ body : Body Result,
  (body.Raises fun f => mayRaise i f = true) ∧ ∀ s, exec i s = readSide body s

theorem raisesByTable {i : Instr} {α : Type} (x : Body α) (g : α → Result)
    (hx : x.Raises fun f => mayRaise i f = true) (he : ∀ s, exec i s = readSide (x.map g) s) :
    RaisesByTable i := ⟨x.map g, hx.map g, he⟩

/-- The read-side operations by their rows of the table. -/
theorem readSideOp_raises {i : Instr} (h : readSideOp i = true) : RaisesByTable i := by
  cases i
  case readU8 => exact raisesByTable readU8 .u8 (readU8_raises.of_truncated rfl) fun _ => rfl
  case readU16 => exact raisesByTable readU16 .u16 (readU16_raises.of_truncated rfl) fun _ => rfl
  case readU32 => exact raisesByTable readU32 .u32 (readU32_raises.of_truncated rfl) fun _ => rfl
  case readBytes n =>
    exact raisesByTable (readBytes n.toNat) .bytes ((readBytes_raises _).of_truncated rfl) fun _ => rfl
  case setPosition p =>
    exact raisesByTable (setPosition p) (fun _ => .none) ((setPosition_raises p).of_truncated rfl)
      fun _ => rfl
  case readName =>
    exact raisesByTable readName .name (readName_raises.mono (forall_isNameFault rfl rfl rfl))
      fun _ => rfl
  case hdrDec =>
    exact raisesByTable decodeHeader .header (decodeHeader_raises rfl (fun _ => rfl) fun _ => rfl)
      fun _ => rfl
  case qDec =>
    exact raisesByTable decodeQuestion .question (decodeEntry_raises (forall_isNameFault rfl rfl rfl)
      (fun _ => rfl) (fun _ => rfl) fun _ _ _ => .pure _) fun _ => rfl
  case rrDec =>
    exact raisesByTable decodeRecord .record (decodeEntry_raises (forall_isNameFault rfl rfl rfl)
      (fun _ => rfl) (fun _ => rfl) (decodeRecordTail_raises rfl)) fun _ => rfl
  case msgDec => exact raisesByTable decodeMessage .message (fun _ _ _ _ _ => rfl) fun _ => rfl
  all_goals exact absurd h Bool.false_ne_true

/-- With RSTATUS OK, a read-side operation answers only with a fault its body raised. -/
theorem fault_of_readSide {body : Body Result} {P : FaultInfo → Prop} (hb : body.Raises P) {s t : State}
    {f : FaultInfo} (hok : s.rstatus = .ok) (h : readSide body s = .next t)
    (ha : t.answer = some (.fault f)) : P f := by
  obtain ⟨f', hf, -⟩ | ⟨r, c, -, -, rfl⟩ | ⟨f', c, -, hr, rfl⟩ := readSide_cases h
  · cases hok.symm.trans hf
  · cases ha
  · cases ha
    exact hb _ _ _ _ hr

theorem writeSide_never_faults {output : Option (List Byte)} {s t : State} {f : FaultInfo}
    (h : writeSide output s = .next t) : t.answer ≠ some (.fault f) := by
  obtain ⟨bs, -, rfl⟩ | ⟨-, rfl⟩ := writeSide_cases h <;> exact nofun

theorem pureOrRefuse_never_faults {output : Option Result} {s t : State} {f : FaultInfo}
    (h : pureOrRefuse output s = .next t) : t.answer ≠ some (.fault f) := by
  obtain ⟨r, -, rfl⟩ | ⟨-, rfl⟩ := pureOrRefuse_cases h <;> exact nofun

/-- A pure operation answers only with the fault that is its value. -/
theorem error_of_pureSide {α : Type} {g : α → Result} {v : Except FaultInfo α} {s t : State}
    {f : FaultInfo} (h : pureSide g v s = .next t) (ha : t.answer = some (.fault f)) : v = .error f := by
  obtain ⟨a, -, rfl⟩ | ⟨f', hv, rfl⟩ := pureSide_cases h <;> cases ha
  exact hv

/-- A byte of class `00` is a terminator or a label (30_encoding.md R58). -/
theorem elementOf_class00 (len : BitVec 6) (second : Byte) :
    ∃ e, elementOf (elementByte 0b00#2 len) second = .ok e := by
  by_cases hlen : len = 0
  · exact ⟨.terminator, by rw [hlen]; rfl⟩
  · exact ⟨.label len, elementOf_label hlen second⟩

/-- An instruction that completes with a result is not answered with a fault. -/
theorem done_never_faults {i : Instr} {s t : State} {r : Result} {f : FaultInfo}
    (hd : exec i s = .next (s.answered (.done r))) (h : exec i s = .next t) :
    t.answer ≠ some (.fault f) := by
  cases hd.symm.trans h
  exact nofun

/-- The pure operations that are answered with a fault are the conversions, the flags row and the rows of
an undefined name element (40_enums.md R80, 42_name_decode.md R116). -/
theorem pureOp_fault {i : Instr} {s t : State} {f : FaultInfo} (hi : pureOp i = true)
    (h : exec i s = .next t) (ha : t.answer = some (.fault f)) : mayRaise i f = true ∧ faultLegal f := by
  cases i
  case opcodeFrom o =>
    have hv := error_of_pureSide h ha
    exact ⟨(memberOrFault_error hv).2 ▸ rfl, faultLegal_of_opcodeFrom hv⟩
  case rcodeFrom o =>
    have hv := error_of_pureSide h ha
    exact ⟨(memberOrFault_error hv).2 ▸ rfl, faultLegal_of_rcodeFrom hv⟩
  case typeFrom o =>
    have hv := error_of_pureSide h ha
    exact ⟨(memberOrFault_error hv).2 ▸ rfl, faultLegal_of_typeFrom hv⟩
  case classFrom o =>
    have hv := error_of_pureSide h ha
    exact ⟨(memberOrFault_error hv).2 ▸ rfl, faultLegal_of_classFrom hv⟩
  case wireFlags w =>
    have hv := error_of_pureSide h ha
    refine ⟨?_, faultLegal_of_readFlags hv⟩
    obtain ⟨v, rfl⟩ | ⟨v, rfl⟩ := readFlags_error hv <;> rfl
  case wireNameInvalid01 x =>
    cases (elementOf_invalid01 x _).symm.trans (error_of_pureSide h ha)
    exact ⟨rfl, trivial⟩
  case wireNameInvalid10 x =>
    cases (elementOf_invalid10 x _).symm.trans (error_of_pureSide h ha)
    exact ⟨rfl, trivial⟩
  case wireNameLabel len =>
    obtain ⟨e, he⟩ := elementOf_class00 len 0x00#8
    cases he.symm.trans (error_of_pureSide h ha)
  case wireNamePointer off => cases (elementOf_pointer off).symm.trans (error_of_pureSide h ha)
  case wireQuestion | wireRecord | wireMessage => exact absurd ha (pureOrRefuse_never_faults h)
  case reset | loadRx | clearTx | readU8 | readU16 | readU32 | readBytes | setPosition | readName |
    writeU16 | writeU32 | writeName | hdrEnc | hdrDec | qEnc | qDec | rrEnc | rrDec | msgEnc |
    msgDec | serialize | deserialize => exact absurd hi Bool.false_ne_true
  all_goals exact absurd ha (done_never_faults rfl h)

theorem execLoadRx_never_faults {data : List Byte} {s t : State} {f : FaultInfo}
    (h : execLoadRx data s = .next t) : t.answer ≠ some (.fault f) := by
  rcases Nat.lt_or_ge Config.bufCap data.length with hlt | hle
  · cases (execLoadRx_of_lt hlt s).symm.trans h
    exact nofun
  · cases (execLoadRx_of_le hle s).symm.trans h
    exact nofun

theorem serialize_never_faults {m : Message} {s t : State} {f : FaultInfo}
    (h : exec (.serialize m) s = .next t) : t.answer ≠ some (.fault f) := by
  cases hout : messageOutput m with
  | some w =>
    cases (serialize_of_some hout s).symm.trans h
    exact nofun
  | none =>
    cases (serialize_of_none hout s).symm.trans h
    exact nofun

/-- DESERIALIZE starts MSG_DEC with the record cleared, so its fault is one of MSG_DEC's own (R192). -/
theorem faultLegal_of_deserialize {data : List Byte} {s t : State} {f : FaultInfo}
    (h : execDeserialize data s = .next t) (ha : t.answer = some (.fault f)) : faultLegal f := by
  rcases Nat.lt_or_ge Config.bufCap data.length with hlt | hle
  · cases (execDeserialize_of_lt hlt s).symm.trans h
    cases ha
  · exact fault_of_readSide (decodeMessage_legal.map _) rfl ((execDeserialize_of_le hle s).symm.trans h) ha

/-! ## Which commands are refused (R197) -/

/-- The operands of the list are refused. -/
theorem refuses_of_refusable {i : Instr} (h : Refusable i) : Refuses i := by
  cases i
  case loadRx data => exact execLoadRx_of_lt h
  case writeName n => exact writeName_refuses h
  case qEnc q => exact qEnc_refuses h
  case rrEnc r => exact rrEnc_refuses h
  case msgEnc m => exact msgEnc_refuses h
  all_goals exact False.elim h

/-- A write-side operation with any other operands appends its output. -/
theorem appends_of_not_refusable {i : Instr} (hi : writeSideOp i = true) (h : ¬ Refusable i) :
    ∃ w, Appends i w := by
  cases i
  case writeU16 v => exact ⟨_, writeU16_appends v⟩
  case writeU32 v => exact ⟨_, writeU32_appends v⟩
  case writeName n => exact ⟨_, writeName_appends h⟩
  case hdrEnc hdr => exact ⟨_, hdrEnc_appends hdr⟩
  case qEnc q => exact ⟨_, qEnc_appends h⟩
  case rrEnc r =>
    obtain ⟨hwf, hname⟩ := not_or.1 h
    exact ⟨_, rrEnc_appends (not_not.1 hwf) hname⟩
  case msgEnc m =>
    obtain ⟨hwf, hnames⟩ := not_or.1 h
    exact ⟨_, msgEnc_appends (Bool.eq_true_of_not_eq_false hwf) fun n hn hlong => hnames ⟨n, hn, hlong⟩⟩
  all_goals exact absurd hi Bool.false_ne_true

/-- In every state the instruction is answered, and not with a refusal. -/
def NeverRefused (i : Instr) : Prop := ∀ s, ∃ t, exec i s = .next t ∧ t.answer ≠ some .refused

theorem readSideOp_neverRefused {i : Instr} (h : readSideOp i = true) : NeverRefused i := by
  intro s
  obtain ⟨body, -, -, he⟩ := readSideOp_body h
  obtain ⟨t, ht⟩ := readSide_answers body s
  refine ⟨t, (he s).trans ht, ?_⟩
  obtain ⟨f, -, rfl⟩ | ⟨r, c, -, -, rfl⟩ | ⟨f, c, -, -, rfl⟩ := readSide_cases ht <;> exact nofun

theorem Appends.neverRefused {i : Instr} {w : List Byte} (h : Appends i w) : NeverRefused i :=
  fun s => ⟨_, h s, nofun⟩

theorem neverRefused_of_pureSide {i : Instr} {α : Type} (g : α → Result) (v : Except FaultInfo α)
    (h : ∀ s, exec i s = pureSide g v s) : NeverRefused i := by
  cases v with
  | ok a => exact fun s => ⟨_, h s, nofun⟩
  | error f => exact fun s => ⟨_, h s, nofun⟩

/-- The pure operations with a command code are the conversions and BUILD_REQUEST. -/
theorem pureCommand_neverRefused {i : Instr} (hi : pureOp i = true)
    (hf : (encode i).format = .command) : NeverRefused i := by
  have hboth : (pureOp i && decide ((encode i).format = .command)) = true := by simp [hi, hf]
  clear hi hf
  cases i
  case opcodeFrom o => exact neverRefused_of_pureSide .opcode (opcodeFrom o) fun _ => rfl
  case opcodeTo m => exact neverRefused_of_pureSide .ordinal4 (.ok (opcodeTab m)) fun _ => rfl
  case rcodeFrom o => exact neverRefused_of_pureSide .rcode (rcodeFrom o) fun _ => rfl
  case rcodeTo m => exact neverRefused_of_pureSide .ordinal4 (.ok (rcodeTab m)) fun _ => rfl
  case typeFrom o => exact neverRefused_of_pureSide .type (typeFrom o) fun _ => rfl
  case typeTo m => exact neverRefused_of_pureSide .ordinal16 (.ok (typeTab m)) fun _ => rfl
  case classFrom o => exact neverRefused_of_pureSide .cls (classFrom o) fun _ => rfl
  case classTo m => exact neverRefused_of_pureSide .ordinal16 (.ok (classTab m)) fun _ => rfl
  case buildRequest id q => exact neverRefused_of_pureSide .message (.ok (requestMessage id q)) fun _ => rfl
  all_goals exact absurd hboth Bool.false_ne_true

/-- A command with operands that are not on the list is not refused. -/
theorem neverRefused_of_not_refusable {i : Instr} (hf : (encode i).format = .command)
    (h : ¬ Refusable i) : NeverRefused i := by
  obtain ⟨hread, -⟩ | ⟨-, hwrite, -⟩ | ⟨-, hpure, -⟩ | rfl | ⟨data, rfl⟩ | rfl | ⟨m, rfl⟩ |
    ⟨data, rfl⟩ := exec_side i
  · exact readSideOp_neverRefused hread
  · obtain ⟨w, hw⟩ := appends_of_not_refusable hwrite h
    exact hw.neverRefused
  · exact pureCommand_neverRefused hpure hf
  · exact fun s => ⟨_, rfl, nofun⟩
  · exact fun s => ⟨_, execLoadRx_of_le (Nat.not_lt.1 h) s, nofun⟩
  · exact fun s => ⟨_, rfl, nofun⟩
  · cases hf
  · cases hf

/-! ## Unassigned command codes (30_encoding.md R51) -/

/-- The 29 command codes, in the order of 30_encoding.md R52. -/
theorem commandTable_codes : commandTable.map (fun row => row.1.toNat) =
    [0x01, 0x02, 0x03, 0x10, 0x11, 0x12, 0x13, 0x14, 0x15, 0x20, 0x21, 0x22, 0x30, 0x31, 0x32, 0x33, 0x34,
      0x35, 0x36, 0x37, 0x40, 0x41, 0x50, 0x51, 0x52, 0x53, 0x60, 0x61, 0x62] := rfl

/-- A code that no row of the command table has is unassigned, whatever bytes follow. -/
theorem decode_unassigned {code : Byte} (h : code.toNat ∉ commandTable.map fun row => row.1.toNat)
    (operands : List Byte) : decode ⟨.command, code :: operands⟩ = .error (.unassignedCode code) := by
  have hfind : commandTable.find? (fun row => row.1 == code) = none :=
    List.find?_eq_none.2 fun row hrow hcode =>
      h (List.mem_map.2 ⟨row, hrow, congrArg BitVec.toNat (eq_of_beq hcode)⟩)
  simp only [decode, decodeHead, decodeCoded, lookupCode, hfind, Option.map_none]

/-- A step refuses an unassigned code, which leaves the host program. -/
theorem step_of_unassigned {s : State} {t : Transaction} {rest : List Transaction} {code : Byte}
    (h : s.host = t :: rest) (hd : decode t = .error (.unassignedCode code)) :
    step s = .next (State.answered { s with host := rest } .refused) := by
  simp only [step, issue, h, hd]
  rfl

end Sys2Proof.Machine
end

section
/-! PROOFS. The statements of 60_exceptions.md. -/

namespace Sys2Proof.Machine

/-- Settles O11: the gate answers a recorded fault, no effect but a reset or a load replaces it, and the
output of a write-side operation and the answer of a pure one do not depend on the state. -/
theorem faultRecordIsStickyForReadsOnly : Obligations.FaultRecordIsStickyForReadsOnly := by
  refine ⟨fun i s f hs hreset hload hdeser => ?sticky, fun i s r hi => ?others⟩
  case sticky =>
    obtain ⟨t, ht⟩ := exec_next i s
    exact ⟨t, ht, exec_keeps_fault hs hreset hload hdeser ht, fun hread =>
      Host.Outcome.next.inj (ht.symm.trans ((readSideGateAnswersOrRecords i s hread).1 f hs))⟩
  case others =>
    obtain hwrite | hpure | rfl := hi
    · obtain ⟨output, he⟩ := writeSideOp_output hwrite
      cases output with
      | some w => exact ⟨_, he s, he _⟩
      | none => exact ⟨_, he s, he _⟩
    · obtain ⟨answer, he⟩ := pureOp_answer hpure
      exact ⟨_, he s, he _⟩
    · exact ⟨_, rfl, rfl⟩

/-- Settles O52, by the side the operation is on: a read-side operation answers what its body raised, a pure
one the fault that is its value, a write-side one and a host action none. -/
theorem operationsRaiseOnlyTheirFaults : Obligations.OperationsRaiseOnlyTheirFaults := by
  intro i s t f hok h ha
  obtain ⟨hread, body, -, hlegal, he⟩ | ⟨output, -, he⟩ | ⟨-, hpure, -⟩ | rfl | ⟨data, rfl⟩ | rfl |
    ⟨m, rfl⟩ | ⟨data, rfl⟩ := exec_side i
  · obtain ⟨body', hraises, he'⟩ := readSideOp_raises hread
    exact ⟨fault_of_readSide hraises hok ((he' s).symm.trans h) ha,
      fault_of_readSide hlegal hok ((he s).symm.trans h) ha⟩
  · exact absurd ha (writeSide_never_faults ((he s).symm.trans h))
  · exact pureOp_fault hpure h ha
  · cases h
    cases ha
  · exact absurd ha (execLoadRx_never_faults h)
  · cases h
    cases ha
  · exact absurd ha (serialize_never_faults h)
  · exact ⟨rfl, faultLegal_of_deserialize h ha⟩

/-- Settles O53: the operands of the list are refused and no others, and a code that is none of the command
table's decodes to no instruction. -/
theorem refusalsAreExactlyTheList : Obligations.RefusalsAreExactlyTheList :=
  ⟨fun _ hf => ⟨refuses_of_refusable, neverRefused_of_not_refusable hf⟩,
    fun _ _ operands _ hhost hcode =>
      step_of_unassigned hhost (decode_unassigned (commandTable_codes ▸ hcode) operands)⟩

/-- Settles O54: the numbers are those of the kinds and of the fields of `UnknownEnumValue`. -/
theorem statusNumbersAreTheStatedOnes : Obligations.StatusNumbersAreTheStatedOnes :=
  ⟨rfl, rfl, rfl, rfl, fun _ => ⟨rfl, rfl, rfl, rfl⟩⟩

end Sys2Proof.Machine
end

section
/-! PROOFS. Reads at the end of the buffer and runs of a host program, said once
(70_reset_and_hazards.md): a decoder that starts at SIZE raises TruncatedMessage where it stands, no
instruction looks at the host program, and one answered without going wrong leaves RSTATUS OK. -/

namespace Sys2Proof.Machine

/-! ## Bodies that start at SIZE (R211) -/

/-- Outside a running READ_NAME, with no byte left before SIZE. -/
def Cursor.AtEnd (c : Cursor) (b : Buf) : Prop := c.Idle ∧ b.size ≤ c.rpos

/-- A body that reads a byte before it does anything else: at SIZE it raises TruncatedMessage and leaves
the cursor where it is (20_memory.md R36). -/
def Body.NeedsByte {α : Type} (x : Body α) : Prop :=
  ∀ (b : Buf) (c : Cursor), c.AtEnd b → x b c = .raised .truncatedMessage c

theorem readU8_needsByte : readU8.NeedsByte := fun _ _ h => readU8_at_end h.2

theorem Body.NeedsByte.bind {α β : Type} {x : Body α} (hx : x.NeedsByte) (f : α → Body β) :
    (Body.bind x f).NeedsByte := fun b c h => Body.bind_raised (hx b c h)

theorem readU16_needsByte : readU16.NeedsByte := readU8_needsByte.bind _

theorem readU32_needsByte : readU32.NeedsByte := readU8_needsByte.bind _

theorem nameAtDepth_needsByte (levels : Nat) : (nameAtDepth (levels + 1)).NeedsByte := by
  intro b c h
  have helements : (nameElements (b.size - c.rpos + 1)).NeedsByte := readU8_needsByte.bind _
  exact helements.bind _ b c h

theorem readName_needsByte : readName.NeedsByte := fun b c h =>
  (readName_run h.1 b).trans ((nameAtDepth_needsByte Config.pointerLimit).bind _ b c h)

theorem decodeHeader_needsByte : decodeHeader.NeedsByte := readU16_needsByte.bind _

theorem decodeQuestion_needsByte : decodeQuestion.NeedsByte := readName_needsByte.bind _

theorem decodeRecord_needsByte : decodeRecord.NeedsByte := readName_needsByte.bind _

theorem decodeMessage_needsByte : decodeMessage.NeedsByte := decodeHeader_needsByte.bind _

/-- In the reset state RPOS stands at SIZE, which is 0. -/
theorem reset_atEnd : State.reset.cursor.AtEnd State.reset.buf := ⟨⟨rfl, rfl⟩, Nat.le_refl 0⟩

theorem reset_faults_of_needsByte {i : Instr} {α : Type} {x : Body α} (g : α → Result)
    (hx : x.NeedsByte) (he : ∀ s, exec i s = readSide (x.map g) s) :
    exec i State.reset = .next (State.reset.faultAt 0 .truncatedMessage) :=
  (he _).trans (readSide_map_faultAt rfl (hx _ _ reset_atEnd))

/-- From reset every read-side operation needs a byte, but READ_BYTES of none and SET_POSITION, which is
bounded by SIZE. -/
theorem reset_faults_of_readSideOp {i : Instr} (hi : readSideOp i = true) (hbytes : i ≠ .readBytes 0)
    (hpos : i ≠ .setPosition 0) :
    exec i State.reset = .next (State.reset.faultAt 0 .truncatedMessage) := by
  cases i
  case readU8 => exact reset_faults_of_needsByte .u8 readU8_needsByte fun _ => rfl
  case readU16 => exact reset_faults_of_needsByte .u16 readU16_needsByte fun _ => rfl
  case readU32 => exact reset_faults_of_needsByte .u32 readU32_needsByte fun _ => rfl
  case readBytes n =>
    have hn : n ≠ 0 := fun h => hbytes (congrArg Instr.readBytes h)
    have hlt : 0 < n.toNat := by bv_omega
    exact ((readBytesIsAllOrNothing n).2 State.reset State.reset_inv rfl).2 hlt
  case setPosition p =>
    have hp : p ≠ 0 := fun h => hpos (congrArg Instr.setPosition h)
    exact ((setPositionIsBoundedBySize p).2 State.reset rfl).2 (Nat.pos_of_ne_zero hp)
  case readName => exact reset_faults_of_needsByte .name readName_needsByte fun _ => rfl
  case hdrDec => exact reset_faults_of_needsByte .header decodeHeader_needsByte fun _ => rfl
  case qDec => exact reset_faults_of_needsByte .question decodeQuestion_needsByte fun _ => rfl
  case rrDec => exact reset_faults_of_needsByte .record decodeRecord_needsByte fun _ => rfl
  case msgDec => exact reset_faults_of_needsByte .message decodeMessage_needsByte fun _ => rfl
  all_goals exact absurd hi Bool.false_ne_true

/-! ## The host program (20_memory.md R40) -/

/-- The gate carries any host program through, whatever the body does. -/
theorem readSide_withHost {body : Body Result} {s t : State} (ts : List Transaction)
    (h : readSide body s = .next t) :
    readSide body { s with host := ts } = .next { t with host := ts } := by
  obtain ⟨f, hf, rfl⟩ | ⟨r, c, hok, hb, rfl⟩ | ⟨f, c, hok, hb, rfl⟩ := readSide_cases h
  · exact readSide_sticky hf
  · exact readSide_done hok hb
  · exact readSide_fault hok hb

/-- No instruction looks at the host program or changes it. -/
theorem exec_withHost {i : Instr} {s t : State} (ts : List Transaction) (h : exec i s = .next t) :
    exec i { s with host := ts } = .next { t with host := ts } := by
  obtain ⟨-, body, -, -, he⟩ | ⟨output, -, he⟩ | ⟨r, -, he⟩ | rfl | ⟨data, rfl⟩ | rfl | ⟨m, rfl⟩ |
    ⟨data, rfl⟩ := exec_side i
  · exact (he _).trans (readSide_withHost ts ((he s).symm.trans h))
  · obtain ⟨w, rfl, rfl⟩ | ⟨rfl, rfl⟩ := writeSide_cases ((he s).symm.trans h)
    · exact he _
    · exact he _
  · cases (he s).symm.trans h
    exact he _
  · cases h
    rfl
  · rcases Nat.lt_or_ge Config.bufCap data.length with hlt | hle
    · cases (execLoadRx_of_lt hlt s).symm.trans h
      exact execLoadRx_of_lt hlt _
    · cases (execLoadRx_of_le hle s).symm.trans h
      exact execLoadRx_of_le hle _
  · cases h
    rfl
  · obtain ⟨w, r, he⟩ := execSerialize_replaces m
    cases (he s).symm.trans h
    exact he _
  · rcases Nat.lt_or_ge Config.bufCap data.length with hlt | hle
    · cases (execDeserialize_of_lt hlt s).symm.trans h
      exact execDeserialize_of_lt hlt _
    · exact (execDeserialize_of_le hle _).trans
        (readSide_withHost ts ((execDeserialize_of_le hle s).symm.trans h))

/-! ## Answers and RSTATUS (R213) -/

/-- A read-side operation is answered, and an answer that is no fault means RSTATUS is OK. -/
theorem readSide_answered {body : Body Result} {s t : State} (h : readSide body s = .next t) :
    ∃ r, t.answer = some r ∧ (r.wrong = false → t.rstatus = .ok) := by
  obtain ⟨f, -, rfl⟩ | ⟨r, c, hok, -, rfl⟩ | ⟨f, c, -, -, rfl⟩ := readSide_cases h
  · exact ⟨.fault f, rfl, nofun⟩
  · exact ⟨.done r, rfl, fun _ => hok⟩
  · exact ⟨.fault f, rfl, nofun⟩

/-- Every instruction is answered, and one that did not go wrong leaves RSTATUS OK where it was. -/
theorem exec_answered {i : Instr} {s t : State} (h : exec i s = .next t) :
    ∃ r, t.answer = some r ∧ (r.wrong = false → s.rstatus = .ok → t.rstatus = .ok) := by
  cases exec_effect h with
  | gate body _ _ _ hr =>
    obtain ⟨r, ha, hok⟩ := readSide_answered hr
    exact ⟨r, ha, fun hw _ => hok hw⟩
  | append w => exact ⟨_, rfl, fun _ hok => hok⟩
  | answer r => exact ⟨r, rfl, fun _ hok => hok⟩
  | reset => exact ⟨_, rfl, fun _ _ => rfl⟩
  | load data => exact ⟨_, rfl, fun _ _ => rfl⟩
  | clear => exact ⟨_, rfl, fun _ hok => hok⟩
  | serialize m w r => exact ⟨r, rfl, fun _ hok => hok⟩
  | deserialize data _ _ _ hr =>
    obtain ⟨r, ha, hok⟩ := readSide_answered hr
    exact ⟨r, ha, fun hw _ => hok hw⟩

/-! ## Runs of a host program (R213) -/

/-- A step over the encoding of a well-formed instruction performs it and leaves the rest of the host
program, which the instruction does not see. -/
theorem step_of_encode {s : State} {i : Instr} {rest : List Transaction} (hi : i.wf = true)
    (hs : s.host = encode i :: rest) : ∃ t, step s = .next t ∧ t.host = rest ∧
      exec i { s with host := [] } = .next { t with host := [] } := by
  obtain ⟨t, ht⟩ := exec_next i s
  have hstep := (step_of_decode hs (decodeUndoesEncode i hi)).trans (exec_withHost rest ht)
  have hexec := exec_withHost [] ht
  exact ⟨{ t with host := rest }, hstep, rfl, hexec⟩

theorem run_succ {s t : State} (h : step s = .next t) (n : Nat) :
    Host.Core.run Sys2Proof.core (n + 1) s = Host.Core.run Sys2Proof.core n t := by
  have hcore : Sys2Proof.core.step s = .next t := h
  simp only [Host.Core.run, hcore]

end Sys2Proof.Machine
end

section
/-! PROOFS. The statements of 70_reset_and_hazards.md. -/

namespace Sys2Proof.Machine

/-- Settles O2: SIZE is 0 in the reset state, so all of RX is at or beyond it, and no instruction tells
apart two states that agree below SIZE. -/
theorem resetStateHidesTheBytesOfRx : Obligations.ResetStateHidesTheBytesOfRx := by
  refine ⟨rfl, rfl, rfl, rfl, rfl, rfl, rfl, fun s => ?reset, fun rx i => ?hidden⟩
  case reset => exact ⟨_, rfl, fun _ _ => rfl, rfl⟩
  case hidden =>
    have hsame : SameBelowSize State.reset { State.reset with rx := rx } :=
      ⟨fun a ha => absurd ha (Nat.not_lt_zero a), rfl⟩
    exact exec_sameOutcome i hsame

/-- Settles O60, by induction on the program: a step performs the next instruction, whose effect does not
depend on what the host still has to issue. -/
theorem hostProgramRunsToItsEnd : Obligations.HostProgramRunsToItsEnd := by
  intro is
  induction is with
  | nil =>
    intro s _ hs
    have hhost : { s with host := [] } = s := by rw [← show s.host = [] from hs]
    exact ⟨[], s, rfl, hs, hhost ▸ .nil s, rfl, fun _ hok => hok⟩
  | cons i rest ih =>
    intro s hwf hs
    obtain ⟨hi, hrest⟩ := List.forall_mem_cons.1 hwf
    obtain ⟨t, hstep, hhost, hexec⟩ := step_of_encode hi hs
    obtain ⟨r, hanswer, hstatus⟩ := exec_answered hexec
    obtain ⟨rs, u, hrun, hend, hruns, hlen, hok⟩ := ih t hrest hhost
    refine ⟨r :: rs, u, (run_succ hstep _).trans hrun, hend, .cons _ _ _ _ _ _ _ hexec hanswer hruns,
      congrArg (· + 1) hlen, fun hright hstart => ?_⟩
    obtain ⟨hr, hrs⟩ := List.forall_mem_cons.1 hright
    exact hok hrs (hstatus hr hstart)

/-- Settles O3: at SIZE 0 a body that needs a byte has none, the output of a write-side operation that is not
refused is appended in every state, and so is a pure operation answered. -/
theorem afterResetEveryReadFaultsAndTheRestWorks :
    Obligations.AfterResetEveryReadFaultsAndTheRestWorks := by
  refine ⟨fun _ => reset_faults_of_readSideOp, rfl, rfl, fun i hi hn => ?writes, fun i hi => ?pures⟩
  case writes =>
    obtain ⟨w, hw⟩ := appends_of_not_refusable hi hn
    exact ⟨w, hw State.reset⟩
  case pures =>
    obtain ⟨r, hr⟩ := pureOp_answer hi
    exact ⟨r, hr State.reset⟩

end Sys2Proof.Machine
end
